-- ==== Sys2Proof/Word.lean ====
section
/-! DEFINITION. Words of RTC-CORE and the numeric primitives of spec/00_scope.md R11 and R12 that Lean does not
already have under a name of its own. `umod32` is `BitVec.ofInt 32`, `s32`, `s16`, `s8` are `BitVec.toInt`,
`zext_N` and `sext_N` are `BitVec.zeroExtend` and `BitVec.signExtend`, `tdiv` is `Int.tdiv`, `sgn` is `Int.sign`. -/

namespace Sys2Proof

/-- A `u32` pattern (R11): arithmetic on it is modulo 2^32. -/
abbrev Word := BitVec 32

/-- An 8-bit register: `PER_EN`, `PER_FLAG`, `TUNE`, a byte of the record image. -/
abbrev Byte := BitVec 8

/-- A 16-bit register or operand. -/
abbrev Half := BitVec 16

/-- One command word `cmd[95:0]` (R80): `{H, A, B}`, `H` in the most significant position. -/
abbrev CmdWord := BitVec 96

/-- `clamp(x, lo, hi) = max(lo, min(hi, x))` (R12). -/
def clampInt (x lo hi : Int) : Int := max lo (min hi x)

end Sys2Proof
end

