-- ==== Sys2Proof/Syntax.lean ====
section
/-! DEFINITION. The 22 commands of RTC-CORE (spec/30_encoding.md R84) as one inductive, one constructor per row of
spec/opcode_table.json, operands as R83 types them: bit patterns are bit vectors, indices and numbers are `Nat`
(their ranges are checked in WellFormed.lean). A callback operand is the whole field `A`; the token kept of it has
`CB_WIDTH` bits (Machine/Ops.lean). -/

namespace Sys2Proof

/-- A correction field, in the record order of spec/20_memory.md R63 (R89 gives the numbers 0 to 7). -/
inductive CfgField where
  | profile | cadence | freq | tcenter | a2 | a3 | aging | anchor
  deriving DecidableEq, Repr, Inhabited

/-- A host command (R84). -/
inductive Instr where
  /-- `SET_EPOCH unix_time` (R103). -/
  | setEpoch (unixTime : Word)
  /-- `GET_UNIX_TIME` (R104). -/
  | getUnixTime
  /-- `GET_COUNTER` (R105). -/
  | getCounter
  /-- `GET_EPOCH` (R106). -/
  | getEpoch
  /-- `PER_REGISTER callback, freq` (R123). -/
  | perRegister (callback : Word) (freq : Nat)
  /-- `PER_DISABLE freq` (R124). -/
  | perDisable (freq : Nat)
  /-- `PER_DISABLE_MASK bits` (R125). -/
  | perDisableMask (bits : Byte)
  /-- `PER_DISABLE_ALL` (R126). -/
  | perDisableAll
  /-- `COMP_REGISTER idx, callback, deadline` (R145). -/
  | compRegister (idx : Nat) (callback : Word) (deadline : Word)
  /-- `COMP_REGISTER_NS idx, callback, deadline` (R146). -/
  | compRegisterNs (idx : Nat) (callback : Word) (deadline : Word)
  /-- `COMP_DISABLE idx` (R147). -/
  | compDisable (idx : Nat)
  /-- `COMP_DISABLE_NS idx` (R148). -/
  | compDisableNs (idx : Nat)
  /-- `COMP_SCHEDULE_NEXT` (R149). -/
  | compScheduleNext
  /-- `COMP_IS_ENABLED idx` (R150). -/
  | compIsEnabled (idx : Nat)
  /-- `GET_SCHED` (R151). -/
  | getSched
  /-- `FC_APPLY temp, mv`, and `FC_APPLY.R temp, mv` when `rst` (R186). -/
  | fcApply (rst : Bool) (temp : Half) (mv : Half)
  /-- `FC_SET_PROFILE p` (R187). -/
  | fcSetProfile (p : Nat)
  /-- `FC_CFG_WR field, value` (R188). -/
  | fcCfgWr (field : CfgField) (value : Word)
  /-- `FC_CFG_RD field` (R189). -/
  | fcCfgRd (field : CfgField)
  /-- `FC_DUE` (R190). -/
  | fcDue
  /-- `GET_TUNE` (R191). -/
  | getTune
  /-- `CB_RET` (R217). -/
  | cbRet
  deriving DecidableEq, Repr

end Sys2Proof
end

