-- ==== Sys2Proof/WellFormed.lean ====
section
/-! DEFINITION. Which terms of `Instr` have an encoding: each number fits the field spec/30_encoding.md R83 gives it.
A value that fits its field but lies outside the operation's domain (`idx` ≥ N_COMP, a bad `freq`, `p` > 4) is well
formed: it is encodable, and the command's own rule handles it (R86). -/

namespace Sys2Proof

/-- `freq` is `imm[15:0]` (R83). -/
def fitsFreq (freq : Nat) : Bool := decide (freq < 2 ^ 16)

/-- `idx` is `imm[7:0]` (R83). -/
def fitsIdx (idx : Nat) : Bool := decide (idx < 2 ^ 8)

/-- `p` is `imm[7:0]` (R83). -/
def fitsProfile (p : Nat) : Bool := decide (p < 2 ^ 8)

/-- Every operand fits its field of the command word (R83). -/
def Instr.wellFormed : Instr → Bool
  | .setEpoch _ => true
  | .getUnixTime => true
  | .getCounter => true
  | .getEpoch => true
  | .perRegister _ freq => fitsFreq freq
  | .perDisable freq => fitsFreq freq
  | .perDisableMask _ => true
  | .perDisableAll => true
  | .compRegister idx _ _ => fitsIdx idx
  | .compRegisterNs idx _ _ => fitsIdx idx
  | .compDisable idx => fitsIdx idx
  | .compDisableNs idx => fitsIdx idx
  | .compScheduleNext => true
  | .compIsEnabled idx => fitsIdx idx
  | .getSched => true
  | .fcApply _ _ _ => true
  | .fcSetProfile p => fitsProfile p
  | .fcCfgWr _ _ => true
  | .fcCfgRd _ => true
  | .fcDue => true
  | .getTune => true
  | .cbRet => true

end Sys2Proof
end

