-- ==== Sys2Proof/Decode.lean ====
section
/-! DEFINITION. The command encoding of spec/30_encoding.md: fields (R81), formats (R82, R83), the opcode map (R84), the
decoder (R88), which rejects every reserved word by name (R85), and the encoder. -/

namespace Sys2Proof

/-- Why a word is no command (R85): both kinds are reserved, and both are ignored by the hardware. -/
inductive Reserved where
  /-- `op` is in no row of the opcode map. -/
  | unknownOp (op : BitVec 8)
  /-- `op` is in the map, and a bit its row requires to be zero is set. -/
  | mustBeZero (op : BitVec 8)
  deriving DecidableEq, Repr

/-- `op = H[31:24]`, bits 95:88 (R81). -/
def opField (w : CmdWord) : BitVec 8 := w.extractLsb' 88 8
/-- `fl = H[23:16]`, bits 87:80 (R81). -/
def flField (w : CmdWord) : BitVec 8 := w.extractLsb' 80 8
/-- `imm = H[15:0]`, bits 79:64 (R81). -/
def immField (w : CmdWord) : BitVec 16 := w.extractLsb' 64 16
/-- `A`, bits 63:32 (R81). -/
def aField (w : CmdWord) : BitVec 32 := w.extractLsb' 32 32
/-- `B`, bits 31:0 (R81). -/
def bField (w : CmdWord) : BitVec 32 := w.extractLsb' 0 32

/-- `{H, A, B}` with `H = {op, fl, imm}` (R80, R81). -/
def pack (op fl : BitVec 8) (imm : BitVec 16) (a b : BitVec 32) : CmdWord := op ++ fl ++ imm ++ a ++ b

/-- Format `Z` (R82): every field but `op` is zero. -/
def formatZ (w : CmdWord) : Bool := flField w == 0 && immField w == 0 && aField w == 0 && bField w == 0
/-- Format `A` (R82): `A` is used. -/
def formatA (w : CmdWord) : Bool := flField w == 0 && immField w == 0 && bField w == 0
/-- Format `I` (R82): the low `k` bits of `imm` are used (R83). -/
def formatI (k : Nat) (w : CmdWord) : Bool :=
  flField w == 0 && immField w >>> k == 0 && aField w == 0 && bField w == 0
/-- Format `IA` (R82): the low `k` bits of `imm`, and `A`. -/
def formatIA (k : Nat) (w : CmdWord) : Bool := flField w == 0 && immField w >>> k == 0 && bField w == 0
/-- Format `IAB` (R82): the low `k` bits of `imm`, `A` and `B`. -/
def formatIAB (k : Nat) (w : CmdWord) : Bool := flField w == 0 && immField w >>> k == 0
/-- Format `FIA` (R82): `fl[0]`, `imm`, `A[15:0]` (R83). -/
def formatFIA (w : CmdWord) : Bool := flField w >>> 1 == 0 && aField w >>> 16 == 0 && bField w == 0

/-- The low byte of `imm`: `idx`, `bits` or `p` (R83). -/
def immByte (w : CmdWord) : BitVec 8 := (immField w).setWidth 8

/-- The field numbered `n` (R89): `imm[2:0]` (R83). -/
def CfgField.ofBits (n : BitVec 3) : CfgField :=
  match n with
  | 0#3 => .profile | 1#3 => .cadence | 2#3 => .freq | 3#3 => .tcenter
  | 4#3 => .a2 | 5#3 => .a3 | 6#3 => .aging | 7#3 => .anchor

/-- The number of a field (R89). -/
def CfgField.toBits : CfgField → BitVec 3
  | .profile => 0 | .cadence => 1 | .freq => 2 | .tcenter => 3
  | .a2 => 4 | .a3 => 5 | .aging => 6 | .anchor => 7

/-- `i` when the must-be-zero bits of its format are zero (R85). -/
def accept (zeros : Bool) (w : CmdWord) (i : Instr) : Except Reserved Instr :=
  if zeros then .ok i else .error (.mustBeZero (opField w))

/-- The decoder (R88): it reads `op`, finds the row, and checks the zero bits; total on every 96-bit word. -/
def decode (w : CmdWord) : Except Reserved Instr :=
  match opField w with
  | 0x10#8 => accept (formatA w) w (.setEpoch (aField w))
  | 0x11#8 => accept (formatZ w) w .getUnixTime
  | 0x12#8 => accept (formatZ w) w .getCounter
  | 0x13#8 => accept (formatZ w) w .getEpoch
  | 0x20#8 => accept (formatIA 16 w) w (.perRegister (aField w) (immField w).toNat)
  | 0x21#8 => accept (formatI 16 w) w (.perDisable (immField w).toNat)
  | 0x22#8 => accept (formatI 8 w) w (.perDisableMask (immByte w))
  | 0x23#8 => accept (formatZ w) w .perDisableAll
  | 0x30#8 => accept (formatIAB 8 w) w (.compRegister (immByte w).toNat (aField w) (bField w))
  | 0x31#8 => accept (formatIAB 8 w) w (.compRegisterNs (immByte w).toNat (aField w) (bField w))
  | 0x32#8 => accept (formatI 8 w) w (.compDisable (immByte w).toNat)
  | 0x33#8 => accept (formatI 8 w) w (.compDisableNs (immByte w).toNat)
  | 0x34#8 => accept (formatZ w) w .compScheduleNext
  | 0x35#8 => accept (formatI 8 w) w (.compIsEnabled (immByte w).toNat)
  | 0x36#8 => accept (formatZ w) w .getSched
  | 0x40#8 => accept (formatFIA w) w (.fcApply ((flField w).getLsbD 0) (immField w) ((aField w).setWidth 16))
  | 0x41#8 => accept (formatI 8 w) w (.fcSetProfile (immByte w).toNat)
  | 0x42#8 => accept (formatIA 3 w) w (.fcCfgWr (CfgField.ofBits ((immField w).setWidth 3)) (aField w))
  | 0x43#8 => accept (formatI 3 w) w (.fcCfgRd (CfgField.ofBits ((immField w).setWidth 3)))
  | 0x44#8 => accept (formatZ w) w .fcDue
  | 0x45#8 => accept (formatZ w) w .getTune
  | 0x50#8 => accept (formatZ w) w .cbRet
  | op => .error (.unknownOp op)

/-- The command word an opcode-table number stands for: bit 0 of `w` is bit 0 of `cmd[95:0]`, the `nbits` low bits count,
every bit above is 0. -/
def tableWord (nbits w : Nat) : CmdWord := BitVec.ofNat 96 (w % 2 ^ nbits)

/-- The command the decoder reads from such a number. Every command has 96 bits (R80), so a longer row is refused. -/
def decodeTableWord (nbits w : Nat) : Option Instr :=
  if nbits ≤ 96 then (decode (tableWord nbits w)).toOption else none

/-- The `op` of a command (R84). -/
def Instr.opcode : Instr → BitVec 8
  | .setEpoch _ => 0x10#8
  | .getUnixTime => 0x11#8
  | .getCounter => 0x12#8
  | .getEpoch => 0x13#8
  | .perRegister _ _ => 0x20#8
  | .perDisable _ => 0x21#8
  | .perDisableMask _ => 0x22#8
  | .perDisableAll => 0x23#8
  | .compRegister _ _ _ => 0x30#8
  | .compRegisterNs _ _ _ => 0x31#8
  | .compDisable _ => 0x32#8
  | .compDisableNs _ => 0x33#8
  | .compScheduleNext => 0x34#8
  | .compIsEnabled _ => 0x35#8
  | .getSched => 0x36#8
  | .fcApply _ _ _ => 0x40#8
  | .fcSetProfile _ => 0x41#8
  | .fcCfgWr _ _ => 0x42#8
  | .fcCfgRd _ => 0x43#8
  | .fcDue => 0x44#8
  | .getTune => 0x45#8
  | .cbRet => 0x50#8

/-- The encoder (R80 to R84): every operand in its field, every unused bit zero. A number that does not fit its field
(an ill-formed term) loses its high bits. -/
def encode (i : Instr) : CmdWord :=
  match i with
  | .setEpoch u => pack i.opcode 0 0 u 0
  | .perRegister cb freq => pack i.opcode 0 (BitVec.ofNat 16 freq) cb 0
  | .perDisable freq => pack i.opcode 0 (BitVec.ofNat 16 freq) 0 0
  | .perDisableMask bits => pack i.opcode 0 (bits.setWidth 16) 0 0
  | .compRegister idx cb d => pack i.opcode 0 ((BitVec.ofNat 8 idx).setWidth 16) cb d
  | .compRegisterNs idx cb d => pack i.opcode 0 ((BitVec.ofNat 8 idx).setWidth 16) cb d
  | .compDisable idx => pack i.opcode 0 ((BitVec.ofNat 8 idx).setWidth 16) 0 0
  | .compDisableNs idx => pack i.opcode 0 ((BitVec.ofNat 8 idx).setWidth 16) 0 0
  | .compIsEnabled idx => pack i.opcode 0 ((BitVec.ofNat 8 idx).setWidth 16) 0 0
  | .fcApply rst temp mv => pack i.opcode (if rst then 1 else 0) temp (mv.setWidth 32) 0
  | .fcSetProfile p => pack i.opcode 0 ((BitVec.ofNat 8 p).setWidth 16) 0 0
  | .fcCfgWr f v => pack i.opcode 0 (f.toBits.setWidth 16) v 0
  | .fcCfgRd f => pack i.opcode 0 (f.toBits.setWidth 16) 0 0
  | .getUnixTime => pack i.opcode 0 0 0 0
  | .getCounter => pack i.opcode 0 0 0 0
  | .getEpoch => pack i.opcode 0 0 0 0
  | .perDisableAll => pack i.opcode 0 0 0 0
  | .compScheduleNext => pack i.opcode 0 0 0 0
  | .getSched => pack i.opcode 0 0 0 0
  | .fcDue => pack i.opcode 0 0 0 0
  | .getTune => pack i.opcode 0 0 0 0
  | .cbRet => pack i.opcode 0 0 0 0

/-- The mnemonic of a command, as spec/opcode_table.json spells it. -/
def Instr.mnemonic : Instr → String
  | .setEpoch _ => "SET_EPOCH"
  | .getUnixTime => "GET_UNIX_TIME"
  | .getCounter => "GET_COUNTER"
  | .getEpoch => "GET_EPOCH"
  | .perRegister _ _ => "PER_REGISTER"
  | .perDisable _ => "PER_DISABLE"
  | .perDisableMask _ => "PER_DISABLE_MASK"
  | .perDisableAll => "PER_DISABLE_ALL"
  | .compRegister _ _ _ => "COMP_REGISTER"
  | .compRegisterNs _ _ _ => "COMP_REGISTER_NS"
  | .compDisable _ => "COMP_DISABLE"
  | .compDisableNs _ => "COMP_DISABLE_NS"
  | .compScheduleNext => "COMP_SCHEDULE_NEXT"
  | .compIsEnabled _ => "COMP_IS_ENABLED"
  | .getSched => "GET_SCHED"
  | .fcApply _ _ _ => "FC_APPLY"
  | .fcSetProfile _ => "FC_SET_PROFILE"
  | .fcCfgWr _ _ => "FC_CFG_WR"
  | .fcCfgRd _ => "FC_CFG_RD"
  | .fcDue => "FC_DUE"
  | .getTune => "GET_TUNE"
  | .cbRet => "CB_RET"

/-- Whether a command produces a response: the `rsp` column (R84, R87). -/
def Instr.responds : Instr → Bool
  | .setEpoch _ => false
  | .getUnixTime => true
  | .getCounter => true
  | .getEpoch => true
  | .perRegister _ _ => false
  | .perDisable _ => false
  | .perDisableMask _ => false
  | .perDisableAll => false
  | .compRegister _ _ _ => false
  | .compRegisterNs _ _ _ => false
  | .compDisable _ => false
  | .compDisableNs _ => false
  | .compScheduleNext => false
  | .compIsEnabled _ => true
  | .getSched => true
  | .fcApply _ _ _ => false
  | .fcSetProfile _ => false
  | .fcCfgWr _ _ => false
  | .fcCfgRd _ => true
  | .fcDue => true
  | .getTune => true
  | .cbRet => false

/-- A row of the opcode map (R84): a word `w` selects it when `w & mask = match`. -/
structure OpcodeRow where
  mnemonic : String
  matchBits : CmdWord
  mask : CmdWord
  rsp : Bool
  deriving DecidableEq, Repr

/-- `w & mask = match` (R84). -/
def OpcodeRow.selectedBy (r : OpcodeRow) (w : CmdWord) : Bool := w &&& r.mask == r.matchBits

/-- The opcode map (R84): the 22 rows are all the commands. -/
def opcodeTable : List OpcodeRow :=
  [
    ⟨"SET_EPOCH", 0x100000000000000000000000#96, 0xFFFFFFFF00000000FFFFFFFF#96, false⟩,
    ⟨"GET_UNIX_TIME", 0x110000000000000000000000#96, 0xFFFFFFFFFFFFFFFFFFFFFFFF#96, true⟩,
    ⟨"GET_COUNTER", 0x120000000000000000000000#96, 0xFFFFFFFFFFFFFFFFFFFFFFFF#96, true⟩,
    ⟨"GET_EPOCH", 0x130000000000000000000000#96, 0xFFFFFFFFFFFFFFFFFFFFFFFF#96, true⟩,
    ⟨"PER_REGISTER", 0x200000000000000000000000#96, 0xFFFF000000000000FFFFFFFF#96, false⟩,
    ⟨"PER_DISABLE", 0x210000000000000000000000#96, 0xFFFF0000FFFFFFFFFFFFFFFF#96, false⟩,
    ⟨"PER_DISABLE_MASK", 0x220000000000000000000000#96, 0xFFFFFF00FFFFFFFFFFFFFFFF#96, false⟩,
    ⟨"PER_DISABLE_ALL", 0x230000000000000000000000#96, 0xFFFFFFFFFFFFFFFFFFFFFFFF#96, false⟩,
    ⟨"COMP_REGISTER", 0x300000000000000000000000#96, 0xFFFFFF000000000000000000#96, false⟩,
    ⟨"COMP_REGISTER_NS", 0x310000000000000000000000#96, 0xFFFFFF000000000000000000#96, false⟩,
    ⟨"COMP_DISABLE", 0x320000000000000000000000#96, 0xFFFFFF00FFFFFFFFFFFFFFFF#96, false⟩,
    ⟨"COMP_DISABLE_NS", 0x330000000000000000000000#96, 0xFFFFFF00FFFFFFFFFFFFFFFF#96, false⟩,
    ⟨"COMP_SCHEDULE_NEXT", 0x340000000000000000000000#96, 0xFFFFFFFFFFFFFFFFFFFFFFFF#96, false⟩,
    ⟨"COMP_IS_ENABLED", 0x350000000000000000000000#96, 0xFFFFFF00FFFFFFFFFFFFFFFF#96, true⟩,
    ⟨"GET_SCHED", 0x360000000000000000000000#96, 0xFFFFFFFFFFFFFFFFFFFFFFFF#96, true⟩,
    ⟨"FC_APPLY", 0x400000000000000000000000#96, 0xFFFE0000FFFF0000FFFFFFFF#96, false⟩,
    ⟨"FC_SET_PROFILE", 0x410000000000000000000000#96, 0xFFFFFF00FFFFFFFFFFFFFFFF#96, false⟩,
    ⟨"FC_CFG_WR", 0x420000000000000000000000#96, 0xFFFFFFF800000000FFFFFFFF#96, false⟩,
    ⟨"FC_CFG_RD", 0x430000000000000000000000#96, 0xFFFFFFF8FFFFFFFFFFFFFFFF#96, true⟩,
    ⟨"FC_DUE", 0x440000000000000000000000#96, 0xFFFFFFFFFFFFFFFFFFFFFFFF#96, true⟩,
    ⟨"GET_TUNE", 0x450000000000000000000000#96, 0xFFFFFFFFFFFFFFFFFFFFFFFF#96, true⟩,
    ⟨"CB_RET", 0x500000000000000000000000#96, 0xFFFFFFFFFFFFFFFFFFFFFFFF#96, false⟩
  ]

end Sys2Proof
end

