-- ==== Sys2Proof/Config.lean ====
section
/-! DEFINITION. The configuration (spec/00_scope.md R10): a parameter of the machine, its fields the ones R10 names; the
constants R9 fixes; and the free values: what the outside of the block does next, which the spec leaves open
(spec/60_exceptions.md R210, R225, R227). -/

namespace Sys2Proof

/-- The eight correction configuration registers (R31); none is validated when written (R32). -/
structure Machine.FcCfg where
  /-- `PROFILE`, signed: the preset selector. -/
  profile : Byte
  /-- `CADENCE`, unsigned, minutes. -/
  cadence : Byte
  /-- `FREQ`, signed, hundredths of ppm. -/
  freq : Half
  /-- `TCENTER`, signed, hundredths of a degree Celsius. -/
  tcenter : Half
  /-- `A2`, signed: the quadratic coefficient times 100 000. -/
  a2 : Half
  /-- `A3`, signed: the cubic coefficient times 10 000 000. -/
  a3 : Half
  /-- `AGING`, signed, hundredths of ppm per year. -/
  aging : Half
  /-- `ANCHOR`, unsigned, seconds since 1970. -/
  anchor : Word
  deriving DecidableEq, Repr, Inhabited

/-- The parameters the spec's source leaves to the implementation (R10); the machine is written for every one of them, and
`Config.taken` has the values the spec takes. The sixth parameter of R10, `svc_choice`, is open "at each such moment" (U5)
and so no constant: the turn of the sequencer carries it (`Turn.service`). -/
structure Config where
  /-- `N_COMP`, the number of compare slots (D11, U2). -/
  nComp : Nat
  /-- `GRACE`, in ticks (D12, U4). -/
  grace : Nat
  /-- `CB_WIDTH`, the bits of a callback token (D5). -/
  cbWidth : Nat
  /-- `EPOCH_DEFAULT`, what a cold reset puts into `T0` (D27, U1). -/
  epochDefault : Word
  /-- `fc_raw(cfg, Tx, mv, W)`, the correction evaluator (spec/43_freqcorr.md R178, D21, U3). -/
  fcRaw : Machine.FcCfg → Int → Half → Word → Int

/-- `GRACE` as a counter difference. -/
def Config.graceWord (k : Config) : Word := BitVec.ofNat 32 k.grace

/-- The configurations a claim should hold for: `N_COMP` as U2 allows it; a grace of at least one tick whose dispatch window
`4·GRACE` is no whole turn of the counter, and tokens that fit the field `A` (both DEDUCED, log 9). -/
structure Config.Allowed (k : Config) : Prop where
  slotsLow : 8 ≤ k.nComp
  slotsHigh : k.nComp ≤ 256
  graceLow : 1 ≤ k.grace
  graceHigh : 4 * k.grace < 2 ^ 32
  tokens : k.cbWidth ≤ 32

/-- One of the two dispatch services of the sequencer (spec/60_exceptions.md R212). -/
inductive Service where
  | periodic
  | compare
  deriving DecidableEq, Repr, Inhabited

/-- Who takes the next step (spec/60_exceptions.md R210, spec/70_reset_and_hazards.md R250). -/
inductive Turn where
  /-- The counter: `TICK`. -/
  | tick
  /-- The host: the next command on the port. -/
  | command
  /-- The sequencer; `first` is the entry it takes when both requests are up (`svc_choice`, R225). -/
  | service (first : Service)
  /-- The cold reset (R250). -/
  | coldReset
  deriving DecidableEq, Repr, Inhabited

/-- The increment of `T0` at a counter wrap, `2^25` seconds (R9, R102). -/
def Config.overflowSeconds : Word := 33554432

/-- The dithering factor `D` = 31 (R9). -/
def Config.ditherD : Int := 31

/-- `SECONDS_PER_YEAR` = 31 536 000 (R9, R174). -/
def Config.secondsPerYear : Int := 31536000

/-- Free value (log 1): whose turn the `n`-th unscripted step is (R210: any enabled step of any agent may be next). -/
opaque Config.freeTurn : Nat → Turn

/-- Free value (log 2): the word the host presents at its `n`-th unscripted command. -/
opaque Config.freeCommand : Nat → CmdWord

end Sys2Proof
end

