-- ==== Sys2Proof/Machine/Evaluator.lean ====
section
/-! DEFINITION. The default correction evaluator `fc_raw` (spec/43_freqcorr.md R173 to R179) and the configuration the spec
takes (spec/00_scope.md R10), which has it. The evaluator is R179's integer form, exact; `totalPpm` and `rawOfPpm` are the
rational formulas of R173 to R178 it is derived from. -/

namespace Sys2Proof.Machine

/-- `age_s = s32(umod32(W − ANCHOR))` (R174). -/
def ageSeconds (cfg : FcCfg) (wall : Word) : Int := (wall - cfg.anchor).toInt

/-- `round_haz(n / m)` for `m > 0` in integers (R179): to nearest, a tie away from zero. -/
def roundHazDiv (n m : Int) : Int := n.sign * ((2 * n.natAbs + m) / (2 * m))

/-- `Nn` of R179, the numerator of `total_ppm`. -/
def ppmNumerator (cfg : FcCfg) (tx : Int) (mv : Half) (wall : Word) : Int :=
  let dtx := tx - cfg.tcenter.toInt
  cfg.freq.toInt * 3153600000000000000
    - cfg.a2.toInt * dtx ^ 2 * 315360000000
    + cfg.a3.toInt * dtx ^ 3 * 31536000
    + ageSeconds cfg wall * cfg.aging.toInt * 100000000000
    + (mv.toNat - 3000) * 241666667 * 315360000

/-- `Dd` of R179. -/
def ppmDenominator : Int := 315360000000000000000 * 95367

/-- `fc_raw(cfg, Tx, mv, W)` (R178) in the integer form of R179: the wanted tuning value in units of 1/31 LSB. -/
def fcRaw (cfg : FcCfg) (tx : Int) (mv : Half) (wall : Word) : Int :=
  roundHazDiv (ppmNumerator cfg tx mv wall * 3100000) ppmDenominator

/-- `dt` in degrees, an exact rational (R173). -/
def dtDegrees (cfg : FcCfg) (tx : Int) : ℚ := ((tx - cfg.tcenter.toInt : Int) : ℚ) / 100

/-- `total_ppm` (R174 to R177), the sum of the five terms, exact. -/
def totalPpm (cfg : FcCfg) (tx : Int) (mv : Half) (wall : Word) : ℚ :=
  (cfg.freq.toInt : ℚ) / 100
    + -((cfg.a2.toInt : ℚ) / 100000) * dtDegrees cfg tx ^ 2
    + (cfg.a3.toInt : ℚ) / 10000000 * dtDegrees cfg tx ^ 3
    + (ageSeconds cfg wall : ℚ) / (Config.secondsPerYear : ℚ) * ((cfg.aging.toInt : ℚ) / 100)
    + ((mv.toNat : ℚ) / 1000 - 3) * (241666667 / 1000000000)

/-- `round_haz(q)` (spec/00_scope.md R12): to nearest, a tie away from zero. -/
def roundHaz (q : ℚ) : Int := if 0 ≤ q then ⌊q + 1 / 2⌋ else -⌊-q + 1 / 2⌋

/-- `raw = round_haz(total_ppm × D / 0.95367)` (R178). -/
def rawOfPpm (ppm : ℚ) : Int := roundHaz (ppm * (Config.ditherD : ℚ) / (95367 / 100000))

end Sys2Proof.Machine

namespace Sys2Proof

/-- The values the spec takes (R10): `N_COMP` 8, `GRACE` 4, `CB_WIDTH` 32, and the exact evaluator of R178.
`EPOCH_DEFAULT` has no value in the spec (R22, D27). DESIGN CHOICE, unsafe (log 7): 0, the value the programs of
spec/95_test_vectors.md assume. The machine behind `exec` and `step` has this configuration (log 9, log 10). -/
abbrev Config.taken : Config where
  nComp := 8
  grace := 4
  cbWidth := 32
  epochDefault := 0
  fcRaw := Machine.fcRaw

end Sys2Proof
end

