-- ==== Sys2Proof/Machine/State.lean ====
section
/-! DEFINITION. The state of RTC-CORE: everything spec/10_state.md R20 lists, each under its rule; the two outputs (R37)
as ghost lists; and the model's own fields, which say what the outside does next. State is plain data.
`Any.State k` is the machine's state in a build with configuration `k` (spec/00_scope.md R10), which is no part of the state
(R38); `State` is that of the configuration the spec takes. -/

namespace Sys2Proof.Machine

/-- An entry of the compare slot table (R27), with a token of `w` bits. -/
structure Slot (w : Nat) where
  /-- An absolute counter value. -/
  deadline : Word
  /-- The callback token. -/
  callback : BitVec w
  enabled : Bool
  deriving DecidableEq, Repr, Inhabited

/-- `SEQ.mode` (R36): which dispatch pass is open. -/
inductive SeqMode where
  | idle | per | cmp
  deriving DecidableEq, Repr, Inhabited

/-- The dispatch sequencer `SEQ` (R36). -/
structure Seq where
  mode : SeqMode
  /-- The next table index the open pass looks at. -/
  cursor : Nat
  /-- The periodic slots the open periodic pass has still to invoke. -/
  psnap : Byte
  /-- The counter latched at the entry of the compare pass. -/
  clatch : Word
  /-- A callback window is open. -/
  inCb : Bool
  deriving DecidableEq, Repr, Inhabited

/-- The output events (spec/60_exceptions.md R211), with tokens of `w` bits. -/
inductive Event (w : Nat) where
  /-- `OVF`: the counter wrapped and `T0` advanced. -/
  | ovf
  /-- `PER_CB(n, token)`. -/
  | perCb (n : Nat) (token : BitVec w)
  /-- `CMP_CB(i, token)`. -/
  | cmpCb (i : Nat) (token : BitVec w)
  /-- `TUNE_WR(v)`. -/
  | tuneWr (v : Byte)
  deriving DecidableEq, Repr, Inhabited

/-- The ways the machine stops with a fault: none. "RTC-CORE raises no synchronous exception, has no cause codes and
records no fault information" (spec/60_exceptions.md R230); spec/93_implementation_defined.md lists no behaviour with
the treatment `fault`. -/
inductive Fault where
  deriving DecidableEq, Repr

/-- The ways the model declines. -/
inductive Refusal where
  /-- Raised by `exec` alone, for an instruction without a meaning; no arm raises it now. Safe. -/
  | notModelled (mnemonic : String)
  deriving DecidableEq, Repr

namespace Any

/-- The machine (R20) in configuration `k`. -/
structure State (k : Config) where
  /-- `C`, the counter (R21). -/
  c : Word
  /-- `T0`, the reference epoch, backup register 7 (R22). -/
  t0 : Word
  /-- `COMP`, the hardware compare register (R23). -/
  comp : Word
  /-- `S`, the scheduled compare (R24). -/
  sched : Word
  /-- `CMP_IE`, the compare interrupt enable (R25). -/
  cmpIe : Bool
  /-- `CMP_FLAG`, the pending compare match (R26). -/
  cmpFlag : Bool
  /-- The compare slot table (R27). -/
  slots : Vector (Slot k.cbWidth) k.nComp
  /-- `PER_EN`, the periodic enables (R28). -/
  perEn : Byte
  /-- `PER_FLAG`, the periodic flags (R29). -/
  perFlag : Byte
  /-- `P[0..7]`, the periodic callback table (R30). -/
  perCb : Vector (BitVec k.cbWidth) 8
  /-- The correction configuration registers (R31). -/
  cfg : FcCfg
  /-- `R`, the dithering residual, signed (R33). -/
  resid : Half
  /-- `LASTW`, the last-write cache (R34). -/
  lastW : Option Byte
  /-- `TUNE`, the tuning register (R35). -/
  tune : Byte
  /-- `SEQ`, the sequencer (R36). -/
  seq : Seq
  /-- Ghost: the output event trace, oldest first (R37, R211). No rule reads it. -/
  trace : List (Event k.cbWidth)
  /-- Ghost: the responses driven so far, oldest first (R37, R87). No rule reads it. -/
  rsps : List Word
  /-- The model's own: commands the host presents, in order (spec/20_memory.md R70); the head waits to be accepted. -/
  port : List CmdWord
  /-- The model's own: whose turn it is, next first; when it is empty the turn is a free value. -/
  turns : List Turn
  /-- The model's own: how many free values were drawn. -/
  draws : Nat
  deriving DecidableEq, Repr

end Any

/-- The machine in the configuration the spec takes. -/
abbrev State : Type := Any.State Config.taken

/-- The default correction record: preset 3, `CADENCE` 10, `ANCHOR` 0 (R31). -/
def FcCfg.default : FcCfg :=
  { profile := 3, cadence := 10, freq := 0, tcenter := 2500, a2 := 3400, a3 := 1360, aging := 0, anchor := 0 }

/-- After a cold reset (R40, spec/70_reset_and_hazards.md R250).
DESIGN CHOICE, unsafe (log 8): slot deadlines and callbacks, `P`, `SEQ.cursor`, `SEQ.PSNAP` and `SEQ.CLATCH`, which the
spec leaves unspecified, are zero. -/
def Any.State.coldReset (k : Config) : Any.State k where
  c := 0
  t0 := k.epochDefault
  comp := 0
  sched := 0 - k.graceWord - 1
  cmpIe := false
  cmpFlag := false
  slots := Vector.replicate k.nComp { deadline := 0, callback := 0, enabled := false }
  perEn := 0
  perFlag := 0
  perCb := Vector.replicate 8 0
  cfg := FcCfg.default
  resid := 0
  lastW := none
  tune := 0
  seq := { mode := .idle, cursor := 0, psnap := 0, clatch := 0, inCb := false }
  trace := []
  rsps := []
  port := []
  turns := []
  draws := 0

/-- The machine right after reset (R40), with `EPOCH_DEFAULT` as `Config.taken` has it (log 7). -/
def State.reset : State := Any.State.coldReset Config.taken

end Sys2Proof.Machine
end

