-- ==== Sys2Proof/Machine/Ops.lean ====
section
/-! DEFINITION. The named operations the meanings share: outputs, the two tables, opening and closing a dispatch pass
and a callback window (the block's form of taking and leaving a trap, spec/60_exceptions.md), and the ports to the
outside. -/

namespace Sys2Proof.Machine

variable {k : Config}

/-- `emit E`: append an event to the trace (spec/60_exceptions.md R211). -/
def emit (e : Event k.cbWidth) (s : Any.State k) : Any.State k := { s with trace := s.trace ++ [e] }

/-- `rsp <- v`: drive the response of the current command (spec/30_encoding.md R87). -/
def respond (v : Word) (s : Any.State k) : Any.State k := { s with rsps := s.rsps ++ [v] }

/-- A one-bit answer, zero-extended (R87). -/
def bitWord (b : Bool) : Word := if b then 1 else 0

/-- The mask that selects periodic slot `n`. -/
def perBit (n : Fin 8) : Byte := 1#8 <<< n.val

/-- The token kept of a callback operand, the field `A` (spec/30_encoding.md R83): its `w` bits, the whole of it in the
configuration the spec takes. For another `CB_WIDTH` the spec states no conversion: DESIGN CHOICE (log 9), the low bits. -/
def tokenOf (w : Nat) (a : Word) : BitVec w := a.setWidth w

/-- `slot[i].deadline <- deadline; slot[i].callback <- callback; slot[i].enabled <- 1` (spec/42_compare.md R145). -/
def fillSlot (i : Fin k.nComp) (callback : BitVec k.cbWidth) (deadline : Word) (s : Any.State k) : Any.State k :=
  { s with slots := s.slots.set i { deadline := deadline, callback := callback, enabled := true } }

/-- `slot[i].enabled <- 0`; deadline and callback stay (spec/42_compare.md R147). -/
def clearSlot (i : Fin k.nComp) (s : Any.State k) : Any.State k :=
  { s with slots := s.slots.set i { s.slots[i] with enabled := false } }

/-- Act on compare slot `idx`; an index outside the table is ignored (BadSlotIndex, spec/20_memory.md R61). -/
def withSlot (idx : Nat) (f : Fin k.nComp → Any.State k → Any.State k) (s : Any.State k) : Any.State k :=
  if h : idx < k.nComp then f ⟨idx, h⟩ s else s

/-- Open a dispatch pass (spec/60_exceptions.md R218, R221): the block's form of taking a trap. The mode and the cursor
are set and no callback window is open; what the entry saves (`PSNAP` or `CLATCH`) is the entry's own. -/
def openPass (mode : SeqMode) (cursor : Nat) (s : Any.State k) : Any.State k :=
  { s with seq := { s.seq with mode := mode, cursor := cursor, inCb := false } }

/-- The end of a pass, `SEQ.mode <- IDLE` (R219, R223): the return. -/
def closePass (s : Any.State k) : Any.State k := { s with seq := { s.seq with mode := .idle } }

/-- Invoke a callback (R216): emit its event and open the callback window. -/
def invoke (e : Event k.cbWidth) (s : Any.State k) : Any.State k :=
  emit e { s with seq := { s.seq with inCb := true } }

/-- `SEQ.in_cb <- 0`: close the callback window (R217). -/
def closeWindow (s : Any.State k) : Any.State k := { s with seq := { s.seq with inCb := false } }

/-- Whether a host command is accepted now (R215): the foreground runs, or a callback does. -/
def Any.State.accepting (s : Any.State k) : Bool := s.seq.mode == .idle || s.seq.inCb

/-- Whose turn the next step is (R210): as scripted, else a free value (log 1). -/
def Any.State.nextTurn (s : Any.State k) : Turn := s.turns.head?.getD (Config.freeTurn s.draws)

/-- The turn is taken: it leaves the script, or one free value is drawn. -/
def Any.State.passTurn (s : Any.State k) : Any.State k :=
  match s.turns with
  | [] => { s with draws := s.draws + 1 }
  | _ :: rest => { s with turns := rest }

/-- The command word the host presents: the head of the port, else a free value (log 2). -/
def Any.State.presented (s : Any.State k) : CmdWord := s.port.head?.getD (Config.freeCommand s.draws)

/-- The presented word is consumed (spec/20_memory.md R73): it leaves the port, or one free value is drawn. -/
def Any.State.takeCommand (s : Any.State k) : Any.State k :=
  match s.port with
  | [] => { s with draws := s.draws + 1 }
  | _ :: rest => { s with port := rest }

end Sys2Proof.Machine
end

