-- ==== Sys2Proof/Machine/Operands.lean ====
section
/-! DEFINITION. The values the commands compute their effects from: wall time, periodic slot of a frequency, compare
distance, effective temperature and voltage, correction fields. -/

namespace Sys2Proof.Machine

/-- `W(c, t0) = umod32(t0 + (c >> 7) + ((c & 0x7F) >> 6) − 1)` (spec/40_timebase.md R101). -/
def wallTime (c t0 : Word) : Word := t0 + (c >>> 7) + ((c &&& 0x7F) >>> 6) - 1

/-- The current wall time `W` (R101). -/
def Any.State.wall {k : Config} (s : Any.State k) : Word := wallTime s.c s.t0

/-- The epoch that makes the wall time `u` at counter `c` (spec/40_timebase.md R103). -/
def epochFor (u c : Word) : Word := u - (c >>> 7) - ((c &&& 0x7F) >>> 6) + 1

/-- `slot_of(freq) = 7 − log2(freq)`, undefined but for the eight frequencies (spec/41_periodic.md R120). -/
def slotOf (freq : Nat) : Option (Fin 8) :=
  match freq with
  | 1 => some 7
  | 2 => some 6
  | 4 => some 5
  | 8 => some 4
  | 16 => some 3
  | 32 => some 2
  | 64 => some 1
  | 128 => some 0
  | _ => none

/-- Act on the periodic slot of `freq`; a bad frequency is ignored (BadFrequency, spec/60_exceptions.md R231). -/
def withFreq {k : Config} (freq : Nat) (f : Fin 8 → Any.State k → Any.State k) (s : Any.State k) : Any.State k :=
  match slotOf freq with
  | some n => f n s
  | none => s

/-- `dist(d) = umod32(d − C_lax)` with `C_lax = umod32(C_now − GRACE)` (spec/42_compare.md R141). -/
def distance (k : Config) (now d : Word) : Word := d - (now - k.graceWord)

/-- The sentinel `umod32(C_now − GRACE − 1)` (R142 step 3). -/
def sentinel (k : Config) (now : Word) : Word := now - k.graceWord - 1

/-- The value armed for a winning deadline (R142 step 6): `C_now + GRACE` when it is nearer than `2·GRACE`. -/
def armValue (k : Config) (now d : Word) : Word :=
  if (distance k now d).toNat < 2 * k.grace then now + k.graceWord else d

/-- Slot `sl` is due at the latched counter `c` (R153). -/
def Slot.due (k : Config) {w : Nat} (sl : Slot w) (c : Word) : Bool :=
  sl.enabled && decide ((c - sl.deadline).toNat < 4 * k.grace)

/-- The pattern that stands for `MISSING` (spec/43_freqcorr.md R171). -/
def missingTemp : Half := 0x8000

/-- The effective temperature `Tx` in hundredths of a degree (R171). -/
def effectiveTemp (cfg : FcCfg) (temp : Half) : Int :=
  if temp = missingTemp then cfg.tcenter.toInt else temp.toInt

/-- The register numbered `field`, extended to 32 bits as its type says (spec/43_freqcorr.md R189). -/
def FcCfg.read (cfg : FcCfg) : CfgField → Word
  | .profile => cfg.profile.signExtend 32
  | .cadence => cfg.cadence.zeroExtend 32
  | .freq => cfg.freq.signExtend 32
  | .tcenter => cfg.tcenter.signExtend 32
  | .a2 => cfg.a2.signExtend 32
  | .a3 => cfg.a3.signExtend 32
  | .aging => cfg.aging.signExtend 32
  | .anchor => cfg.anchor

/-- The register numbered `field` takes the low bits of `value` (R188). -/
def FcCfg.write (cfg : FcCfg) (field : CfgField) (value : Word) : FcCfg :=
  match field with
  | .profile => { cfg with profile := value.setWidth 8 }
  | .cadence => { cfg with cadence := value.setWidth 8 }
  | .freq => { cfg with freq := value.setWidth 16 }
  | .tcenter => { cfg with tcenter := value.setWidth 16 }
  | .a2 => { cfg with a2 := value.setWidth 16 }
  | .a3 => { cfg with a3 := value.setWidth 16 }
  | .aging => { cfg with aging := value.setWidth 16 }
  | .anchor => { cfg with anchor := value }

/-- The row of preset `p` (R187): `PROFILE` and the five preset fields; `CADENCE` and `ANCHOR` stay. -/
def FcCfg.preset (cfg : FcCfg) (p : Nat) : Option FcCfg :=
  match p with
  | 0 => some { cfg with profile := 0, freq := 0, tcenter := 2500, a2 := 0, a3 := 0, aging := 0 }
  | 1 => some { cfg with profile := 1, freq := 0, tcenter := 2500, a2 := 0, a3 := 0, aging := 0 }
  | 2 => some { cfg with profile := 2, freq := 0, tcenter := 2500, a2 := 3400, a3 := 0, aging := 0 }
  | 3 => some { cfg with profile := 3, freq := 0, tcenter := 2500, a2 := 3400, a3 := 1360, aging := 0 }
  | 4 => some { cfg with profile := 4, freq := 1768, tcenter := 2653, a2 := 4091, a3 := 1359, aging := 0 }
  | _ => none

/-- The cadences that can advise a run (spec/43_freqcorr.md R190). -/
def legalCadences : List Nat := [1, 5, 10, 20, 60]

/-- `due` of `FC_DUE` (R190). -/
def fcDueNow (cfg : FcCfg) (wall : Word) : Bool :=
  decide (cfg.profile ≠ 0) && decide (cfg.cadence.toNat ∈ legalCadences) &&
    decide (wall.toNat / 60 % cfg.cadence.toNat = 0)

end Sys2Proof.Machine
end

