-- ==== Sys2Proof/Machine/Flags.lean ====
section
/-! DEFINITION. The flags: which dividers produce an event in a tick, whether the tick matches, and the two service
requests. -/

namespace Sys2Proof.Machine

variable {k : Config}

/-- Divider `n` produces an event at the new counter value `c` (spec/41_periodic.md R121). -/
def perEvent (n : Nat) (c : Word) : Bool :=
  n == 0 || c.toNat % 2 ^ n == 2 ^ (n - 1)

/-- The `PER_FLAG` bits a tick to `c` sets (R122). -/
def perEvents (c : Word) : Byte := BitVec.ofFnLE (fun n : Fin 8 => perEvent n.val c)

/-- The compare match of a tick to `c` (spec/42_compare.md R144). -/
def compareMatch (s : Any.State k) (c : Word) : Bool := s.cmpIe && c == s.comp

/-- The pending and enabled periodic slots, `PER_FLAG & PER_EN` (spec/41_periodic.md R127). -/
def Any.State.perPending (s : Any.State k) : Byte := s.perFlag &&& s.perEn

/-- The periodic service request (R127). -/
def Any.State.perRequest (s : Any.State k) : Bool := s.perPending != 0

/-- The compare service request (R144). -/
def Any.State.cmpRequest (s : Any.State k) : Bool := s.cmpFlag

/-- The highest set bit of a snapshot (spec/60_exceptions.md R219: "iterating from slot 7 (1 Hz) down to slot 0"). -/
def highestSlot (m : Byte) : Option (Fin 8) :=
  ([7, 6, 5, 4, 3, 2, 1, 0] : List (Fin 8)).find? (fun n => m.getLsbD n.val)

end Sys2Proof.Machine
end

