-- ==== Sys2Proof/Machine/Counter.lean ====
section
/-! DEFINITION. The counter agent's step, `TICK` (spec/40_timebase.md R100): four parts, all computed from the new
counter value. -/

namespace Sys2Proof.Machine

variable {k : Config}

/-- Part 1: `C <- umod32(C + 1)`. -/
def countUp (s : Any.State k) : Any.State k := { s with c := s.c + 1 }

/-- Part 2, the overflow detector (R102): at 0 `T0` gains `2^25` seconds and `OVF` is emitted. -/
def detectOverflow (s : Any.State k) : Any.State k :=
  if s.c = 0 then emit .ovf { s with t0 := s.t0 + Config.overflowSeconds } else s

/-- Part 3, the divider bank (spec/41_periodic.md R122): flags are set whether or not enabled, and stay set. -/
def raisePeriodic (s : Any.State k) : Any.State k := { s with perFlag := s.perFlag ||| perEvents s.c }

/-- Part 4, the compare match (spec/42_compare.md R144). -/
def matchCompare (s : Any.State k) : Any.State k := { s with cmpFlag := s.cmpFlag || compareMatch s s.c }

/-- `TICK` (R100). -/
def tick (s : Any.State k) : Any.State k := matchCompare (raisePeriodic (detectOverflow (countUp s)))

end Sys2Proof.Machine
end

