-- ==== Sys2Proof/Machine/Compare.lean ====
section
/-! DEFINITION. The compare-match multiplexer: the arbiter `schedule_next` (spec/42_compare.md R142) and its commands
(R145 to R151). -/

namespace Sys2Proof.Machine

variable {k : Config}

/-- `E`, the enabled slots in rising index order (R142 step 2). -/
def enabledSlots {w n : Nat} (slots : Vector (Slot w) n) : List (Fin n) :=
  (List.finRange n).filter (fun i => slots[i].enabled)

/-- Of two slots the one of smaller distance, the first when the distances are equal. -/
def sooner (k : Config) {w n : Nat} (now : Word) (slots : Vector (Slot w) n) (i j : Fin n) : Fin n :=
  if distance k now slots[j].deadline < distance k now slots[i].deadline then j else i

/-- The winner (R142 step 4): the least enabled index of minimal distance. -/
def winner (k : Config) {w n : Nat} (now : Word) (slots : Vector (Slot w) n) : Option (Fin n) :=
  match enabledSlots slots with
  | [] => none
  | i :: rest => some (rest.foldl (sooner k now slots) i)

/-- Step 3: no slot is enabled; `COMP` keeps its value. -/
def disarm (s : Any.State k) : Any.State k := { s with cmpIe := false, cmpFlag := false, sched := sentinel k s.c }

/-- Steps 6 and 7: arm the compare channel for deadline `d`. -/
def arm (d : Word) (s : Any.State k) : Any.State k :=
  { s with comp := armValue k s.c d, sched := armValue k s.c d, cmpIe := true }

/-- Steps 5 to 7 for the winning deadline `d`: the schedule stands, or the channel is armed. -/
def standOrArm (d : Word) (s : Any.State k) : Any.State k := if s.cmpIe = true ∧ d = s.sched then s else arm d s

/-- `schedule_next()`, the arbiter (R142). -/
def scheduleNext (s : Any.State k) : Any.State k :=
  match winner k s.c s.slots with
  | none => disarm s
  | some w => standOrArm s.slots[w].deadline s

/-- `COMP_REGISTER` (R145). -/
def compRegister (idx : Nat) (callback deadline : Word) (s : Any.State k) : Any.State k :=
  withSlot idx (fun i s => scheduleNext (fillSlot i (tokenOf _ callback) deadline s)) s

/-- `COMP_REGISTER` in the machine (see `compRegister`). -/
def execCompRegister (idx : Nat) (callback deadline : Word) (s : State) : Host.Outcome State Fault Refusal :=
  .next (compRegister idx callback deadline s)

/-- `COMP_REGISTER_NS` (R146): as R145 without the recomputation. -/
def compRegisterNs (idx : Nat) (callback deadline : Word) (s : Any.State k) : Any.State k :=
  withSlot idx (fun i s => fillSlot i (tokenOf _ callback) deadline s) s

/-- `COMP_REGISTER_NS` in the machine (see `compRegisterNs`). -/
def execCompRegisterNs (idx : Nat) (callback deadline : Word) (s : State) : Host.Outcome State Fault Refusal :=
  .next (compRegisterNs idx callback deadline s)

/-- `COMP_DISABLE` (R147). -/
def compDisable (idx : Nat) (s : Any.State k) : Any.State k :=
  withSlot idx (fun i s => scheduleNext (clearSlot i s)) s

/-- `COMP_DISABLE` in the machine (see `compDisable`). -/
def execCompDisable (idx : Nat) (s : State) : Host.Outcome State Fault Refusal := .next (compDisable idx s)

/-- `COMP_DISABLE_NS` (R148). -/
def compDisableNs (idx : Nat) (s : Any.State k) : Any.State k := withSlot idx clearSlot s

/-- `COMP_DISABLE_NS` in the machine (see `compDisableNs`). -/
def execCompDisableNs (idx : Nat) (s : State) : Host.Outcome State Fault Refusal := .next (compDisableNs idx s)

/-- `COMP_SCHEDULE_NEXT` (R149). -/
def compScheduleNext (s : Any.State k) : Any.State k := scheduleNext s

/-- `COMP_SCHEDULE_NEXT` in the machine (see `compScheduleNext`). -/
def execCompScheduleNext (s : State) : Host.Outcome State Fault Refusal := .next (compScheduleNext s)

/-- Whether slot `idx` exists and is enabled (R150). -/
def slotEnabled (idx : Nat) (s : Any.State k) : Bool :=
  if h : idx < k.nComp then s.slots[idx].enabled else false

/-- `COMP_IS_ENABLED` (R150). -/
def compIsEnabled (idx : Nat) (s : Any.State k) : Any.State k := respond (bitWord (slotEnabled idx s)) s

/-- `COMP_IS_ENABLED` in the machine (see `compIsEnabled`). -/
def execCompIsEnabled (idx : Nat) (s : State) : Host.Outcome State Fault Refusal := .next (compIsEnabled idx s)

/-- `GET_SCHED` (R151). -/
def getSched (s : Any.State k) : Any.State k := respond s.sched s

/-- `GET_SCHED` in the machine (see `getSched`). -/
def execGetSched (s : State) : Host.Outcome State Fault Refusal := .next (getSched s)

end Sys2Proof.Machine
end

