-- ==== Sys2Proof/Machine/FreqCorr.lean ====
section
/-! DEFINITION. Dithering and the tuning-register writer (spec/43_freqcorr.md), for whatever `fc_raw` the configuration has
(U3), and the commands of the frequency-correction engine (R186 to R191). -/

namespace Sys2Proof.Machine

variable {k : Config}

/-- `lsb` of a dithering sum (R180): `sum / 31` rounded to nearest, by two truncating divisions. -/
def ditherLsb (sum : Int) : Int :=
  let q := (2 * sum).tdiv Config.ditherD
  (q + q.sign).tdiv 2

/-- The clamp of R182. -/
def clampLsb (lsb : Int) : Int := clampInt lsb (-127) 127

/-- `v = {sign, mag[6:0]}` of a clamped value (R183). -/
def tuneCode (c : Int) : Byte := BitVec.ofBool (decide (c < 0)) ++ BitVec.ofNat 7 c.natAbs

/-- The tuning-register writer with write elision (R184). -/
def writeTune (v : Byte) (s : Any.State k) : Any.State k :=
  if s.lastW = some v then s else emit (.tuneWr v) { s with tune := v, lastW := some v }

/-- Dither, clamp and write one evaluated correction (R180 to R184; steps 4 to 7 of R186), for any `raw`. -/
def applyRaw (raw : Int) (s : Any.State k) : Any.State k :=
  let sum := raw + s.resid.toInt
  let lsb := ditherLsb sum
  writeTune (tuneCode (clampLsb lsb)) { s with resid := BitVec.ofInt 16 (sum - lsb * Config.ditherD) }

/-- Step 1 of R186: `FC_APPLY.R` clears the residual first. -/
def resetResidual (rst : Bool) (s : Any.State k) : Any.State k := if rst then { s with resid := 0 } else s

/-- `raw` of the command in state `s` (steps 2 and 3 of R186), by the configuration's evaluator. -/
def rawNow (temp mv : Half) (s : Any.State k) : Int := k.fcRaw s.cfg (effectiveTemp s.cfg temp) mv s.wall

/-- `FC_APPLY` and `FC_APPLY.R` (R186). -/
def fcApply (rst : Bool) (temp mv : Half) (s : Any.State k) : Any.State k :=
  applyRaw (rawNow temp mv s) (resetResidual rst s)

/-- `FC_APPLY` in the machine (see `fcApply`). -/
def execFcApply (rst : Bool) (temp mv : Half) (s : State) : Host.Outcome State Fault Refusal :=
  .next (fcApply rst temp mv s)

/-- `FC_SET_PROFILE` (R187): `p > 4` is ignored. -/
def fcSetProfile (p : Nat) (s : Any.State k) : Any.State k := { s with cfg := (s.cfg.preset p).getD s.cfg }

/-- `FC_SET_PROFILE` in the machine (see `fcSetProfile`). -/
def execFcSetProfile (p : Nat) (s : State) : Host.Outcome State Fault Refusal := .next (fcSetProfile p s)

/-- `FC_CFG_WR` (R188). -/
def fcCfgWr (field : CfgField) (value : Word) (s : Any.State k) : Any.State k :=
  { s with cfg := s.cfg.write field value }

/-- `FC_CFG_WR` in the machine (see `fcCfgWr`). -/
def execFcCfgWr (field : CfgField) (value : Word) (s : State) : Host.Outcome State Fault Refusal :=
  .next (fcCfgWr field value s)

/-- `FC_CFG_RD` (R189). -/
def fcCfgRd (field : CfgField) (s : Any.State k) : Any.State k := respond (s.cfg.read field) s

/-- `FC_CFG_RD` in the machine (see `fcCfgRd`). -/
def execFcCfgRd (field : CfgField) (s : State) : Host.Outcome State Fault Refusal := .next (fcCfgRd field s)

/-- `FC_DUE` (R190). -/
def fcDue (s : Any.State k) : Any.State k := respond (bitWord (fcDueNow s.cfg s.wall)) s

/-- `FC_DUE` in the machine (see `fcDue`). -/
def execFcDue (s : State) : Host.Outcome State Fault Refusal := .next (fcDue s)

/-- `GET_TUNE` (R191). -/
def getTune (s : Any.State k) : Any.State k := respond (s.tune.zeroExtend 32) s

/-- `GET_TUNE` in the machine (see `getTune`). -/
def execGetTune (s : State) : Host.Outcome State Fault Refusal := .next (getTune s)

end Sys2Proof.Machine
end

