-- ==== Sys2Proof/Machine/Periodic.lean ====
section
/-! DEFINITION. The commands of the periodic-tick divider bank (spec/41_periodic.md R123 to R126). -/

namespace Sys2Proof.Machine

variable {k : Config}

/-- Fill periodic slot `n` (R123): an empty slot drops the flag that predates the registration. -/
def fillPeriodic (callback : BitVec k.cbWidth) (n : Fin 8) (s : Any.State k) : Any.State k :=
  { s with
    perFlag := if s.perEn.getLsbD n.val then s.perFlag else s.perFlag &&& ~~~ perBit n
    perCb := s.perCb.set n callback
    perEn := s.perEn ||| perBit n }

/-- Clear the enables that `bits` names; `P` and `PER_FLAG` stay (R124 to R126). -/
def disablePeriodic (bits : Byte) (s : Any.State k) : Any.State k := { s with perEn := s.perEn &&& ~~~ bits }

/-- `PER_REGISTER` (R123). -/
def perRegister (callback : Word) (freq : Nat) (s : Any.State k) : Any.State k :=
  withFreq freq (fillPeriodic (tokenOf _ callback)) s

/-- `PER_REGISTER` in the machine (see `perRegister`). -/
def execPerRegister (callback : Word) (freq : Nat) (s : State) : Host.Outcome State Fault Refusal :=
  .next (perRegister callback freq s)

/-- `PER_DISABLE` (R124). -/
def perDisable (freq : Nat) (s : Any.State k) : Any.State k := withFreq freq (fun n => disablePeriodic (perBit n)) s

/-- `PER_DISABLE` in the machine (see `perDisable`). -/
def execPerDisable (freq : Nat) (s : State) : Host.Outcome State Fault Refusal := .next (perDisable freq s)

/-- `PER_DISABLE_MASK` (R125). -/
def perDisableMask (bits : Byte) (s : Any.State k) : Any.State k := disablePeriodic bits s

/-- `PER_DISABLE_MASK` in the machine (see `perDisableMask`). -/
def execPerDisableMask (bits : Byte) (s : State) : Host.Outcome State Fault Refusal := .next (perDisableMask bits s)

/-- `PER_DISABLE_ALL` (R126). -/
def perDisableAll (s : Any.State k) : Any.State k := { s with perEn := 0 }

/-- `PER_DISABLE_ALL` in the machine (see `perDisableAll`). -/
def execPerDisableAll (s : State) : Host.Outcome State Fault Refusal := .next (perDisableAll s)

end Sys2Proof.Machine
end

