-- ==== Sys2Proof/Machine/Sequencer.lean ====
section
/-! DEFINITION. The dispatch sequencer (spec/60_exceptions.md): the steps of the periodic and the compare pass
(R218 to R223), which of them is enabled, and the command `CB_RET` (R217). -/

namespace Sys2Proof.Machine

variable {k : Config}

/-- Periodic service entry (R218): snapshot the enabled pending slots and clear all eight flags. -/
def periodicEntry (s : Any.State k) : Any.State k :=
  openPass .per 7 { s with perFlag := 0, seq := { s.seq with psnap := s.perPending } }

/-- Invoke periodic slot `n` from the snapshot (R219); the token is read now. -/
def invokePeriodic (n : Fin 8) (s : Any.State k) : Any.State k :=
  invoke (.perCb n.val s.perCb[n])
    { s with seq := { s.seq with psnap := s.seq.psnap &&& ~~~ perBit n, cursor := n.val } }

/-- Periodic scan step (R219): the highest slot of the snapshot, or the end of the pass. -/
def periodicScan (s : Any.State k) : Any.State k :=
  match highestSlot s.seq.psnap with
  | none => closePass s
  | some n => invokePeriodic n s

/-- Compare service entry (R221): the counter is latched once. -/
def compareEntry (s : Any.State k) : Any.State k :=
  openPass .cmp 0 { s with cmpFlag := false, seq := { s.seq with clatch := s.c } }

/-- Advance the cursor past slot `i` (R222). -/
def passSlot (i : Fin k.nComp) (s : Any.State k) : Any.State k := { s with seq := { s.seq with cursor := i.val + 1 } }

/-- Fire compare slot `i` (R222): one-shot, disabled in the step that emits its event. -/
def fireSlot (i : Fin k.nComp) (s : Any.State k) : Any.State k :=
  invoke (.cmpCb i.val s.slots[i].callback) (clearSlot i s)

/-- Compare scan step at slot `i` (R222): it fires when due at the latched counter; the table is read live. -/
def compareScan (i : Fin k.nComp) (s : Any.State k) : Any.State k :=
  if s.slots[i].due k s.seq.clatch then fireSlot i (passSlot i s) else passSlot i s

/-- Compare finish step (R223): re-arm for whatever remains, by the live counter. -/
def compareFinish (s : Any.State k) : Any.State k := closePass (scheduleNext s)

/-- The step of an open compare pass (R222, R223). A cursor beyond `N_COMP`, which no run reaches, enables none (log 20). -/
def compareStep (s : Any.State k) : Any.State k :=
  if h : s.seq.cursor < k.nComp then compareScan ⟨s.seq.cursor, h⟩ s
  else if s.seq.cursor = k.nComp then compareFinish s
  else s

/-- The entry taken when the sequencer is idle (R218, R221); when both requests are up, `first` decides (R225). -/
def serviceEntry (first : Service) (s : Any.State k) : Any.State k :=
  match s.perRequest, s.cmpRequest, first with
  | true, true, .periodic => periodicEntry s
  | true, true, .compare => compareEntry s
  | true, false, _ => periodicEntry s
  | false, true, _ => compareEntry s
  | false, false, _ => s

/-- The sequencer's turn: its enabled step, or nothing when none is enabled (R214, R216; log 4). -/
def serviceStep (first : Service) (s : Any.State k) : Any.State k :=
  match s.seq.mode, s.seq.inCb with
  | .idle, _ => serviceEntry first s
  | .per, false => periodicScan s
  | .cmp, false => compareStep s
  | .per, true => s
  | .cmp, true => s

/-- `CB_RET` (R217): it closes the open callback window; with none open it is ignored. -/
def cbRet (s : Any.State k) : Any.State k := if s.seq.inCb = true then closeWindow s else s

/-- `CB_RET` in the machine (see `cbRet`). -/
def execCbRet (s : State) : Host.Outcome State Fault Refusal := .next (cbRet s)

end Sys2Proof.Machine
end

