-- ==== Sys2Proof/Machine/TimeBase.lean ====
section
/-! DEFINITION. The time-base commands (spec/40_timebase.md R103 to R106). -/

namespace Sys2Proof.Machine

variable {k : Config}

/-- `SET_EPOCH` (R103). -/
def setEpoch (u : Word) (s : Any.State k) : Any.State k := { s with t0 := epochFor u s.c }

/-- `SET_EPOCH` in the machine (see `setEpoch`). -/
def execSetEpoch (u : Word) (s : State) : Host.Outcome State Fault Refusal := .next (setEpoch u s)

/-- `GET_UNIX_TIME` (R104). -/
def getUnixTime (s : Any.State k) : Any.State k := respond s.wall s

/-- `GET_UNIX_TIME` in the machine (see `getUnixTime`). -/
def execGetUnixTime (s : State) : Host.Outcome State Fault Refusal := .next (getUnixTime s)

/-- `GET_COUNTER` (R105). -/
def getCounter (s : Any.State k) : Any.State k := respond s.c s

/-- `GET_COUNTER` in the machine (see `getCounter`). -/
def execGetCounter (s : State) : Host.Outcome State Fault Refusal := .next (getCounter s)

/-- `GET_EPOCH` (R106). -/
def getEpoch (s : Any.State k) : Any.State k := respond s.t0 s

/-- `GET_EPOCH` in the machine (see `getEpoch`). -/
def execGetEpoch (s : State) : Host.Outcome State Fault Refusal := .next (getEpoch s)

end Sys2Proof.Machine
end

