-- ==== Sys2Proof/Machine/Dispatch.lean ====
section
/-! DEFINITION. The meaning of every command of the opcode map (spec/30_encoding.md R84), one arm per constructor. Whether
a command is accepted (spec/60_exceptions.md R215) is decided before, in Machine/Agents.lean. -/

namespace Sys2Proof.Machine

def exec (i : Instr) (s : State) : Host.Outcome State Fault Refusal :=
  match i with
  | .setEpoch u => Sys2Proof.Machine.execSetEpoch u s
  | .getUnixTime => Sys2Proof.Machine.execGetUnixTime s
  | .getCounter => Sys2Proof.Machine.execGetCounter s
  | .getEpoch => Sys2Proof.Machine.execGetEpoch s
  | .perRegister cb freq => Sys2Proof.Machine.execPerRegister cb freq s
  | .perDisable freq => Sys2Proof.Machine.execPerDisable freq s
  | .perDisableMask bits => Sys2Proof.Machine.execPerDisableMask bits s
  | .perDisableAll => Sys2Proof.Machine.execPerDisableAll s
  | .compRegister idx cb d => Sys2Proof.Machine.execCompRegister idx cb d s
  | .compRegisterNs idx cb d => Sys2Proof.Machine.execCompRegisterNs idx cb d s
  | .compDisable idx => Sys2Proof.Machine.execCompDisable idx s
  | .compDisableNs idx => Sys2Proof.Machine.execCompDisableNs idx s
  | .compScheduleNext => Sys2Proof.Machine.execCompScheduleNext s
  | .compIsEnabled idx => Sys2Proof.Machine.execCompIsEnabled idx s
  | .getSched => Sys2Proof.Machine.execGetSched s
  | .fcApply rst temp mv => Sys2Proof.Machine.execFcApply rst temp mv s
  | .fcSetProfile p => Sys2Proof.Machine.execFcSetProfile p s
  | .fcCfgWr field v => Sys2Proof.Machine.execFcCfgWr field v s
  | .fcCfgRd field => Sys2Proof.Machine.execFcCfgRd field s
  | .fcDue => Sys2Proof.Machine.execFcDue s
  | .getTune => Sys2Proof.Machine.execGetTune s
  | .cbRet => Sys2Proof.Machine.execCbRet s

end Sys2Proof.Machine
end

