-- ==== Sys2Proof/Machine/Agents.lean ====
section
/-! DEFINITION. The agents (spec/60_exceptions.md R210): what each does with its turn. Every outcome is a next state or the
outcome of `exec`; an agent without an enabled step lets its turn pass (log 4). -/

namespace Sys2Proof.Machine

/-- Execute one accepted command word: its command, or nothing when the word is reserved (spec/30_encoding.md R85). -/
def runWord (w : CmdWord) (s : State) : Host.Outcome State Fault Refusal :=
  match decode w with
  | .ok i => exec i s
  | .error _ => .next s

/-- The host's turn (R215): the presented command is executed when it is accepted, and waits otherwise. -/
def hostTurn (s : State) : Host.Outcome State Fault Refusal :=
  if s.accepting then runWord s.presented s.takeCommand else .next s

/-- The cold reset step (spec/70_reset_and_hazards.md R250); what the outside does next is not the block's to reset
(log 15). -/
def coldResetStep {k : Config} (s : Any.State k) : Any.State k :=
  { Any.State.coldReset k with port := s.port, turns := s.turns, draws := s.draws }

/-- One turn. -/
def runTurn (t : Turn) (s : State) : Host.Outcome State Fault Refusal :=
  match t with
  | .tick => .next (tick s)
  | .command => hostTurn s
  | .service first => .next (serviceStep first s)
  | .coldReset => .next (coldResetStep s)

/-- A sequencer in which a command is accepted: an open pass without a window is ended, any other one stays (log 13). -/
def Seq.madeAccepting (q : Seq) : Seq := if q.mode == .idle || q.inCb then q else { q with mode := .idle }

end Sys2Proof.Machine
end

