-- ==== Sys2Proof/Machine/Step.lean ====
section
/-! DEFINITION. One step of the machine: the agent whose turn it is takes its step. -/

namespace Sys2Proof.Machine

/-- One atomic step (spec/60_exceptions.md R210, spec/20_memory.md R70). -/
def step (s : State) : Host.Outcome State Fault Refusal := runTurn s.nextTurn s.passTurn

/-- `s` with that command word presented first on the command port and the next turn the host's, in a sequencer that
accepts it (log 13); nothing else changes. -/
def State.withFetchWord (s : State) (nbits w : Nat) : State :=
  { s with
    port := tableWord nbits w :: s.port
    turns := .command :: s.turns
    seq := s.seq.madeAccepting }

end Sys2Proof.Machine
end

