-- ==== Sys2Proof/Machine/Record.lean ====
section
/-! DEFINITION. The 16-byte image of the correction record (spec/20_memory.md R62 to R65), the one byte image of the spec:
little-endian, packed. The host keeps it; the block never reads or writes it. -/

namespace Sys2Proof.Machine

/-- The `k` bytes of a field, least significant first (R64). -/
def bytesLE (k : Nat) {w : Nat} (v : BitVec w) : List Byte := (List.range k).map (fun j => v.extractLsb' (8 * j) 8)

/-- Two bytes as a pattern, the first the least significant (R64). -/
def half (b0 b1 : Byte) : Half := b1 ++ b0

/-- Four bytes as a pattern, the first the least significant (R64). -/
def word (b0 b1 b2 b3 : Byte) : Word := b3 ++ b2 ++ b1 ++ b0

/-- `cfg_to_bytes` (R65): the record of R63, in field order, without padding. -/
def cfgToBytes (cfg : FcCfg) : List Byte :=
  bytesLE 1 cfg.profile ++ bytesLE 1 cfg.cadence ++ bytesLE 2 cfg.freq ++ bytesLE 2 cfg.tcenter ++
    bytesLE 2 cfg.a2 ++ bytesLE 2 cfg.a3 ++ bytesLE 2 cfg.aging ++ bytesLE 4 cfg.anchor

/-- `cfg_of_bytes` (R65): defined for 16 bytes only, no field checked; any other length is "no record". -/
def cfgOfBytes : List Byte → Option FcCfg
  | [p, c, f0, f1, t0, t1, q0, q1, k0, k1, g0, g1, n0, n1, n2, n3] =>
    some { profile := p, cadence := c, freq := half f0 f1, tcenter := half t0 t1, a2 := half q0 q1,
           a3 := half k0 k1, aging := half g0 g1, anchor := word n0 n1 n2 n3 }
  | _ => none

end Sys2Proof.Machine
end

