-- ==== Sys2Proof/Safety.lean ====
section
/-! DEFINITION. The terms claims about RTC-CORE use: the invariants of spec/10_state.md R42, the arbiter as a relation
between states (spec/42_compare.md R142) in exact integers, what a well-behaved host presents
(spec/93_implementation_defined.md U9, U10), which contents no rule reads (U6), and runs of ticks and of a pass whose
callbacks issue no command. -/

namespace Sys2Proof.Machine

variable {k : Config}

/-- `umod32(x)`: the value in [0, 2^32) congruent to the integer `x` (spec/00_scope.md R12). -/
def umod32 (x : Int) : Nat := (x % 2 ^ 32).toNat

/-- `dist(d)` at counter `now`, as a number (R141). -/
def distNat (k : Config) (now d : Word) : Nat := umod32 (d.toNat - (now.toNat - k.grace : Int))

/-- The wall-time formula of spec/40_timebase.md R101 in exact integers. -/
def wallNat (c t0 : Word) : Nat := umod32 (t0.toNat + c.toNat / 128 + c.toNat % 128 / 64 - 1)

/-- Slot `w` is the winner of R142 step 4: the least index among the enabled slots of minimal distance. -/
def Any.State.isWinner (s : Any.State k) (w : Fin k.nComp) : Prop :=
  s.slots[w].enabled = true ∧
    (∀ j : Fin k.nComp, s.slots[j].enabled = true →
      distNat k s.c s.slots[w].deadline ≤ distNat k s.c s.slots[j].deadline) ∧
    (∀ j : Fin k.nComp, j < w → s.slots[j].enabled = true →
      distNat k s.c s.slots[w].deadline < distNat k s.c s.slots[j].deadline)

/-- The schedule stands (R142 step 5): the channel is armed, and for deadline `d`. -/
def Any.State.standsAt (s : Any.State k) (d : Word) : Prop := s.cmpIe = true ∧ d = s.sched

/-- The value step 6 of R142 arms for deadline `d` at counter `now`, as a number. -/
def armNat (k : Config) (now d : Word) : Nat :=
  if distNat k now d < 2 * k.grace then umod32 (now.toNat + k.grace) else d.toNat

/-- `t` is `s` after `schedule_next` (R142): its three outcomes, and nothing else changes. -/
def scheduledFrom (s t : Any.State k) : Prop :=
  t = { s with comp := t.comp, sched := t.sched, cmpIe := t.cmpIe, cmpFlag := t.cmpFlag } ∧
    ((∀ i : Fin k.nComp, s.slots[i].enabled = false) →
      t.cmpIe = false ∧ t.cmpFlag = false ∧ t.comp = s.comp ∧
        t.sched.toNat = umod32 (s.c.toNat - k.grace - 1)) ∧
    (∀ w : Fin k.nComp, s.isWinner w → s.standsAt s.slots[w].deadline → t = s) ∧
    (∀ w : Fin k.nComp, s.isWinner w → ¬ s.standsAt s.slots[w].deadline →
      t.cmpIe = true ∧ t.cmpFlag = s.cmpFlag ∧ t.sched = t.comp ∧
        t.comp.toNat = armNat k s.c s.slots[w].deadline)

/-- Slot `i` of `s` is due at the counter value `c` (R153), in exact integers. -/
def Any.State.dueAt (s : Any.State k) (c : Word) (i : Fin k.nComp) : Bool :=
  s.slots[i].enabled && decide (umod32 (c.toNat - s.slots[i].deadline.toNat) < 4 * k.grace)

/-- The values spec/10_state.md R40 states for a cold reset in configuration `k`. -/
structure ResetValues (s : Any.State k) : Prop where
  c : s.c = 0
  t0 : s.t0 = k.epochDefault
  comp : s.comp = 0
  sched : s.sched.toNat = umod32 (-(k.grace : Int) - 1)
  cmpIe : s.cmpIe = false
  cmpFlag : s.cmpFlag = false
  slots : ∀ i : Fin k.nComp, s.slots[i].enabled = false
  perEn : s.perEn = 0
  perFlag : s.perFlag = 0
  profile : s.cfg.profile.toInt = 3
  cadence : s.cfg.cadence.toNat = 10
  freq : s.cfg.freq.toInt = 0
  tcenter : s.cfg.tcenter.toInt = 2500
  a2 : s.cfg.a2.toInt = 3400
  a3 : s.cfg.a3.toInt = 1360
  aging : s.cfg.aging.toInt = 0
  anchor : s.cfg.anchor.toNat = 0
  resid : s.resid.toInt = 0
  lastW : s.lastW = none
  tune : s.tune = 0
  mode : s.seq.mode = .idle
  inCb : s.seq.inCb = false

/-- The correction fields in record order, numbered 0 to 7 (spec/20_memory.md R63, spec/30_encoding.md R89). -/
def recordOrder : List CfgField := [.profile, .cadence, .freq, .tcenter, .a2, .a3, .aging, .anchor]

/-- What `FC_CFG_RD` answers for a field (spec/43_freqcorr.md R189): the signed registers sign-extended, `CADENCE`
zero-extended, `ANCHOR` whole. -/
def FcCfg.answers (cfg : FcCfg) (field : CfgField) (x : Word) : Prop :=
  match field with
  | .profile => x.toInt = cfg.profile.toInt
  | .cadence => x.toNat = cfg.cadence.toNat
  | .freq => x.toInt = cfg.freq.toInt
  | .tcenter => x.toInt = cfg.tcenter.toInt
  | .a2 => x.toInt = cfg.a2.toInt
  | .a3 => x.toInt = cfg.a3.toInt
  | .aging => x.toInt = cfg.aging.toInt
  | .anchor => x = cfg.anchor

/-- What `FC_CFG_WR field, value` makes of the eight registers (R188): the named one holds the low bits of the value, the
others stay. -/
def FcCfg.written (cfg : FcCfg) (field : CfgField) (value : Word) (cfg' : FcCfg) : Prop :=
  match field with
  | .profile => cfg' = { cfg with profile := cfg'.profile } ∧ cfg'.profile.toNat = value.toNat % 2 ^ 8
  | .cadence => cfg' = { cfg with cadence := cfg'.cadence } ∧ cfg'.cadence.toNat = value.toNat % 2 ^ 8
  | .freq => cfg' = { cfg with freq := cfg'.freq } ∧ cfg'.freq.toNat = value.toNat % 2 ^ 16
  | .tcenter => cfg' = { cfg with tcenter := cfg'.tcenter } ∧ cfg'.tcenter.toNat = value.toNat % 2 ^ 16
  | .a2 => cfg' = { cfg with a2 := cfg'.a2 } ∧ cfg'.a2.toNat = value.toNat % 2 ^ 16
  | .a3 => cfg' = { cfg with a3 := cfg'.a3 } ∧ cfg'.a3.toNat = value.toNat % 2 ^ 16
  | .aging => cfg' = { cfg with aging := cfg'.aging } ∧ cfg'.aging.toNat = value.toNat % 2 ^ 16
  | .anchor => cfg' = { cfg with anchor := cfg'.anchor } ∧ cfg'.anchor = value

/-- A next turn of the host whose presented word is the command `i`. -/
def Any.State.commands (s : Any.State k) (i : Instr) : Prop :=
  s.nextTurn = .command ∧ decode s.passTurn.presented = .ok i

/-- The invariants of R42 that one state can show, (a), (b), (d), (e) and (f). -/
structure Any.State.Inv (s : Any.State k) : Prop where
  /-- (a) `CMP_IE = 1` implies `S = COMP`. -/
  armedMatches : s.cmpIe = true → s.sched = s.comp
  /-- (b) `CMP_FLAG = 1` implies `CMP_IE = 1`. -/
  flagArmed : s.cmpFlag = true → s.cmpIe = true
  /-- (d) `−15 ≤ R`. -/
  residLow : -15 ≤ s.resid.toInt
  /-- (d) `R ≤ 15`. -/
  residHigh : s.resid.toInt ≤ 15
  /-- (e) `SEQ.in_cb = 1` implies `SEQ.mode ≠ IDLE`. -/
  windowInPass : s.seq.inCb = true → s.seq.mode ≠ .idle
  /-- (f) `LASTW = Some v` implies `TUNE = v`. -/
  cacheTrue : ∀ v, s.lastW = some v → s.tune = v

/-- The sequencer's cursor and snapshot stay where spec/60_exceptions.md R218 to R223 put them: a compare pass has a
cursor in 0..N_COMP, a periodic pass one in 0..7 with no snapshot bit above it, and in a window none at it. -/
structure Any.State.SeqInv (s : Any.State k) : Prop where
  comparing : s.seq.mode = .cmp → s.seq.cursor ≤ k.nComp
  windowPassed : s.seq.mode = .cmp → s.seq.inCb = true → 0 < s.seq.cursor
  periodic : s.seq.mode = .per → s.seq.cursor ≤ 7
  noBitAbove : s.seq.mode = .per → ∀ n, s.seq.cursor < n → s.seq.psnap.getLsbD n = false
  noBitAtWindow : s.seq.mode = .per → s.seq.inCb = true → s.seq.psnap.getLsbD s.seq.cursor = false

/-- The tuning register and the cache never hold negative zero (spec/43_freqcorr.md R183). -/
structure Any.State.TuneInv (s : Any.State k) : Prop where
  tune : s.tune ≠ 0x80
  cache : s.lastW ≠ some 0x80

/-- The host presents only commands of the opcode map (U9): a program outside this relies on R85's no-op. -/
def Any.State.presentsCommands (s : Any.State k) : Prop := ∀ w ∈ s.port, ∃ i, decode w = .ok i

/-- `CB_RET` is presented only in a callback window (U10). -/
def Any.State.returnsFromWindow (s : Any.State k) : Prop :=
  decode s.presented = .ok .cbRet → s.seq.inCb = true

/-- `n` consecutive ticks. -/
def tickN : Nat → Any.State k → Any.State k
  | 0, s => s
  | n + 1, s => tickN n (tick s)

/-- How many of the `n` ticks after counter `c` are second boundaries: new values with `C[6:0] = 64` (R107). -/
def boundaries (c : Word) (n : Nat) : Nat :=
  ((List.range n).filter (fun k => (c.toNat + k + 1) % 128 == 64)).length

/-- The state an outcome goes on to, if it does. -/
def nextOr (s : State) : Host.Outcome State Fault Refusal → State
  | .next t => t
  | .fault _ => s
  | .refused _ => s

/-- One turn of the sequencer, its callback, if one is invoked, returning at once (R216). -/
def quietRound (first : Service) (s : Any.State k) : Any.State k :=
  cbRet (serviceStep first s)

/-- `n` such turns. -/
def quietRounds (first : Service) : Nat → Any.State k → Any.State k
  | 0, s => s
  | n + 1, s => quietRounds first n (quietRound first s)

/-- Such turns, each after the ticks a list counts out for it: a pass whose callbacks issue no command, with ticks falling
anywhere between its steps (R220). -/
def quietRoundsAfterTicks (first : Service) : List Nat → Any.State k → Any.State k
  | [], s => s
  | n :: ns, s => quietRoundsAfterTicks first ns (quietRound first (tickN n s))

/-- `COMP_REGISTER` for each entry of a list. -/
def registerAll : List (Nat × Word × Word) → Any.State k → Any.State k
  | [], s => s
  | (idx, cb, d) :: rest, s => registerAll rest (compRegister idx cb d s)

/-- `COMP_REGISTER_NS` for each entry of a list. -/
def registerAllNs : List (Nat × Word × Word) → Any.State k → Any.State k
  | [], s => s
  | (idx, cb, d) :: rest, s => registerAllNs rest (compRegisterNs idx cb d s)

/-- `n` corrections with one constant `raw` (spec/43_freqcorr.md R193). -/
def applyRawN (raw : Int) : Nat → Any.State k → Any.State k
  | 0, s => s
  | n + 1, s => applyRawN raw n (applyRaw raw s)

/-- The unclamped `lsb` values of `n` corrections with one constant `raw`, in order. -/
def lsbsOf (raw : Int) : Nat → Any.State k → List Int
  | 0, _ => []
  | n + 1, s => ditherLsb (raw + s.resid.toInt) :: lsbsOf raw n (applyRaw raw s)

/-- Periodic slot `n` can be invoked before it is registered again: it is enabled, or waits in an open snapshot. -/
def Any.State.perLive (s : Any.State k) (n : Fin 8) : Prop :=
  s.perEn.getLsbD n.val = true ∨ (s.seq.mode = .per ∧ s.seq.psnap.getLsbD n.val = true)

/-- The two sequencers agree on all that is meaningful (spec/10_state.md R36): the mode and the window always, and in a
pass what that pass reads. -/
def seqAgree (p q : Seq) : Prop :=
  p.mode = q.mode ∧ p.inCb = q.inCb ∧
    (p.mode = .per → p.psnap = q.psnap) ∧
    (p.mode = .cmp → p.cursor = q.cursor ∧ p.clatch = q.clatch)

/-- The two states agree on all but contents that no rule reads before writing them (U6): deadline and callback of a
disabled slot, tokens of periodic slots that are not live, and sequencer fields without meaning in the mode. -/
structure AgreeOnRead (s t : Any.State k) : Prop where
  rest : t = { s with slots := t.slots, perCb := t.perCb, seq := t.seq }
  enabled : ∀ i : Fin k.nComp, s.slots[i].enabled = t.slots[i].enabled
  slot : ∀ i : Fin k.nComp, s.slots[i].enabled = true → s.slots[i] = t.slots[i]
  token : ∀ n : Fin 8, s.perLive n → s.perCb[n] = t.perCb[n]
  sequencer : seqAgree s.seq t.seq

/-- The fields of `State` outside the columns that spec/10_state.md R39 marks written for the command are equal.
Responses are outputs, not state, and are compared elsewhere. -/
def commandKeeps (i : Instr) (s t : Any.State k) : Prop :=
  match i with
  | .setEpoch _ => t = { s with t0 := t.t0 }
  | .perRegister _ _ => t = { s with perEn := t.perEn, perFlag := t.perFlag, perCb := t.perCb }
  | .perDisable _ => t = { s with perEn := t.perEn }
  | .perDisableMask _ => t = { s with perEn := t.perEn }
  | .perDisableAll => t = { s with perEn := t.perEn }
  | .compRegister _ _ _ =>
    t = { s with comp := t.comp, sched := t.sched, cmpIe := t.cmpIe, cmpFlag := t.cmpFlag, slots := t.slots }
  | .compDisable _ =>
    t = { s with comp := t.comp, sched := t.sched, cmpIe := t.cmpIe, cmpFlag := t.cmpFlag, slots := t.slots }
  | .compRegisterNs _ _ _ => t = { s with slots := t.slots }
  | .compDisableNs _ => t = { s with slots := t.slots }
  | .compScheduleNext => t = { s with comp := t.comp, sched := t.sched, cmpIe := t.cmpIe, cmpFlag := t.cmpFlag }
  | .fcApply _ _ _ => t = { s with resid := t.resid, lastW := t.lastW, tune := t.tune, trace := t.trace }
  | .fcSetProfile _ => t = { s with cfg := t.cfg }
  | .fcCfgWr _ _ => t = { s with cfg := t.cfg }
  | .cbRet => t = { s with seq := t.seq }
  | .getUnixTime => t = { s with rsps := t.rsps }
  | .getCounter => t = { s with rsps := t.rsps }
  | .getEpoch => t = { s with rsps := t.rsps }
  | .compIsEnabled _ => t = { s with rsps := t.rsps }
  | .getSched => t = { s with rsps := t.rsps }
  | .fcCfgRd _ => t = { s with rsps := t.rsps }
  | .fcDue => t = { s with rsps := t.rsps }
  | .getTune => t = { s with rsps := t.rsps }

end Sys2Proof.Machine
end

