-- ==== Sys2Proof/Certificates/Slice0/Obligations.lean ====
section
/-! DEFINITION. The statements about RTC-CORE, for the provers. Each docstring names the rule of spec/ it formalises.
Arithmetic is stated in exact integers (`umod32`, spec/00_scope.md R12) where the meaning computes in bit vectors. A
statement about `exec` or `step` is about the configuration the spec takes, `Config.taken` (R10); one about the
operations behind them is for every configuration `k`. -/

open Sys2Proof Sys2Proof.Machine

/-! ## Encoding -/

/-- R80 to R84: decoding an encoded well-formed command gives it back, for every command and every operand value the
encoding admits. -/
def Obligations.DecodeEncodeRoundTrip : Prop :=
  ∀ i : Instr, i.wellFormed = true → decode (encode i) = .ok i

/-- R83, R85: a word that decodes is the encoding of its command, which is well formed; so each command has one word. -/
def Obligations.EncodeDecodeRoundTrip : Prop :=
  ∀ (w : CmdWord) (i : Instr), decode w = .ok i → i.wellFormed = true ∧ encode i = w

/-- R84, R88: a word that selects a row of the opcode map decodes to that row's command, and a word that selects none is
rejected. -/
def Obligations.DecodeFollowsOpcodeMap : Prop :=
  ∀ w : CmdWord,
    (∀ r ∈ opcodeTable, r.selectedBy w = true →
      ∃ i, decode w = .ok i ∧ i.mnemonic = r.mnemonic ∧ i.responds = r.rsp) ∧
    ((∀ r ∈ opcodeTable, r.selectedBy w = false) → ∃ e, decode w = .error e)

/-- Words of V90, written out from R81 and R84, decode to the commands they stand for. -/
def Obligations.SampleWordsDecode : Prop :=
  decode 0x100000006553F10000000000#96 = .ok (.setEpoch 1700000000) ∧
    decode 0x20000080000000B000000000#96 = .ok (.perRegister 0xB0 128) ∧
    decode 0x30000007DEADBEEFFFFFFFFF#96 = .ok (.compRegister 7 0xDEADBEEF 0xFFFFFFFF) ∧
    decode 0x4001800000000BB800000000#96 = .ok (.fcApply true 0x8000 3000) ∧
    decode 0x42000002FFFFFF9C00000000#96 = .ok (.fcCfgWr .freq 0xFFFFFF9C) ∧
    decode 0x500000000000000000000000#96 = .ok .cbRet

/-! ## The step and the agents -/

/-- R70, R215: when it is the host's turn, a command is accepted, and the presented word decodes to `i`, the step is `exec`
of `i` on the state with the turn and the word taken, whose every other field is as before. -/
def Obligations.StepRunsDecodedCommand : Prop :=
  (∀ s i, s.commands i → s.accepting = true →
    ∃ u : State, u = { s with port := u.port, turns := u.turns, draws := u.draws } ∧ step s = exec i u) ∧
  (∀ (s : State) ts w ws i, s.turns = .command :: ts → s.port = w :: ws → s.accepting = true → decode w = .ok i →
    step s = exec i { s with turns := ts, port := ws })

/-- R85: an accepted word that matches no row of the opcode map is ignored; the next command is next on the port. -/
def Obligations.ReservedWordIsIgnored : Prop :=
  ∀ (s : State) ts w ws, s.turns = .command :: ts → s.port = w :: ws → s.accepting = true →
    (∀ r ∈ opcodeTable, r.selectedBy w = false) →
    step s = .next { s with turns := ts, port := ws }

/-- R215: with the foreground running or a callback window open every command of the map is executed; between the scan
steps of a pass it waits on the port; `CB_RET` does something only in a window. -/
def Obligations.CommandsWaitBetweenScans : Prop :=
  (∀ (s : State) ts w ws i, s.turns = .command :: ts → s.port = w :: ws → decode w = .ok i →
    (s.seq.mode = .idle ∨ s.seq.inCb = true → step s = exec i { s with turns := ts, port := ws }) ∧
    (s.seq.mode ≠ .idle → s.seq.inCb = false → step s = .next { s with turns := ts })) ∧
  (∀ s : State, s.seq.inCb = false → exec .cbRet s = .next s)

/-- R230: no step of any agent, with any word on the port, stops: there is no fault and no refusal. -/
def Obligations.EveryStepAnswersNext : Prop := ∀ s : State, ∃ t, step s = .next t

/-- R214, R216, R217, R262: while a callback window is open the sequencer does not move, and only `CB_RET` closes the
window. And an idle sequencer without a request takes no step, since R218 and R221 enable an entry only on a request; that
its turn then passes and changes nothing is the model's reading (log 4). -/
def Obligations.WindowClosesOnlyByReturn : Prop :=
  (∀ s t : State, s.seq.inCb = true → s.seq.mode ≠ .idle → s.nextTurn ≠ .coldReset → step s = .next t →
    (s.commands .cbRet ∧ t.seq = { s.seq with inCb := false }) ∨ (¬ s.commands .cbRet ∧ t.seq = s.seq)) ∧
  (∀ (s : State) ts first, s.turns = .service first :: ts →
    (s.seq.inCb = true ∧ s.seq.mode ≠ .idle) ∨
      (s.seq.mode = .idle ∧ s.perFlag &&& s.perEn = 0 ∧ s.cmpFlag = false) →
    step s = .next { s with turns := ts })

/-! ## Reset and invariants -/

/-- R40: the values the spec states for a cold reset, in every configuration. -/
def Obligations.ColdResetStateValues : Prop := ∀ k : Config, ResetValues (Any.State.coldReset k)

/-- R250: the cold reset is a step of any state; it gives those values and an empty trace, and no sequencer step is enabled
after it. `EPOCH_DEFAULT` is the number of `Config.taken` (log 7, the model's choice), and what stays is the outside's
(log 15). -/
def Obligations.ColdResetStepResets : Prop :=
  ∀ (s : State) ts, s.turns = .coldReset :: ts →
    ∃ t, step s = .next t ∧ ResetValues t ∧ t.trace = [] ∧ t.turns = ts ∧
      ∀ first, serviceStep first t = t

/-- R42: the state after reset, in every configuration, satisfies the invariants. -/
def Obligations.ResetSatisfiesInvariants : Prop :=
  ∀ k : Config, (Any.State.coldReset k).Inv ∧ (Any.State.coldReset k).SeqInv ∧ (Any.State.coldReset k).TuneInv

/-- R42 (a), (b), (d), (e), (f), which the spec infers from its rules: every step of every agent keeps them. -/
def Obligations.StepKeepsRegisterInvariants : Prop :=
  ∀ s t : State, s.Inv → step s = .next t → t.Inv

/-- R218 to R223: cursor and snapshot stay in the range of the open pass, whatever the host does. -/
def Obligations.StepKeepsSequencerInvariants : Prop :=
  ∀ s t : State, s.SeqInv → step s = .next t → t.SeqInv

/-- R183: negative zero never reaches the tuning register. -/
def Obligations.StepKeepsTuneOffNegativeZero : Prop :=
  ∀ s t : State, s.TuneInv → step s = .next t → t.TuneInv

/-- R42 (c): `schedule_next` leaves the channel armed exactly when it finds a slot enabled, and no step arms it
otherwise. -/
def Obligations.ArmedOnlyWithSlotEnabled : Prop :=
  (∀ (k : Config) (s : Any.State k), (scheduleNext s).cmpIe = true ↔ ∃ i : Fin k.nComp, s.slots[i].enabled = true) ∧
  (∀ s t : State, step s = .next t → s.cmpIe = false → t.cmpIe = true →
    ∃ i : Fin Config.taken.nComp, t.slots[i].enabled = true)

/-! ## Counter and time base -/

/-- R103: `SET_EPOCH` (op 0x10, `A` = `unix_time`) writes the epoch that makes the wall time `u`, and nothing else. -/
def Obligations.SetEpochResult : Prop :=
  ∀ (u : Word) (s : State), encode (.setEpoch u) = pack 0x10 0 0 u 0 ∧
    ∃ t, exec (.setEpoch u) s = .next t ∧ t = { s with t0 := t.t0 } ∧
    t.t0.toNat = umod32 (u.toNat - s.c.toNat / 128 - s.c.toNat % 128 / 64 + 1) ∧
    wallNat t.c t.t0 = u.toNat

/-- R104: `GET_UNIX_TIME` (op 0x11) answers the wall time of R101 and writes nothing. -/
def Obligations.GetUnixTimeResult : Prop :=
  encode .getUnixTime = pack 0x11 0 0 0 0 ∧
  ∀ s : State, ∃ v : Word, exec .getUnixTime s = .next { s with rsps := s.rsps ++ [v] } ∧
    v.toNat = wallNat s.c s.t0

/-- R105, R106, R151, R191: the four register reads (ops 0x12, 0x13, 0x36, 0x45) answer the register (`TUNE`
zero-extended) and write nothing. -/
def Obligations.RegisterReadResults : Prop :=
  (encode .getCounter = pack 0x12 0 0 0 0 ∧ encode .getEpoch = pack 0x13 0 0 0 0 ∧
    encode .getSched = pack 0x36 0 0 0 0 ∧ encode .getTune = pack 0x45 0 0 0 0) ∧
  ∀ s : State,
    exec .getCounter s = .next { s with rsps := s.rsps ++ [s.c] } ∧
    exec .getEpoch s = .next { s with rsps := s.rsps ++ [s.t0] } ∧
    exec .getSched s = .next { s with rsps := s.rsps ++ [s.sched] } ∧
    ∃ v : Word, exec .getTune s = .next { s with rsps := s.rsps ++ [v] } ∧ v.toNat = s.tune.toNat

/-- R107: after `SET_EPOCH u` and `n` ticks `GET_UNIX_TIME` answers `u` plus the number of second boundaries among them;
with no tick it answers `u`. And the second form of the wall time that R101 derives: the seconds counted half a second
late. Both are inferences the spec marks as its own. -/
def Obligations.UnixTimeAfterTicks : Prop :=
  (∀ c t0 : Word, wallNat c t0 = umod32 (t0.toNat - 1 + (c.toNat + 64) / 128)) ∧
  ∀ (u : Word) (s : State) (n : Nat), ∃ t v,
    exec (.setEpoch u) s = .next t ∧
    exec .getUnixTime (tickN n t) = .next { tickN n t with rsps := s.rsps ++ [v] } ∧
    v.toNat = umod32 (u.toNat + boundaries s.c n)

/-- R108: a tick moves the wall time by one exactly at a second boundary, which is the tick of the 1 Hz flag; no other
step but `SET_EPOCH` (and a cold reset) moves it. The spec infers this from R101, R102 and R121. -/
def Obligations.WallTimeMovesOnlyAtBoundaries : Prop :=
  ∀ s t : State, step s = .next t →
    (s.nextTurn = .tick →
      (t.c.toNat % 128 = 64 → t.wall = s.wall + 1 ∧ t.perFlag.getLsbD 7 = true) ∧
      (t.c.toNat % 128 ≠ 64 → t.wall = s.wall ∧ t.perFlag.getLsbD 7 = s.perFlag.getLsbD 7)) ∧
    (s.nextTurn ≠ .tick → s.nextTurn ≠ .coldReset →
      t.wall = s.wall ∨ ∃ u, s.commands (.setEpoch u) ∧ t.wall = u)

/-- R100, R102, R122, R144: one tick counts, advances the epoch at a wrap, sets the flags of the dividers with an event
and the match flag, and changes nothing else. -/
def Obligations.TickResult : Prop :=
  ∀ (s : State) ts, s.turns = .tick :: ts → ∃ t, step s = .next t ∧
    t = { s with turns := ts, c := t.c, t0 := t.t0, perFlag := t.perFlag, cmpFlag := t.cmpFlag, trace := t.trace } ∧
    t.c.toNat = umod32 (s.c.toNat + 1) ∧
    (t.c = 0 → t.t0.toNat = umod32 (s.t0.toNat + 33554432) ∧ t.trace = s.trace ++ [.ovf]) ∧
    (t.c ≠ 0 → t.t0 = s.t0 ∧ t.trace = s.trace) ∧
    (∀ n < 8, t.perFlag.getLsbD n = true ↔
      s.perFlag.getLsbD n = true ∨ n = 0 ∨ (1 ≤ n ∧ t.c.toNat % 2 ^ n = 2 ^ (n - 1))) ∧
    (t.cmpFlag = true ↔ s.cmpFlag = true ∨ (s.cmpIe = true ∧ t.c = s.comp))

/-- R121: divider 0 has an event in every tick; divider `n` at `c mod 2^n = 2^(n-1)`, which is the rising edge of counter
bit `n-1`, once in every `2^n` ticks; no two of the dividers 1 to 7 in one tick. -/
def Obligations.DividerEventsOncePerPeriod : Prop :=
  (∀ c : Word, perEvent 0 c = true) ∧
  (∀ n, 1 ≤ n → n < 8 → ∀ c : Word,
    (perEvent n c = true ↔ c.toNat % 2 ^ n = 2 ^ (n - 1)) ∧
    (perEvent n (c + 1) = true ↔ c.getLsbD (n - 1) = false ∧ (c + 1).getLsbD (n - 1) = true) ∧
    (∃ k < 2 ^ n, perEvent n (c + BitVec.ofNat 32 k) = true ∧
      ∀ j < 2 ^ n, perEvent n (c + BitVec.ofNat 32 j) = true → j = k) ∧
    (∀ m, 1 ≤ m → m < 8 → perEvent m c = true → perEvent n c = true → m = n))

/-! ## Periodic slots -/

/-- R123: `PER_REGISTER` (op 0x20, `imm` = `freq`, `A` = `callback`) fills the slot of its frequency, dropping the flag of
an empty one; a bad frequency is ignored. -/
def Obligations.PerRegisterResult : Prop :=
  ∀ (cb : Word) (freq : Nat) (s : State),
    encode (.perRegister cb freq) = pack 0x20 0 (BitVec.ofNat 16 freq) cb 0 ∧
    (∀ n : Fin 8, freq = 2 ^ (7 - n.val) →
      ∃ t, exec (.perRegister cb freq) s = .next t ∧
        t = { s with perEn := t.perEn, perFlag := t.perFlag, perCb := t.perCb } ∧
        (∀ m : Fin 8, t.perEn.getLsbD m.val = (s.perEn.getLsbD m.val || m == n)) ∧
        (∀ m : Fin 8, t.perFlag.getLsbD m.val =
          (s.perFlag.getLsbD m.val && !(m == n && !s.perEn.getLsbD n.val))) ∧
        (∀ m : Fin 8, t.perCb[m] = if m = n then cb else s.perCb[m])) ∧
    ((∀ n : Fin 8, freq ≠ 2 ^ (7 - n.val)) → exec (.perRegister cb freq) s = .next s)

/-- R124, R125, R126: the disables (ops 0x21, 0x22, 0x23) clear the enables they name, bit `n` being slot `n`, and nothing
else. -/
def Obligations.PeriodicDisableResults : Prop :=
  (∀ (freq : Nat) (s : State),
    encode (.perDisable freq) = pack 0x21 0 (BitVec.ofNat 16 freq) 0 0 ∧
    (∀ n : Fin 8, freq = 2 ^ (7 - n.val) →
      ∃ t, exec (.perDisable freq) s = .next t ∧ t = { s with perEn := t.perEn } ∧
        ∀ m : Fin 8, t.perEn.getLsbD m.val = (s.perEn.getLsbD m.val && !(m == n))) ∧
    ((∀ n : Fin 8, freq ≠ 2 ^ (7 - n.val)) → exec (.perDisable freq) s = .next s)) ∧
  (∀ (bits : Byte) (s : State),
    encode (.perDisableMask bits) = pack 0x22 0 (BitVec.ofNat 16 bits.toNat) 0 0 ∧
    ∃ t, exec (.perDisableMask bits) s = .next t ∧ t = { s with perEn := t.perEn } ∧
    ∀ m : Fin 8, t.perEn.getLsbD m.val = (s.perEn.getLsbD m.val && !bits.getLsbD m.val)) ∧
  encode .perDisableAll = pack 0x23 0 0 0 0 ∧ (∀ s : State, exec .perDisableAll s = .next { s with perEn := 0 })

/-! ## The compare multiplexer -/

/-- R142, R149: `COMP_SCHEDULE_NEXT` (op 0x34) is the arbiter; and what the arbiter does in every configuration, where some
slot is the winner when some slot is enabled. -/
def Obligations.ScheduleNextResult : Prop :=
  encode .compScheduleNext = pack 0x34 0 0 0 0 ∧
  (∀ s : State, ∃ t, exec .compScheduleNext s = .next t ∧ scheduledFrom s t) ∧
  ∀ (k : Config) (s : Any.State k), scheduledFrom s (scheduleNext s) ∧
    ((∃ i : Fin k.nComp, s.slots[i].enabled = true) → ∃ w, s.isWinner w)

/-- R145: `COMP_REGISTER` (op 0x30) fills its slot and runs the arbiter in the same step; a bad index is ignored. -/
def Obligations.CompRegisterResult : Prop :=
  ∀ (idx : Nat) (cb : Word) (d : Word) (s : State),
    (idx < 256 → encode (.compRegister idx cb d) = pack 0x30 0 (BitVec.ofNat 16 idx) cb d) ∧
    (∀ i : Fin Config.taken.nComp, i.val = idx →
      ∃ u t : State, u = { s with slots := u.slots } ∧ u.slots[i] = ⟨d, cb, true⟩ ∧
        (∀ j : Fin Config.taken.nComp, j ≠ i → u.slots[j] = s.slots[j]) ∧
        exec (.compRegister idx cb d) s = .next t ∧ scheduledFrom u t) ∧
    (Config.taken.nComp ≤ idx → exec (.compRegister idx cb d) s = .next s)

/-- R146: the `_NS` form (op 0x31) fills its slot and leaves the compare channel alone. -/
def Obligations.CompRegisterNsResult : Prop :=
  ∀ (idx : Nat) (cb : Word) (d : Word) (s : State),
    (idx < 256 → encode (.compRegisterNs idx cb d) = pack 0x31 0 (BitVec.ofNat 16 idx) cb d) ∧
    (∀ i : Fin Config.taken.nComp, i.val = idx →
      ∃ t : State, exec (.compRegisterNs idx cb d) s = .next t ∧ t = { s with slots := t.slots } ∧
        t.slots[i] = ⟨d, cb, true⟩ ∧ ∀ j : Fin Config.taken.nComp, j ≠ i → t.slots[j] = s.slots[j]) ∧
    (Config.taken.nComp ≤ idx → exec (.compRegisterNs idx cb d) s = .next s)

/-- R147: `COMP_DISABLE` (op 0x32) clears its slot's enable, keeps deadline and callback, and runs the arbiter. -/
def Obligations.CompDisableResult : Prop :=
  ∀ (idx : Nat) (s : State),
    (idx < 256 → encode (.compDisable idx) = pack 0x32 0 (BitVec.ofNat 16 idx) 0 0) ∧
    (∀ i : Fin Config.taken.nComp, i.val = idx →
      ∃ u t : State, u = { s with slots := u.slots } ∧
        u.slots[i] = ⟨s.slots[i].deadline, s.slots[i].callback, false⟩ ∧
        (∀ j : Fin Config.taken.nComp, j ≠ i → u.slots[j] = s.slots[j]) ∧
        exec (.compDisable idx) s = .next t ∧ scheduledFrom u t) ∧
    (Config.taken.nComp ≤ idx → exec (.compDisable idx) s = .next s)

/-- R148: the `_NS` form (op 0x33) clears its slot's enable and leaves the compare channel alone. -/
def Obligations.CompDisableNsResult : Prop :=
  ∀ (idx : Nat) (s : State),
    (idx < 256 → encode (.compDisableNs idx) = pack 0x33 0 (BitVec.ofNat 16 idx) 0 0) ∧
    (∀ i : Fin Config.taken.nComp, i.val = idx →
      ∃ t : State, exec (.compDisableNs idx) s = .next t ∧ t = { s with slots := t.slots } ∧
        t.slots[i] = ⟨s.slots[i].deadline, s.slots[i].callback, false⟩ ∧
        ∀ j : Fin Config.taken.nComp, j ≠ i → t.slots[j] = s.slots[j]) ∧
    (Config.taken.nComp ≤ idx → exec (.compDisableNs idx) s = .next s)

/-- R150: `COMP_IS_ENABLED` (op 0x35) answers the enable bit, 0 for a bad index, and writes nothing. -/
def Obligations.CompIsEnabledResult : Prop :=
  ∀ (idx : Nat) (s : State),
    (idx < 256 → encode (.compIsEnabled idx) = pack 0x35 0 (BitVec.ofNat 16 idx) 0 0) ∧
    ∃ v : Word, exec (.compIsEnabled idx) s = .next { s with rsps := s.rsps ++ [v] } ∧
    (∀ i : Fin Config.taken.nComp, i.val = idx → v.toNat = s.slots[i].enabled.toNat) ∧
    (Config.taken.nComp ≤ idx → v.toNat = 0)

/-- R154 (a), R142, for every allowed configuration: after the arbiter no enabled deadline lies sooner than the armed
value, but for the bump; and a newly armed value is at least `GRACE` ticks ahead. -/
def Obligations.ArmedNoLaterThanDeadlines : Prop :=
  ∀ k : Config, k.Allowed → ∀ (s : Any.State k) (i : Fin k.nComp), s.slots[i].enabled = true →
    distNat k s.c (scheduleNext s).sched ≤ max (distNat k s.c s.slots[i].deadline) (2 * k.grace) ∧
    (scheduleNext s ≠ s → 2 * k.grace ≤ distNat k s.c (scheduleNext s).comp)

/-- R154 (b), for every allowed configuration: a bulk update and the same registrations one by one schedule the same
`S`, without a tick inside and when the schedule they start from is not armed or not within grace. -/
def Obligations.BulkRegistrationMatchesSingle : Prop :=
  ∀ k : Config, k.Allowed → ∀ (s : Any.State k) (l : List (Nat × Word × Word)), l ≠ [] → (∀ e ∈ l, e.1 < k.nComp) →
    (s.cmpIe = false ∨ 2 * k.grace ≤ distNat k s.c s.sched) →
    (registerAll l s).sched = (compScheduleNext (registerAllNs l s)).sched

/-- R227, R256, for every allowed configuration: the winner's deadline is still due when the compare entry comes fewer
than `2·GRACE` ticks after the armed value, and fewer than `4·GRACE` when it was armed unbumped. -/
def Obligations.ArmedDeadlineDueWithinLatency : Prop :=
  ∀ k : Config, k.Allowed → ∀ (s : Any.State k) (w : Fin k.nComp), s.isWinner w → ∀ L : Nat,
    (L < 2 * k.grace →
      umod32 ((scheduleNext s).sched.toNat + L - s.slots[w].deadline.toNat) < 4 * k.grace) ∧
    ((scheduleNext s).sched = s.slots[w].deadline → L < 4 * k.grace →
      umod32 ((scheduleNext s).sched.toNat + L - s.slots[w].deadline.toNat) < 4 * k.grace)

/-- R227, R144, R221 to R223, for every allowed configuration: a winner that the arbiter arms, or whose schedule stands
on a match still ahead, is fired by that match: after the ticks to the armed value and fewer than `2·GRACE` more, a
compare pass whose callbacks issue no command, with any ticks between its steps after the entry, fires its slot, once,
and ends. A schedule that stands on a spent match (`S = C`, R260) is not among these. -/
def Obligations.ArmedDeadlineFires : Prop :=
  ∀ k : Config, k.Allowed → ∀ (s : Any.State k) (w : Fin k.nComp) (L : Nat) (ticks : List Nat),
    s.isWinner w → (s.standsAt s.slots[w].deadline → s.comp = s.sched ∧ s.comp ≠ s.c) →
    s.cmpFlag = false → s.seq.mode = .idle → L < 2 * k.grace → ticks.length = k.nComp + 1 →
    let a := scheduleNext s
    let b := tickN ((a.comp - a.c).toNat + L) a
    let t := quietRoundsAfterTicks .compare ticks (quietRound .compare b)
    b.cmpFlag = true ∧
      ∃ l, t.trace = b.trace ++ l ∧ l.count (.cmpCb w.val s.slots[w].callback) = 1 ∧
        t.slots[w].enabled = false ∧ t.seq.mode = .idle

/-! ## The sequencer -/

/-- R218: the periodic entry of an idle sequencer. With both requests up R225 leaves the order open; that the turn then
decides which entry is taken is the model's choice (log 3). -/
def Obligations.PeriodicEntryResult : Prop :=
  ∀ (s : State) ts first, s.turns = .service first :: ts → s.seq.mode = .idle → s.perFlag &&& s.perEn ≠ 0 →
    (s.cmpFlag = false ∨ first = .periodic) →
    step s = .next { s with
      turns := ts, perFlag := 0
      seq := { s.seq with mode := .per, cursor := 7, psnap := s.perFlag &&& s.perEn, inCb := false } }

/-- R219: a periodic scan step invokes the highest slot of the snapshot with its token as it is now, or ends the pass. -/
def Obligations.PeriodicScanResult : Prop :=
  ∀ (s : State) ts first, s.turns = .service first :: ts → s.seq.mode = .per → s.seq.inCb = false →
    (s.seq.psnap = 0 → step s = .next { s with turns := ts, seq := { s.seq with mode := .idle } }) ∧
    (∀ n : Fin 8, s.seq.psnap.getLsbD n.val = true → (∀ m : Fin 8, n < m → s.seq.psnap.getLsbD m.val = false) →
      ∃ q : Byte, (∀ m : Fin 8, q.getLsbD m.val = (s.seq.psnap.getLsbD m.val && !(m == n))) ∧
        step s = .next { s with
          turns := ts, trace := s.trace ++ [.perCb n.val s.perCb[n]]
          seq := { s.seq with psnap := q, cursor := n.val, inCb := true } })

/-- R221: the compare entry of an idle sequencer. With both requests up R225 leaves the order open; that the turn then
decides which entry is taken is the model's choice (log 3). -/
def Obligations.CompareEntryResult : Prop :=
  ∀ (s : State) ts first, s.turns = .service first :: ts → s.seq.mode = .idle → s.cmpFlag = true →
    (s.perFlag &&& s.perEn = 0 ∨ first = .compare) →
    step s = .next { s with
      turns := ts, cmpFlag := false
      seq := { s.seq with mode := .cmp, cursor := 0, clatch := s.c, inCb := false } }

/-- R222, R153: a compare scan step fires the slot at the cursor when it is due at the latched counter, disabling it, and
passes it by otherwise. -/
def Obligations.CompareScanResult : Prop :=
  ∀ (s : State) ts first (i : Fin Config.taken.nComp), s.turns = .service first :: ts → s.seq.mode = .cmp →
    s.seq.inCb = false → s.seq.cursor = i.val →
    (s.dueAt s.seq.clatch i = true →
      ∃ t, step s = .next t ∧
        t = { s with
          turns := ts, slots := t.slots, trace := s.trace ++ [.cmpCb i.val s.slots[i].callback]
          seq := { s.seq with cursor := i.val + 1, inCb := true } } ∧
        t.slots[i] = ⟨s.slots[i].deadline, s.slots[i].callback, false⟩ ∧
        ∀ j : Fin Config.taken.nComp, j ≠ i → t.slots[j] = s.slots[j]) ∧
    (s.dueAt s.seq.clatch i = false →
      step s = .next { s with turns := ts, seq := { s.seq with cursor := i.val + 1 } })

/-- R223: the compare finish runs the arbiter on the live counter and ends the pass. -/
def Obligations.CompareFinishResult : Prop :=
  ∀ (s : State) ts first, s.turns = .service first :: ts → s.seq.mode = .cmp → s.seq.inCb = false →
    s.seq.cursor = Config.taken.nComp →
    ∃ t : State, scheduledFrom { s with turns := ts } t ∧
      step s = .next { t with seq := { s.seq with mode := .idle } }

/-- R217: `CB_RET` (op 0x50) closes an open callback window and nothing else; with none open it is ignored. -/
def Obligations.CbRetResult : Prop :=
  encode .cbRet = pack 0x50 0 0 0 0 ∧ ∀ s : State,
    (s.seq.inCb = true → exec .cbRet s = .next { s with seq := { s.seq with inCb := false } }) ∧
    (s.seq.inCb = false → exec .cbRet s = .next s)

/-- R222, R229, U16: a step that emits `CMP_CB(i, token)` found slot `i` enabled and due, with that token, and leaves it
disabled, every other slot as it was, in an open callback window. -/
def Obligations.FiredSlotWasEnabledAndDue : Prop :=
  ∀ (s t : State) (i : Nat) (token : BitVec Config.taken.cbWidth), step s = .next t → t.trace = s.trace ++ [.cmpCb i token] →
    ∃ k : Fin Config.taken.nComp, k.val = i ∧ s.dueAt s.seq.clatch k = true ∧ token = s.slots[k].callback ∧
      t.slots[k].enabled = false ∧ (∀ j : Fin Config.taken.nComp, j ≠ k → t.slots[j] = s.slots[j]) ∧
      t.seq.inCb = true

/-- R211: a step emits at most one event, each kind from its own agent: `OVF` in a tick, callbacks in a turn of the
sequencer that opens a window, `TUNE_WR` in an `FC_APPLY`. -/
def Obligations.StepEmitsAtMostOneEvent : Prop :=
  ∀ s t : State, step s = .next t → s.nextTurn ≠ .coldReset →
    t.trace = s.trace ∨
    (t.trace = s.trace ++ [.ovf] ∧ s.nextTurn = .tick) ∨
    (∃ n token, t.trace = s.trace ++ [.perCb n token] ∧ (∃ first, s.nextTurn = .service first) ∧ t.seq.inCb = true) ∨
    (∃ i token, t.trace = s.trace ++ [.cmpCb i token] ∧ (∃ first, s.nextTurn = .service first) ∧ t.seq.inCb = true) ∨
    (∃ v rst temp mv, t.trace = s.trace ++ [.tuneWr v] ∧ s.commands (.fcApply rst temp mv))

/-- R219, R220, in every configuration: a periodic pass whose callbacks issue no command, with any ticks between its
steps after the entry, invokes every slot pending and enabled at the entry exactly once, from slot 7 down to slot 0, and
ends; the state is then that of clearing all flags and taking the same ticks, but for the trace, whose callbacks the
ticks do not change, and the sequencer. With both requests up, that the turn decides which entry is taken is the model's
choice (log 3). -/
def Obligations.PeriodicPassInvokesDescending : Prop :=
  ∀ (k : Config) (s : Any.State k) (first : Service) (ticks : List Nat), s.seq.mode = .idle →
    s.perFlag &&& s.perEn ≠ 0 → (s.cmpFlag = false ∨ first = .periodic) →
    let ns := ([7, 6, 5, 4, 3, 2, 1, 0] : List (Fin 8)).filter (fun n => (s.perFlag &&& s.perEn).getLsbD n.val)
    ticks.length = ns.length + 1 →
    let t := quietRoundsAfterTicks first ticks (quietRound first s)
    let u := tickN ticks.sum { s with perFlag := 0 }
    t = { u with trace := t.trace, seq := t.seq } ∧ t.seq.mode = .idle ∧ t.seq.inCb = false ∧
      ∃ l, t.trace = s.trace ++ l ∧ l.filter (· ≠ .ovf) = ns.map (fun n => .perCb n.val s.perCb[n]) ∧
        u.trace = s.trace ++ l.filter (· = .ovf)

/-- R222 to R224, in every configuration: a compare pass whose callbacks issue no command, and in which no tick falls,
fires every enabled slot due at the entry in index order, leaves the others unchanged, runs the arbiter on what remains,
and ends. With both requests up, that the turn decides which entry is taken is the model's choice (log 3). -/
def Obligations.ComparePassFiresDueSlots : Prop :=
  ∀ (k : Config) (s : Any.State k) (first : Service), s.seq.mode = .idle → s.cmpFlag = true →
    (s.perFlag &&& s.perEn = 0 ∨ first = .compare) →
    let fired := (List.finRange k.nComp).filter (fun i => s.dueAt s.c i)
    let t := quietRounds first (k.nComp + 2) s
    ∃ u v : Any.State k,
      u = { s with
        cmpFlag := false, slots := u.slots
        trace := s.trace ++ fired.map (fun i => .cmpCb i.val s.slots[i].callback), seq := u.seq } ∧
      (∀ i : Fin k.nComp, u.slots[i] = { s.slots[i] with enabled := s.slots[i].enabled && !s.dueAt s.c i }) ∧
      scheduledFrom u v ∧ t = { v with seq := t.seq } ∧ t.seq.mode = .idle ∧ t.seq.inCb = false

/-! ## Frequency correction -/

/-- R173 to R179: the integer evaluator is the rational formula rounded to nearest, a tie away from zero. -/
def Obligations.EvaluatorMatchesRationalFormula : Prop :=
  (∀ (cfg : FcCfg) (tx : Int) (mv : Half) (wall : Word),
    fcRaw cfg tx mv wall = rawOfPpm (totalPpm cfg tx mv wall)) ∧
  (∀ q : ℚ, |(roundHaz q : ℚ) - q| ≤ 1 / 2 ∧ (|(roundHaz q : ℚ) - q| = 1 / 2 → |q| < |(roundHaz q : ℚ)|))

/-- R180, R181: the dithered `lsb` is `sum / 31` rounded to nearest, so the residual stays in [-15, 15]. -/
def Obligations.DitherQuantisesToNearest : Prop :=
  ∀ sum : Int, -15 ≤ sum - 31 * ditherLsb sum ∧ sum - 31 * ditherLsb sum ≤ 15

/-- R193 (a), in every configuration: with any constant `raw`, after 31 corrections the residual is what it was and the
31 unclamped values sum to `raw`. -/
def Obligations.DitherReturnsAfterThirtyOne : Prop :=
  ∀ (k : Config) (raw : Int) (s : Any.State k), -15 ≤ s.resid.toInt → s.resid.toInt ≤ 15 →
    (applyRawN raw 31 s).resid = s.resid ∧ (lsbsOf raw 31 s).sum = raw

/-- R186, with R171 and R180 to R184: `FC_APPLY` and `FC_APPLY.R` (op 0x40, `fl[0]` = `rst`, `imm` = `temp`, `A` =
`mv`), in the configuration whose `fc_raw` is the default, the exact evaluator of R178 (U3; the model's choice, log 10).
What holds for every `fc_raw` is `CorrectionOfAnyRaw`. -/
def Obligations.FcApplyResult : Prop :=
  ∀ (rst : Bool) (temp mv : Half) (s : State),
    let tx := if temp.toNat = 0x8000 then s.cfg.tcenter.toInt else temp.toInt
    let sum := rawOfPpm (totalPpm s.cfg tx mv s.wall) + (if rst = true then 0 else s.resid.toInt)
    let q := (2 * sum).tdiv 31
    let lsb := (q + q.sign).tdiv 2
    let c := max (-127) (min 127 lsb)
    encode (.fcApply rst temp mv) = pack 0x40 (if rst = true then 1 else 0) temp (BitVec.ofNat 32 mv.toNat) 0 ∧
    ∃ (t : State) (v : Byte), exec (.fcApply rst temp mv) s = .next t ∧
      t.resid.toInt = sum - 31 * lsb ∧
      v.toNat = (if c < 0 then 128 else 0) + c.natAbs ∧
      (s.lastW = some v → t = { s with resid := t.resid }) ∧
      (s.lastW ≠ some v →
        t = { s with resid := t.resid, tune := v, lastW := some v, trace := s.trace ++ [.tuneWr v] })

/-- R180 to R184 for every integer `raw`, and so R186 for every `fc_raw`, as U3 asks: dithering, clamping, sign and
magnitude, and write elision, in every configuration; `FC_APPLY` does this with the configuration's `fc_raw`. -/
def Obligations.CorrectionOfAnyRaw : Prop :=
  (∀ (k : Config) (raw : Int) (s : Any.State k),
    let sum := raw + s.resid.toInt
    let q := (2 * sum).tdiv 31
    let lsb := (q + q.sign).tdiv 2
    let c := max (-127) (min 127 lsb)
    ∃ (t : Any.State k) (v : Byte), applyRaw raw s = t ∧
      t.resid.toInt = sum - 31 * lsb ∧
      v.toNat = (if c < 0 then 128 else 0) + c.natAbs ∧
      (s.lastW = some v → t = { s with resid := t.resid }) ∧
      (s.lastW ≠ some v →
        t = { s with resid := t.resid, tune := v, lastW := some v, trace := s.trace ++ [.tuneWr v] })) ∧
  (∀ (k : Config) (rst : Bool) (temp mv : Half) (s : Any.State k),
    fcApply rst temp mv s =
      applyRaw (k.fcRaw s.cfg (if temp.toNat = 0x8000 then s.cfg.tcenter.toInt else temp.toInt) mv s.wall)
        (if rst = true then { s with resid := 0 } else s)) ∧
  (∀ (rst : Bool) (temp mv : Half) (s : State), exec (.fcApply rst temp mv) s = .next (fcApply rst temp mv s))

/-- R187: `FC_SET_PROFILE` (op 0x41) loads the row of its preset and leaves the rest; `p > 4` is ignored. -/
def Obligations.FcSetProfileResult : Prop :=
  ∀ (p : Nat) (s : State),
    (p < 256 → encode (.fcSetProfile p) = pack 0x41 0 (BitVec.ofNat 16 p) 0 0) ∧
    (p ≤ 4 → ∃ t, exec (.fcSetProfile p) s = .next t ∧
      t = { s with cfg := { t.cfg with cadence := s.cfg.cadence, anchor := s.cfg.anchor } } ∧
      t.cfg.profile.toNat = p ∧
      t.cfg.freq.toInt = [0, 0, 0, 0, 1768].getD p 0 ∧
      t.cfg.tcenter.toInt = [2500, 2500, 2500, 2500, 2653].getD p 0 ∧
      t.cfg.a2.toInt = [0, 0, 3400, 3400, 4091].getD p 0 ∧
      t.cfg.a3.toInt = [0, 0, 0, 1360, 1359].getD p 0 ∧
      t.cfg.aging.toInt = 0) ∧
    (4 < p → exec (.fcSetProfile p) s = .next s)

/-- R188: `FC_CFG_WR` (op 0x42) stores the low bits of its value in its field, unchecked, and nothing else. -/
def Obligations.FcCfgWrResult : Prop :=
  ∀ (field : CfgField) (value : Word) (s : State),
    encode (.fcCfgWr field value) = pack 0x42 0 (BitVec.ofNat 16 (recordOrder.idxOf field)) value 0 ∧
    ∃ t, exec (.fcCfgWr field value) s = .next t ∧
    t = { s with cfg := t.cfg } ∧ s.cfg.written field value t.cfg

/-- R189: `FC_CFG_RD` (op 0x43) answers its field extended as its type says, and writes nothing. -/
def Obligations.FcCfgRdResult : Prop :=
  ∀ (field : CfgField) (s : State),
    encode (.fcCfgRd field) = pack 0x43 0 (BitVec.ofNat 16 (recordOrder.idxOf field)) 0 0 ∧
    ∃ x : Word, exec (.fcCfgRd field) s = .next { s with rsps := s.rsps ++ [x] } ∧ s.cfg.answers field x

/-- R190: `FC_DUE` (op 0x44) advises in a minute that is a multiple of a legal cadence, with a profile other than 0. -/
def Obligations.FcDueResult : Prop :=
  encode .fcDue = pack 0x44 0 0 0 0 ∧
  ∀ s : State, ∃ x : Word, exec .fcDue s = .next { s with rsps := s.rsps ++ [x] } ∧
    (x = 0 ∨ x = 1) ∧
    (x = 1 ↔ s.cfg.profile ≠ 0 ∧
      (s.cfg.cadence.toNat = 1 ∨ s.cfg.cadence.toNat = 5 ∨ s.cfg.cadence.toNat = 10 ∨ s.cfg.cadence.toNat = 20 ∨
        s.cfg.cadence.toNat = 60) ∧
      s.cfg.cadence.toNat ∣ wallNat s.c s.t0 / 60)

/-- R63 to R65: the record image, little-endian and packed at the offsets the spec computes from R62, and its two round
trips, which the spec infers. -/
def Obligations.RecordRoundTrip : Prop :=
  (∀ cfg : FcCfg, cfgOfBytes (cfgToBytes cfg) = some cfg ∧
    (cfgToBytes cfg).map BitVec.toNat =
      [cfg.profile.toNat, cfg.cadence.toNat,
       cfg.freq.toNat % 256, cfg.freq.toNat / 256, cfg.tcenter.toNat % 256, cfg.tcenter.toNat / 256,
       cfg.a2.toNat % 256, cfg.a2.toNat / 256, cfg.a3.toNat % 256, cfg.a3.toNat / 256,
       cfg.aging.toNat % 256, cfg.aging.toNat / 256,
       cfg.anchor.toNat % 256, cfg.anchor.toNat / 256 % 256, cfg.anchor.toNat / 65536 % 256,
       cfg.anchor.toNat / 16777216]) ∧
  (∀ b : List Byte, b.length = 16 → ∃ cfg, cfgOfBytes b = some cfg ∧ cfgToBytes cfg = b) ∧
  (∀ b : List Byte, b.length ≠ 16 → cfgOfBytes b = none)

/-! ## Rules over all commands -/

/-- R68, R87: a command marked `rsp` answers one value and changes no state, and answers the same when repeated; every
other command answers nothing. -/
def Obligations.ReadsOnlyRespond : Prop :=
  ∀ (i : Instr) (s : State),
    (i.responds = true → ∃ v : Word, exec i s = .next { s with rsps := s.rsps ++ [v] } ∧
      ∀ l : List Word, exec i { s with rsps := l } = .next { s with rsps := l ++ [v] }) ∧
    (i.responds = false → ∃ t, exec i s = .next t ∧ t.rsps = s.rsps)

/-- R39: a command changes only the state of the columns the access table marks written for it. -/
def Obligations.CommandWritesOnlyItsColumns : Prop :=
  ∀ (i : Instr) (s t : State), exec i s = .next t → commandKeeps i s t

/-- R21, R22: only a tick writes `C`, adding one; only `SET_EPOCH` and the tick that wraps the counter write `T0`. -/
def Obligations.CounterAndEpochWriters : Prop :=
  ∀ s t : State, step s = .next t → s.nextTurn ≠ .coldReset →
    ((s.nextTurn = .tick ∧ t.c = s.c + 1) ∨ (s.nextTurn ≠ .tick ∧ t.c = s.c)) ∧
    (t.t0 = s.t0 ∨ (s.nextTurn = .tick ∧ t.c = 0) ∨ ∃ u, s.commands (.setEpoch u))

/-- R185: no step but an `FC_APPLY` (and a cold reset) writes `TUNE`, `R` or `LASTW`. -/
def Obligations.TuneWrittenOnlyByFcApply : Prop :=
  ∀ s t : State, step s = .next t → s.nextTurn ≠ .coldReset →
    (∀ rst temp mv, ¬ s.commands (.fcApply rst temp mv)) →
    t.tune = s.tune ∧ t.resid = s.resid ∧ t.lastW = s.lastW

/-- R27, R30, R36, R40, U6: what reset leaves unspecified is never read: from two states that differ only in contents no
rule reads before writing them, every step gives two states that again differ only so, with the same events, responses
and registers. So no behaviour rests on the zeros of log 8. -/
def Obligations.UnspecifiedContentsNeverRead : Prop :=
  ∀ s s' t : State, AgreeOnRead s s' → step s = .next t → ∃ t', step s' = .next t' ∧ AgreeOnRead t t'
end

