-- ==== Sys2Proof/Laws/Encoding.lean ====
section
/-! SUPPORT. The fields of a packed command word, so that no proof unfolds the concatenation of R80. -/

namespace Sys2Proof

@[simp] theorem opField_pack (op fl : BitVec 8) (imm : BitVec 16) (a b : BitVec 32) :
    opField (pack op fl imm a b) = op := by
  refine BitVec.eq_of_getLsbD_eq fun i hi => ?_
  simp only [opField, pack, BitVec.getLsbD_extractLsb', hi, decide_true, Bool.true_and, BitVec.getLsbD_append]
  rw [if_neg (by omega), if_neg (by omega), if_neg (by omega), if_neg (by omega), show 88 + i - 32 - 32 - 16 - 8 = i by omega]

@[simp] theorem flField_pack (op fl : BitVec 8) (imm : BitVec 16) (a b : BitVec 32) :
    flField (pack op fl imm a b) = fl := by
  refine BitVec.eq_of_getLsbD_eq fun i hi => ?_
  simp only [flField, pack, BitVec.getLsbD_extractLsb', hi, decide_true, Bool.true_and, BitVec.getLsbD_append]
  rw [if_neg (by omega), if_neg (by omega), if_neg (by omega), if_pos (by omega), show 80 + i - 32 - 32 - 16 = i by omega]

@[simp] theorem immField_pack (op fl : BitVec 8) (imm : BitVec 16) (a b : BitVec 32) :
    immField (pack op fl imm a b) = imm := by
  refine BitVec.eq_of_getLsbD_eq fun i hi => ?_
  simp only [immField, pack, BitVec.getLsbD_extractLsb', hi, decide_true, Bool.true_and, BitVec.getLsbD_append]
  rw [if_neg (by omega), if_neg (by omega), if_pos (by omega), show 64 + i - 32 - 32 = i by omega]

@[simp] theorem aField_pack (op fl : BitVec 8) (imm : BitVec 16) (a b : BitVec 32) :
    aField (pack op fl imm a b) = a := by
  refine BitVec.eq_of_getLsbD_eq fun i hi => ?_
  simp only [aField, pack, BitVec.getLsbD_extractLsb', hi, decide_true, Bool.true_and, BitVec.getLsbD_append]
  rw [if_neg (by omega), if_pos (by omega), show 32 + i - 32 = i by omega]

@[simp] theorem bField_pack (op fl : BitVec 8) (imm : BitVec 16) (a b : BitVec 32) :
    bField (pack op fl imm a b) = b := by
  refine BitVec.eq_of_getLsbD_eq fun i hi => ?_
  simp only [bField, pack, BitVec.getLsbD_extractLsb', hi, decide_true, Bool.true_and, BitVec.getLsbD_append]
  rw [if_pos (by omega), show 0 + i = i by omega]

/-- A command word is its five fields (R80, R81). -/
theorem pack_fields (w : CmdWord) : pack (opField w) (flField w) (immField w) (aField w) (bField w) = w := by
  ext i hi
  simp only [pack, opField, flField, immField, aField, bField, ← BitVec.getLsbD_eq_getElem, BitVec.getLsbD_append,
    BitVec.getLsbD_extractLsb']
  by_cases h1 : i < 32
  · simp [h1]
  by_cases h2 : i < 64
  · simp [h1, show i - 32 < 32 by omega, show 32 + (i - 32) = i by omega]
  by_cases h3 : i < 80
  · simp [h1, show ¬ i - 32 < 32 by omega, show i - 32 - 32 < 16 by omega, show 64 + (i - 32 - 32) = i by omega]
  by_cases h4 : i < 88
  · simp [h1, show ¬ i - 32 < 32 by omega, show ¬ i - 32 - 32 < 16 by omega, show i - 32 - 32 - 16 < 8 by omega,
      show 80 + (i - 32 - 32 - 16) = i by omega]
  · simp [h1, show ¬ i - 32 < 32 by omega, show ¬ i - 32 - 32 < 16 by omega, show ¬ i - 32 - 32 - 16 < 8 by omega,
      show i - 32 - 32 - 16 - 8 < 8 by omega, show 88 + (i - 32 - 32 - 16 - 8) = i by omega]

end Sys2Proof
end

