-- ==== Sys2Proof/Laws/State.lean ====
section
/-! SUPPORT. One lemma per field per update: what each shared operation that is one record update leaves in each field of
the state, so that no proof unfolds a record update. -/

namespace Sys2Proof.Machine

variable {k : Config}


@[simp] theorem emit_c (e : Event k.cbWidth) (s : Any.State k) : (emit e s).c = s.c := rfl
@[simp] theorem emit_t0 (e : Event k.cbWidth) (s : Any.State k) : (emit e s).t0 = s.t0 := rfl
@[simp] theorem emit_comp (e : Event k.cbWidth) (s : Any.State k) : (emit e s).comp = s.comp := rfl
@[simp] theorem emit_sched (e : Event k.cbWidth) (s : Any.State k) : (emit e s).sched = s.sched := rfl
@[simp] theorem emit_cmpIe (e : Event k.cbWidth) (s : Any.State k) : (emit e s).cmpIe = s.cmpIe := rfl
@[simp] theorem emit_cmpFlag (e : Event k.cbWidth) (s : Any.State k) : (emit e s).cmpFlag = s.cmpFlag := rfl
@[simp] theorem emit_slots (e : Event k.cbWidth) (s : Any.State k) : (emit e s).slots = s.slots := rfl
@[simp] theorem emit_perEn (e : Event k.cbWidth) (s : Any.State k) : (emit e s).perEn = s.perEn := rfl
@[simp] theorem emit_perFlag (e : Event k.cbWidth) (s : Any.State k) : (emit e s).perFlag = s.perFlag := rfl
@[simp] theorem emit_perCb (e : Event k.cbWidth) (s : Any.State k) : (emit e s).perCb = s.perCb := rfl
@[simp] theorem emit_cfg (e : Event k.cbWidth) (s : Any.State k) : (emit e s).cfg = s.cfg := rfl
@[simp] theorem emit_resid (e : Event k.cbWidth) (s : Any.State k) : (emit e s).resid = s.resid := rfl
@[simp] theorem emit_lastW (e : Event k.cbWidth) (s : Any.State k) : (emit e s).lastW = s.lastW := rfl
@[simp] theorem emit_tune (e : Event k.cbWidth) (s : Any.State k) : (emit e s).tune = s.tune := rfl
@[simp] theorem emit_seq (e : Event k.cbWidth) (s : Any.State k) : (emit e s).seq = s.seq := rfl
@[simp] theorem emit_trace (e : Event k.cbWidth) (s : Any.State k) : (emit e s).trace = s.trace ++ [e] := rfl
@[simp] theorem emit_rsps (e : Event k.cbWidth) (s : Any.State k) : (emit e s).rsps = s.rsps := rfl
@[simp] theorem emit_port (e : Event k.cbWidth) (s : Any.State k) : (emit e s).port = s.port := rfl
@[simp] theorem emit_turns (e : Event k.cbWidth) (s : Any.State k) : (emit e s).turns = s.turns := rfl
@[simp] theorem emit_draws (e : Event k.cbWidth) (s : Any.State k) : (emit e s).draws = s.draws := rfl

@[simp] theorem respond_c (v : Word) (s : Any.State k) : (respond v s).c = s.c := rfl
@[simp] theorem respond_t0 (v : Word) (s : Any.State k) : (respond v s).t0 = s.t0 := rfl
@[simp] theorem respond_comp (v : Word) (s : Any.State k) : (respond v s).comp = s.comp := rfl
@[simp] theorem respond_sched (v : Word) (s : Any.State k) : (respond v s).sched = s.sched := rfl
@[simp] theorem respond_cmpIe (v : Word) (s : Any.State k) : (respond v s).cmpIe = s.cmpIe := rfl
@[simp] theorem respond_cmpFlag (v : Word) (s : Any.State k) : (respond v s).cmpFlag = s.cmpFlag := rfl
@[simp] theorem respond_slots (v : Word) (s : Any.State k) : (respond v s).slots = s.slots := rfl
@[simp] theorem respond_perEn (v : Word) (s : Any.State k) : (respond v s).perEn = s.perEn := rfl
@[simp] theorem respond_perFlag (v : Word) (s : Any.State k) : (respond v s).perFlag = s.perFlag := rfl
@[simp] theorem respond_perCb (v : Word) (s : Any.State k) : (respond v s).perCb = s.perCb := rfl
@[simp] theorem respond_cfg (v : Word) (s : Any.State k) : (respond v s).cfg = s.cfg := rfl
@[simp] theorem respond_resid (v : Word) (s : Any.State k) : (respond v s).resid = s.resid := rfl
@[simp] theorem respond_lastW (v : Word) (s : Any.State k) : (respond v s).lastW = s.lastW := rfl
@[simp] theorem respond_tune (v : Word) (s : Any.State k) : (respond v s).tune = s.tune := rfl
@[simp] theorem respond_seq (v : Word) (s : Any.State k) : (respond v s).seq = s.seq := rfl
@[simp] theorem respond_trace (v : Word) (s : Any.State k) : (respond v s).trace = s.trace := rfl
@[simp] theorem respond_rsps (v : Word) (s : Any.State k) : (respond v s).rsps = s.rsps ++ [v] := rfl
@[simp] theorem respond_port (v : Word) (s : Any.State k) : (respond v s).port = s.port := rfl
@[simp] theorem respond_turns (v : Word) (s : Any.State k) : (respond v s).turns = s.turns := rfl
@[simp] theorem respond_draws (v : Word) (s : Any.State k) : (respond v s).draws = s.draws := rfl

@[simp] theorem fillSlot_c (i : Fin k.nComp) (cb : BitVec k.cbWidth) (d : Word) (s : Any.State k) :
    (fillSlot i cb d s).c = s.c := rfl
@[simp] theorem fillSlot_t0 (i : Fin k.nComp) (cb : BitVec k.cbWidth) (d : Word) (s : Any.State k) :
    (fillSlot i cb d s).t0 = s.t0 := rfl
@[simp] theorem fillSlot_comp (i : Fin k.nComp) (cb : BitVec k.cbWidth) (d : Word) (s : Any.State k) :
    (fillSlot i cb d s).comp = s.comp := rfl
@[simp] theorem fillSlot_sched (i : Fin k.nComp) (cb : BitVec k.cbWidth) (d : Word) (s : Any.State k) :
    (fillSlot i cb d s).sched = s.sched := rfl
@[simp] theorem fillSlot_cmpIe (i : Fin k.nComp) (cb : BitVec k.cbWidth) (d : Word) (s : Any.State k) :
    (fillSlot i cb d s).cmpIe = s.cmpIe := rfl
@[simp] theorem fillSlot_cmpFlag (i : Fin k.nComp) (cb : BitVec k.cbWidth) (d : Word) (s : Any.State k) :
    (fillSlot i cb d s).cmpFlag = s.cmpFlag := rfl
@[simp] theorem fillSlot_slots (i : Fin k.nComp) (cb : BitVec k.cbWidth) (d : Word) (s : Any.State k) :
    (fillSlot i cb d s).slots = s.slots.set i ⟨d, cb, true⟩ := rfl
@[simp] theorem fillSlot_perEn (i : Fin k.nComp) (cb : BitVec k.cbWidth) (d : Word) (s : Any.State k) :
    (fillSlot i cb d s).perEn = s.perEn := rfl
@[simp] theorem fillSlot_perFlag (i : Fin k.nComp) (cb : BitVec k.cbWidth) (d : Word) (s : Any.State k) :
    (fillSlot i cb d s).perFlag = s.perFlag := rfl
@[simp] theorem fillSlot_perCb (i : Fin k.nComp) (cb : BitVec k.cbWidth) (d : Word) (s : Any.State k) :
    (fillSlot i cb d s).perCb = s.perCb := rfl
@[simp] theorem fillSlot_cfg (i : Fin k.nComp) (cb : BitVec k.cbWidth) (d : Word) (s : Any.State k) :
    (fillSlot i cb d s).cfg = s.cfg := rfl
@[simp] theorem fillSlot_resid (i : Fin k.nComp) (cb : BitVec k.cbWidth) (d : Word) (s : Any.State k) :
    (fillSlot i cb d s).resid = s.resid := rfl
@[simp] theorem fillSlot_lastW (i : Fin k.nComp) (cb : BitVec k.cbWidth) (d : Word) (s : Any.State k) :
    (fillSlot i cb d s).lastW = s.lastW := rfl
@[simp] theorem fillSlot_tune (i : Fin k.nComp) (cb : BitVec k.cbWidth) (d : Word) (s : Any.State k) :
    (fillSlot i cb d s).tune = s.tune := rfl
@[simp] theorem fillSlot_seq (i : Fin k.nComp) (cb : BitVec k.cbWidth) (d : Word) (s : Any.State k) :
    (fillSlot i cb d s).seq = s.seq := rfl
@[simp] theorem fillSlot_trace (i : Fin k.nComp) (cb : BitVec k.cbWidth) (d : Word) (s : Any.State k) :
    (fillSlot i cb d s).trace = s.trace := rfl
@[simp] theorem fillSlot_rsps (i : Fin k.nComp) (cb : BitVec k.cbWidth) (d : Word) (s : Any.State k) :
    (fillSlot i cb d s).rsps = s.rsps := rfl
@[simp] theorem fillSlot_port (i : Fin k.nComp) (cb : BitVec k.cbWidth) (d : Word) (s : Any.State k) :
    (fillSlot i cb d s).port = s.port := rfl
@[simp] theorem fillSlot_turns (i : Fin k.nComp) (cb : BitVec k.cbWidth) (d : Word) (s : Any.State k) :
    (fillSlot i cb d s).turns = s.turns := rfl
@[simp] theorem fillSlot_draws (i : Fin k.nComp) (cb : BitVec k.cbWidth) (d : Word) (s : Any.State k) :
    (fillSlot i cb d s).draws = s.draws := rfl

@[simp] theorem clearSlot_c (i : Fin k.nComp) (s : Any.State k) : (clearSlot i s).c = s.c := rfl
@[simp] theorem clearSlot_t0 (i : Fin k.nComp) (s : Any.State k) : (clearSlot i s).t0 = s.t0 := rfl
@[simp] theorem clearSlot_comp (i : Fin k.nComp) (s : Any.State k) : (clearSlot i s).comp = s.comp := rfl
@[simp] theorem clearSlot_sched (i : Fin k.nComp) (s : Any.State k) : (clearSlot i s).sched = s.sched := rfl
@[simp] theorem clearSlot_cmpIe (i : Fin k.nComp) (s : Any.State k) : (clearSlot i s).cmpIe = s.cmpIe := rfl
@[simp] theorem clearSlot_cmpFlag (i : Fin k.nComp) (s : Any.State k) : (clearSlot i s).cmpFlag = s.cmpFlag := rfl
@[simp] theorem clearSlot_slots (i : Fin k.nComp) (s : Any.State k) :
    (clearSlot i s).slots = s.slots.set i { s.slots[i] with enabled := false } := rfl
@[simp] theorem clearSlot_perEn (i : Fin k.nComp) (s : Any.State k) : (clearSlot i s).perEn = s.perEn := rfl
@[simp] theorem clearSlot_perFlag (i : Fin k.nComp) (s : Any.State k) : (clearSlot i s).perFlag = s.perFlag := rfl
@[simp] theorem clearSlot_perCb (i : Fin k.nComp) (s : Any.State k) : (clearSlot i s).perCb = s.perCb := rfl
@[simp] theorem clearSlot_cfg (i : Fin k.nComp) (s : Any.State k) : (clearSlot i s).cfg = s.cfg := rfl
@[simp] theorem clearSlot_resid (i : Fin k.nComp) (s : Any.State k) : (clearSlot i s).resid = s.resid := rfl
@[simp] theorem clearSlot_lastW (i : Fin k.nComp) (s : Any.State k) : (clearSlot i s).lastW = s.lastW := rfl
@[simp] theorem clearSlot_tune (i : Fin k.nComp) (s : Any.State k) : (clearSlot i s).tune = s.tune := rfl
@[simp] theorem clearSlot_seq (i : Fin k.nComp) (s : Any.State k) : (clearSlot i s).seq = s.seq := rfl
@[simp] theorem clearSlot_trace (i : Fin k.nComp) (s : Any.State k) : (clearSlot i s).trace = s.trace := rfl
@[simp] theorem clearSlot_rsps (i : Fin k.nComp) (s : Any.State k) : (clearSlot i s).rsps = s.rsps := rfl
@[simp] theorem clearSlot_port (i : Fin k.nComp) (s : Any.State k) : (clearSlot i s).port = s.port := rfl
@[simp] theorem clearSlot_turns (i : Fin k.nComp) (s : Any.State k) : (clearSlot i s).turns = s.turns := rfl
@[simp] theorem clearSlot_draws (i : Fin k.nComp) (s : Any.State k) : (clearSlot i s).draws = s.draws := rfl

@[simp] theorem openPass_c (m : SeqMode) (j : Nat) (s : Any.State k) : (openPass m j s).c = s.c := rfl
@[simp] theorem openPass_t0 (m : SeqMode) (j : Nat) (s : Any.State k) : (openPass m j s).t0 = s.t0 := rfl
@[simp] theorem openPass_comp (m : SeqMode) (j : Nat) (s : Any.State k) : (openPass m j s).comp = s.comp := rfl
@[simp] theorem openPass_sched (m : SeqMode) (j : Nat) (s : Any.State k) : (openPass m j s).sched = s.sched := rfl
@[simp] theorem openPass_cmpIe (m : SeqMode) (j : Nat) (s : Any.State k) : (openPass m j s).cmpIe = s.cmpIe := rfl
@[simp] theorem openPass_cmpFlag (m : SeqMode) (j : Nat) (s : Any.State k) : (openPass m j s).cmpFlag = s.cmpFlag := rfl
@[simp] theorem openPass_slots (m : SeqMode) (j : Nat) (s : Any.State k) : (openPass m j s).slots = s.slots := rfl
@[simp] theorem openPass_perEn (m : SeqMode) (j : Nat) (s : Any.State k) : (openPass m j s).perEn = s.perEn := rfl
@[simp] theorem openPass_perFlag (m : SeqMode) (j : Nat) (s : Any.State k) : (openPass m j s).perFlag = s.perFlag := rfl
@[simp] theorem openPass_perCb (m : SeqMode) (j : Nat) (s : Any.State k) : (openPass m j s).perCb = s.perCb := rfl
@[simp] theorem openPass_cfg (m : SeqMode) (j : Nat) (s : Any.State k) : (openPass m j s).cfg = s.cfg := rfl
@[simp] theorem openPass_resid (m : SeqMode) (j : Nat) (s : Any.State k) : (openPass m j s).resid = s.resid := rfl
@[simp] theorem openPass_lastW (m : SeqMode) (j : Nat) (s : Any.State k) : (openPass m j s).lastW = s.lastW := rfl
@[simp] theorem openPass_tune (m : SeqMode) (j : Nat) (s : Any.State k) : (openPass m j s).tune = s.tune := rfl
@[simp] theorem openPass_seq (m : SeqMode) (j : Nat) (s : Any.State k) :
    (openPass m j s).seq = { s.seq with mode := m, cursor := j, inCb := false } := rfl
@[simp] theorem openPass_trace (m : SeqMode) (j : Nat) (s : Any.State k) : (openPass m j s).trace = s.trace := rfl
@[simp] theorem openPass_rsps (m : SeqMode) (j : Nat) (s : Any.State k) : (openPass m j s).rsps = s.rsps := rfl
@[simp] theorem openPass_port (m : SeqMode) (j : Nat) (s : Any.State k) : (openPass m j s).port = s.port := rfl
@[simp] theorem openPass_turns (m : SeqMode) (j : Nat) (s : Any.State k) : (openPass m j s).turns = s.turns := rfl
@[simp] theorem openPass_draws (m : SeqMode) (j : Nat) (s : Any.State k) : (openPass m j s).draws = s.draws := rfl

@[simp] theorem closePass_c (s : Any.State k) : (closePass s).c = s.c := rfl
@[simp] theorem closePass_t0 (s : Any.State k) : (closePass s).t0 = s.t0 := rfl
@[simp] theorem closePass_comp (s : Any.State k) : (closePass s).comp = s.comp := rfl
@[simp] theorem closePass_sched (s : Any.State k) : (closePass s).sched = s.sched := rfl
@[simp] theorem closePass_cmpIe (s : Any.State k) : (closePass s).cmpIe = s.cmpIe := rfl
@[simp] theorem closePass_cmpFlag (s : Any.State k) : (closePass s).cmpFlag = s.cmpFlag := rfl
@[simp] theorem closePass_slots (s : Any.State k) : (closePass s).slots = s.slots := rfl
@[simp] theorem closePass_perEn (s : Any.State k) : (closePass s).perEn = s.perEn := rfl
@[simp] theorem closePass_perFlag (s : Any.State k) : (closePass s).perFlag = s.perFlag := rfl
@[simp] theorem closePass_perCb (s : Any.State k) : (closePass s).perCb = s.perCb := rfl
@[simp] theorem closePass_cfg (s : Any.State k) : (closePass s).cfg = s.cfg := rfl
@[simp] theorem closePass_resid (s : Any.State k) : (closePass s).resid = s.resid := rfl
@[simp] theorem closePass_lastW (s : Any.State k) : (closePass s).lastW = s.lastW := rfl
@[simp] theorem closePass_tune (s : Any.State k) : (closePass s).tune = s.tune := rfl
@[simp] theorem closePass_seq (s : Any.State k) : (closePass s).seq = { s.seq with mode := .idle } := rfl
@[simp] theorem closePass_trace (s : Any.State k) : (closePass s).trace = s.trace := rfl
@[simp] theorem closePass_rsps (s : Any.State k) : (closePass s).rsps = s.rsps := rfl
@[simp] theorem closePass_port (s : Any.State k) : (closePass s).port = s.port := rfl
@[simp] theorem closePass_turns (s : Any.State k) : (closePass s).turns = s.turns := rfl
@[simp] theorem closePass_draws (s : Any.State k) : (closePass s).draws = s.draws := rfl

@[simp] theorem invoke_c (e : Event k.cbWidth) (s : Any.State k) : (invoke e s).c = s.c := rfl
@[simp] theorem invoke_t0 (e : Event k.cbWidth) (s : Any.State k) : (invoke e s).t0 = s.t0 := rfl
@[simp] theorem invoke_comp (e : Event k.cbWidth) (s : Any.State k) : (invoke e s).comp = s.comp := rfl
@[simp] theorem invoke_sched (e : Event k.cbWidth) (s : Any.State k) : (invoke e s).sched = s.sched := rfl
@[simp] theorem invoke_cmpIe (e : Event k.cbWidth) (s : Any.State k) : (invoke e s).cmpIe = s.cmpIe := rfl
@[simp] theorem invoke_cmpFlag (e : Event k.cbWidth) (s : Any.State k) : (invoke e s).cmpFlag = s.cmpFlag := rfl
@[simp] theorem invoke_slots (e : Event k.cbWidth) (s : Any.State k) : (invoke e s).slots = s.slots := rfl
@[simp] theorem invoke_perEn (e : Event k.cbWidth) (s : Any.State k) : (invoke e s).perEn = s.perEn := rfl
@[simp] theorem invoke_perFlag (e : Event k.cbWidth) (s : Any.State k) : (invoke e s).perFlag = s.perFlag := rfl
@[simp] theorem invoke_perCb (e : Event k.cbWidth) (s : Any.State k) : (invoke e s).perCb = s.perCb := rfl
@[simp] theorem invoke_cfg (e : Event k.cbWidth) (s : Any.State k) : (invoke e s).cfg = s.cfg := rfl
@[simp] theorem invoke_resid (e : Event k.cbWidth) (s : Any.State k) : (invoke e s).resid = s.resid := rfl
@[simp] theorem invoke_lastW (e : Event k.cbWidth) (s : Any.State k) : (invoke e s).lastW = s.lastW := rfl
@[simp] theorem invoke_tune (e : Event k.cbWidth) (s : Any.State k) : (invoke e s).tune = s.tune := rfl
@[simp] theorem invoke_seq (e : Event k.cbWidth) (s : Any.State k) :
    (invoke e s).seq = { s.seq with inCb := true } := rfl
@[simp] theorem invoke_trace (e : Event k.cbWidth) (s : Any.State k) : (invoke e s).trace = s.trace ++ [e] := rfl
@[simp] theorem invoke_rsps (e : Event k.cbWidth) (s : Any.State k) : (invoke e s).rsps = s.rsps := rfl
@[simp] theorem invoke_port (e : Event k.cbWidth) (s : Any.State k) : (invoke e s).port = s.port := rfl
@[simp] theorem invoke_turns (e : Event k.cbWidth) (s : Any.State k) : (invoke e s).turns = s.turns := rfl
@[simp] theorem invoke_draws (e : Event k.cbWidth) (s : Any.State k) : (invoke e s).draws = s.draws := rfl

@[simp] theorem closeWindow_c (s : Any.State k) : (closeWindow s).c = s.c := rfl
@[simp] theorem closeWindow_t0 (s : Any.State k) : (closeWindow s).t0 = s.t0 := rfl
@[simp] theorem closeWindow_comp (s : Any.State k) : (closeWindow s).comp = s.comp := rfl
@[simp] theorem closeWindow_sched (s : Any.State k) : (closeWindow s).sched = s.sched := rfl
@[simp] theorem closeWindow_cmpIe (s : Any.State k) : (closeWindow s).cmpIe = s.cmpIe := rfl
@[simp] theorem closeWindow_cmpFlag (s : Any.State k) : (closeWindow s).cmpFlag = s.cmpFlag := rfl
@[simp] theorem closeWindow_slots (s : Any.State k) : (closeWindow s).slots = s.slots := rfl
@[simp] theorem closeWindow_perEn (s : Any.State k) : (closeWindow s).perEn = s.perEn := rfl
@[simp] theorem closeWindow_perFlag (s : Any.State k) : (closeWindow s).perFlag = s.perFlag := rfl
@[simp] theorem closeWindow_perCb (s : Any.State k) : (closeWindow s).perCb = s.perCb := rfl
@[simp] theorem closeWindow_cfg (s : Any.State k) : (closeWindow s).cfg = s.cfg := rfl
@[simp] theorem closeWindow_resid (s : Any.State k) : (closeWindow s).resid = s.resid := rfl
@[simp] theorem closeWindow_lastW (s : Any.State k) : (closeWindow s).lastW = s.lastW := rfl
@[simp] theorem closeWindow_tune (s : Any.State k) : (closeWindow s).tune = s.tune := rfl
@[simp] theorem closeWindow_seq (s : Any.State k) : (closeWindow s).seq = { s.seq with inCb := false } := rfl
@[simp] theorem closeWindow_trace (s : Any.State k) : (closeWindow s).trace = s.trace := rfl
@[simp] theorem closeWindow_rsps (s : Any.State k) : (closeWindow s).rsps = s.rsps := rfl
@[simp] theorem closeWindow_port (s : Any.State k) : (closeWindow s).port = s.port := rfl
@[simp] theorem closeWindow_turns (s : Any.State k) : (closeWindow s).turns = s.turns := rfl
@[simp] theorem closeWindow_draws (s : Any.State k) : (closeWindow s).draws = s.draws := rfl

@[simp] theorem countUp_c (s : Any.State k) : (countUp s).c = s.c + 1 := rfl
@[simp] theorem countUp_t0 (s : Any.State k) : (countUp s).t0 = s.t0 := rfl
@[simp] theorem countUp_comp (s : Any.State k) : (countUp s).comp = s.comp := rfl
@[simp] theorem countUp_sched (s : Any.State k) : (countUp s).sched = s.sched := rfl
@[simp] theorem countUp_cmpIe (s : Any.State k) : (countUp s).cmpIe = s.cmpIe := rfl
@[simp] theorem countUp_cmpFlag (s : Any.State k) : (countUp s).cmpFlag = s.cmpFlag := rfl
@[simp] theorem countUp_slots (s : Any.State k) : (countUp s).slots = s.slots := rfl
@[simp] theorem countUp_perEn (s : Any.State k) : (countUp s).perEn = s.perEn := rfl
@[simp] theorem countUp_perFlag (s : Any.State k) : (countUp s).perFlag = s.perFlag := rfl
@[simp] theorem countUp_perCb (s : Any.State k) : (countUp s).perCb = s.perCb := rfl
@[simp] theorem countUp_cfg (s : Any.State k) : (countUp s).cfg = s.cfg := rfl
@[simp] theorem countUp_resid (s : Any.State k) : (countUp s).resid = s.resid := rfl
@[simp] theorem countUp_lastW (s : Any.State k) : (countUp s).lastW = s.lastW := rfl
@[simp] theorem countUp_tune (s : Any.State k) : (countUp s).tune = s.tune := rfl
@[simp] theorem countUp_seq (s : Any.State k) : (countUp s).seq = s.seq := rfl
@[simp] theorem countUp_trace (s : Any.State k) : (countUp s).trace = s.trace := rfl
@[simp] theorem countUp_rsps (s : Any.State k) : (countUp s).rsps = s.rsps := rfl
@[simp] theorem countUp_port (s : Any.State k) : (countUp s).port = s.port := rfl
@[simp] theorem countUp_turns (s : Any.State k) : (countUp s).turns = s.turns := rfl
@[simp] theorem countUp_draws (s : Any.State k) : (countUp s).draws = s.draws := rfl

@[simp] theorem raisePeriodic_c (s : Any.State k) : (raisePeriodic s).c = s.c := rfl
@[simp] theorem raisePeriodic_t0 (s : Any.State k) : (raisePeriodic s).t0 = s.t0 := rfl
@[simp] theorem raisePeriodic_comp (s : Any.State k) : (raisePeriodic s).comp = s.comp := rfl
@[simp] theorem raisePeriodic_sched (s : Any.State k) : (raisePeriodic s).sched = s.sched := rfl
@[simp] theorem raisePeriodic_cmpIe (s : Any.State k) : (raisePeriodic s).cmpIe = s.cmpIe := rfl
@[simp] theorem raisePeriodic_cmpFlag (s : Any.State k) : (raisePeriodic s).cmpFlag = s.cmpFlag := rfl
@[simp] theorem raisePeriodic_slots (s : Any.State k) : (raisePeriodic s).slots = s.slots := rfl
@[simp] theorem raisePeriodic_perEn (s : Any.State k) : (raisePeriodic s).perEn = s.perEn := rfl
@[simp] theorem raisePeriodic_perFlag (s : Any.State k) : (raisePeriodic s).perFlag = s.perFlag ||| perEvents s.c := rfl
@[simp] theorem raisePeriodic_perCb (s : Any.State k) : (raisePeriodic s).perCb = s.perCb := rfl
@[simp] theorem raisePeriodic_cfg (s : Any.State k) : (raisePeriodic s).cfg = s.cfg := rfl
@[simp] theorem raisePeriodic_resid (s : Any.State k) : (raisePeriodic s).resid = s.resid := rfl
@[simp] theorem raisePeriodic_lastW (s : Any.State k) : (raisePeriodic s).lastW = s.lastW := rfl
@[simp] theorem raisePeriodic_tune (s : Any.State k) : (raisePeriodic s).tune = s.tune := rfl
@[simp] theorem raisePeriodic_seq (s : Any.State k) : (raisePeriodic s).seq = s.seq := rfl
@[simp] theorem raisePeriodic_trace (s : Any.State k) : (raisePeriodic s).trace = s.trace := rfl
@[simp] theorem raisePeriodic_rsps (s : Any.State k) : (raisePeriodic s).rsps = s.rsps := rfl
@[simp] theorem raisePeriodic_port (s : Any.State k) : (raisePeriodic s).port = s.port := rfl
@[simp] theorem raisePeriodic_turns (s : Any.State k) : (raisePeriodic s).turns = s.turns := rfl
@[simp] theorem raisePeriodic_draws (s : Any.State k) : (raisePeriodic s).draws = s.draws := rfl

@[simp] theorem matchCompare_c (s : Any.State k) : (matchCompare s).c = s.c := rfl
@[simp] theorem matchCompare_t0 (s : Any.State k) : (matchCompare s).t0 = s.t0 := rfl
@[simp] theorem matchCompare_comp (s : Any.State k) : (matchCompare s).comp = s.comp := rfl
@[simp] theorem matchCompare_sched (s : Any.State k) : (matchCompare s).sched = s.sched := rfl
@[simp] theorem matchCompare_cmpIe (s : Any.State k) : (matchCompare s).cmpIe = s.cmpIe := rfl
@[simp] theorem matchCompare_cmpFlag (s : Any.State k) :
    (matchCompare s).cmpFlag = (s.cmpFlag || compareMatch s s.c) := rfl
@[simp] theorem matchCompare_slots (s : Any.State k) : (matchCompare s).slots = s.slots := rfl
@[simp] theorem matchCompare_perEn (s : Any.State k) : (matchCompare s).perEn = s.perEn := rfl
@[simp] theorem matchCompare_perFlag (s : Any.State k) : (matchCompare s).perFlag = s.perFlag := rfl
@[simp] theorem matchCompare_perCb (s : Any.State k) : (matchCompare s).perCb = s.perCb := rfl
@[simp] theorem matchCompare_cfg (s : Any.State k) : (matchCompare s).cfg = s.cfg := rfl
@[simp] theorem matchCompare_resid (s : Any.State k) : (matchCompare s).resid = s.resid := rfl
@[simp] theorem matchCompare_lastW (s : Any.State k) : (matchCompare s).lastW = s.lastW := rfl
@[simp] theorem matchCompare_tune (s : Any.State k) : (matchCompare s).tune = s.tune := rfl
@[simp] theorem matchCompare_seq (s : Any.State k) : (matchCompare s).seq = s.seq := rfl
@[simp] theorem matchCompare_trace (s : Any.State k) : (matchCompare s).trace = s.trace := rfl
@[simp] theorem matchCompare_rsps (s : Any.State k) : (matchCompare s).rsps = s.rsps := rfl
@[simp] theorem matchCompare_port (s : Any.State k) : (matchCompare s).port = s.port := rfl
@[simp] theorem matchCompare_turns (s : Any.State k) : (matchCompare s).turns = s.turns := rfl
@[simp] theorem matchCompare_draws (s : Any.State k) : (matchCompare s).draws = s.draws := rfl

@[simp] theorem fillPeriodic_c (cb : BitVec k.cbWidth) (n : Fin 8) (s : Any.State k) :
    (fillPeriodic cb n s).c = s.c := rfl
@[simp] theorem fillPeriodic_t0 (cb : BitVec k.cbWidth) (n : Fin 8) (s : Any.State k) :
    (fillPeriodic cb n s).t0 = s.t0 := rfl
@[simp] theorem fillPeriodic_comp (cb : BitVec k.cbWidth) (n : Fin 8) (s : Any.State k) :
    (fillPeriodic cb n s).comp = s.comp := rfl
@[simp] theorem fillPeriodic_sched (cb : BitVec k.cbWidth) (n : Fin 8) (s : Any.State k) :
    (fillPeriodic cb n s).sched = s.sched := rfl
@[simp] theorem fillPeriodic_cmpIe (cb : BitVec k.cbWidth) (n : Fin 8) (s : Any.State k) :
    (fillPeriodic cb n s).cmpIe = s.cmpIe := rfl
@[simp] theorem fillPeriodic_cmpFlag (cb : BitVec k.cbWidth) (n : Fin 8) (s : Any.State k) :
    (fillPeriodic cb n s).cmpFlag = s.cmpFlag := rfl
@[simp] theorem fillPeriodic_slots (cb : BitVec k.cbWidth) (n : Fin 8) (s : Any.State k) :
    (fillPeriodic cb n s).slots = s.slots := rfl
@[simp] theorem fillPeriodic_perEn (cb : BitVec k.cbWidth) (n : Fin 8) (s : Any.State k) :
    (fillPeriodic cb n s).perEn = s.perEn ||| perBit n := rfl
@[simp] theorem fillPeriodic_perFlag (cb : BitVec k.cbWidth) (n : Fin 8) (s : Any.State k) :
    (fillPeriodic cb n s).perFlag = (if s.perEn.getLsbD n.val then s.perFlag else s.perFlag &&& ~~~ perBit n) := rfl
@[simp] theorem fillPeriodic_perCb (cb : BitVec k.cbWidth) (n : Fin 8) (s : Any.State k) :
    (fillPeriodic cb n s).perCb = s.perCb.set n cb := rfl
@[simp] theorem fillPeriodic_cfg (cb : BitVec k.cbWidth) (n : Fin 8) (s : Any.State k) :
    (fillPeriodic cb n s).cfg = s.cfg := rfl
@[simp] theorem fillPeriodic_resid (cb : BitVec k.cbWidth) (n : Fin 8) (s : Any.State k) :
    (fillPeriodic cb n s).resid = s.resid := rfl
@[simp] theorem fillPeriodic_lastW (cb : BitVec k.cbWidth) (n : Fin 8) (s : Any.State k) :
    (fillPeriodic cb n s).lastW = s.lastW := rfl
@[simp] theorem fillPeriodic_tune (cb : BitVec k.cbWidth) (n : Fin 8) (s : Any.State k) :
    (fillPeriodic cb n s).tune = s.tune := rfl
@[simp] theorem fillPeriodic_seq (cb : BitVec k.cbWidth) (n : Fin 8) (s : Any.State k) :
    (fillPeriodic cb n s).seq = s.seq := rfl
@[simp] theorem fillPeriodic_trace (cb : BitVec k.cbWidth) (n : Fin 8) (s : Any.State k) :
    (fillPeriodic cb n s).trace = s.trace := rfl
@[simp] theorem fillPeriodic_rsps (cb : BitVec k.cbWidth) (n : Fin 8) (s : Any.State k) :
    (fillPeriodic cb n s).rsps = s.rsps := rfl
@[simp] theorem fillPeriodic_port (cb : BitVec k.cbWidth) (n : Fin 8) (s : Any.State k) :
    (fillPeriodic cb n s).port = s.port := rfl
@[simp] theorem fillPeriodic_turns (cb : BitVec k.cbWidth) (n : Fin 8) (s : Any.State k) :
    (fillPeriodic cb n s).turns = s.turns := rfl
@[simp] theorem fillPeriodic_draws (cb : BitVec k.cbWidth) (n : Fin 8) (s : Any.State k) :
    (fillPeriodic cb n s).draws = s.draws := rfl

@[simp] theorem disablePeriodic_c (bits : Byte) (s : Any.State k) : (disablePeriodic bits s).c = s.c := rfl
@[simp] theorem disablePeriodic_t0 (bits : Byte) (s : Any.State k) : (disablePeriodic bits s).t0 = s.t0 := rfl
@[simp] theorem disablePeriodic_comp (bits : Byte) (s : Any.State k) : (disablePeriodic bits s).comp = s.comp := rfl
@[simp] theorem disablePeriodic_sched (bits : Byte) (s : Any.State k) : (disablePeriodic bits s).sched = s.sched := rfl
@[simp] theorem disablePeriodic_cmpIe (bits : Byte) (s : Any.State k) : (disablePeriodic bits s).cmpIe = s.cmpIe := rfl
@[simp] theorem disablePeriodic_cmpFlag (bits : Byte) (s : Any.State k) :
    (disablePeriodic bits s).cmpFlag = s.cmpFlag := rfl
@[simp] theorem disablePeriodic_slots (bits : Byte) (s : Any.State k) : (disablePeriodic bits s).slots = s.slots := rfl
@[simp] theorem disablePeriodic_perEn (bits : Byte) (s : Any.State k) :
    (disablePeriodic bits s).perEn = s.perEn &&& ~~~ bits := rfl
@[simp] theorem disablePeriodic_perFlag (bits : Byte) (s : Any.State k) :
    (disablePeriodic bits s).perFlag = s.perFlag := rfl
@[simp] theorem disablePeriodic_perCb (bits : Byte) (s : Any.State k) : (disablePeriodic bits s).perCb = s.perCb := rfl
@[simp] theorem disablePeriodic_cfg (bits : Byte) (s : Any.State k) : (disablePeriodic bits s).cfg = s.cfg := rfl
@[simp] theorem disablePeriodic_resid (bits : Byte) (s : Any.State k) : (disablePeriodic bits s).resid = s.resid := rfl
@[simp] theorem disablePeriodic_lastW (bits : Byte) (s : Any.State k) : (disablePeriodic bits s).lastW = s.lastW := rfl
@[simp] theorem disablePeriodic_tune (bits : Byte) (s : Any.State k) : (disablePeriodic bits s).tune = s.tune := rfl
@[simp] theorem disablePeriodic_seq (bits : Byte) (s : Any.State k) : (disablePeriodic bits s).seq = s.seq := rfl
@[simp] theorem disablePeriodic_trace (bits : Byte) (s : Any.State k) : (disablePeriodic bits s).trace = s.trace := rfl
@[simp] theorem disablePeriodic_rsps (bits : Byte) (s : Any.State k) : (disablePeriodic bits s).rsps = s.rsps := rfl
@[simp] theorem disablePeriodic_port (bits : Byte) (s : Any.State k) : (disablePeriodic bits s).port = s.port := rfl
@[simp] theorem disablePeriodic_turns (bits : Byte) (s : Any.State k) : (disablePeriodic bits s).turns = s.turns := rfl
@[simp] theorem disablePeriodic_draws (bits : Byte) (s : Any.State k) : (disablePeriodic bits s).draws = s.draws := rfl

@[simp] theorem disarm_c (s : Any.State k) : (disarm s).c = s.c := rfl
@[simp] theorem disarm_t0 (s : Any.State k) : (disarm s).t0 = s.t0 := rfl
@[simp] theorem disarm_comp (s : Any.State k) : (disarm s).comp = s.comp := rfl
@[simp] theorem disarm_sched (s : Any.State k) : (disarm s).sched = sentinel k s.c := rfl
@[simp] theorem disarm_cmpIe (s : Any.State k) : (disarm s).cmpIe = false := rfl
@[simp] theorem disarm_cmpFlag (s : Any.State k) : (disarm s).cmpFlag = false := rfl
@[simp] theorem disarm_slots (s : Any.State k) : (disarm s).slots = s.slots := rfl
@[simp] theorem disarm_perEn (s : Any.State k) : (disarm s).perEn = s.perEn := rfl
@[simp] theorem disarm_perFlag (s : Any.State k) : (disarm s).perFlag = s.perFlag := rfl
@[simp] theorem disarm_perCb (s : Any.State k) : (disarm s).perCb = s.perCb := rfl
@[simp] theorem disarm_cfg (s : Any.State k) : (disarm s).cfg = s.cfg := rfl
@[simp] theorem disarm_resid (s : Any.State k) : (disarm s).resid = s.resid := rfl
@[simp] theorem disarm_lastW (s : Any.State k) : (disarm s).lastW = s.lastW := rfl
@[simp] theorem disarm_tune (s : Any.State k) : (disarm s).tune = s.tune := rfl
@[simp] theorem disarm_seq (s : Any.State k) : (disarm s).seq = s.seq := rfl
@[simp] theorem disarm_trace (s : Any.State k) : (disarm s).trace = s.trace := rfl
@[simp] theorem disarm_rsps (s : Any.State k) : (disarm s).rsps = s.rsps := rfl
@[simp] theorem disarm_port (s : Any.State k) : (disarm s).port = s.port := rfl
@[simp] theorem disarm_turns (s : Any.State k) : (disarm s).turns = s.turns := rfl
@[simp] theorem disarm_draws (s : Any.State k) : (disarm s).draws = s.draws := rfl

@[simp] theorem arm_c (d : Word) (s : Any.State k) : (arm d s).c = s.c := rfl
@[simp] theorem arm_t0 (d : Word) (s : Any.State k) : (arm d s).t0 = s.t0 := rfl
@[simp] theorem arm_comp (d : Word) (s : Any.State k) : (arm d s).comp = armValue k s.c d := rfl
@[simp] theorem arm_sched (d : Word) (s : Any.State k) : (arm d s).sched = armValue k s.c d := rfl
@[simp] theorem arm_cmpIe (d : Word) (s : Any.State k) : (arm d s).cmpIe = true := rfl
@[simp] theorem arm_cmpFlag (d : Word) (s : Any.State k) : (arm d s).cmpFlag = s.cmpFlag := rfl
@[simp] theorem arm_slots (d : Word) (s : Any.State k) : (arm d s).slots = s.slots := rfl
@[simp] theorem arm_perEn (d : Word) (s : Any.State k) : (arm d s).perEn = s.perEn := rfl
@[simp] theorem arm_perFlag (d : Word) (s : Any.State k) : (arm d s).perFlag = s.perFlag := rfl
@[simp] theorem arm_perCb (d : Word) (s : Any.State k) : (arm d s).perCb = s.perCb := rfl
@[simp] theorem arm_cfg (d : Word) (s : Any.State k) : (arm d s).cfg = s.cfg := rfl
@[simp] theorem arm_resid (d : Word) (s : Any.State k) : (arm d s).resid = s.resid := rfl
@[simp] theorem arm_lastW (d : Word) (s : Any.State k) : (arm d s).lastW = s.lastW := rfl
@[simp] theorem arm_tune (d : Word) (s : Any.State k) : (arm d s).tune = s.tune := rfl
@[simp] theorem arm_seq (d : Word) (s : Any.State k) : (arm d s).seq = s.seq := rfl
@[simp] theorem arm_trace (d : Word) (s : Any.State k) : (arm d s).trace = s.trace := rfl
@[simp] theorem arm_rsps (d : Word) (s : Any.State k) : (arm d s).rsps = s.rsps := rfl
@[simp] theorem arm_port (d : Word) (s : Any.State k) : (arm d s).port = s.port := rfl
@[simp] theorem arm_turns (d : Word) (s : Any.State k) : (arm d s).turns = s.turns := rfl
@[simp] theorem arm_draws (d : Word) (s : Any.State k) : (arm d s).draws = s.draws := rfl

@[simp] theorem passSlot_c (i : Fin k.nComp) (s : Any.State k) : (passSlot i s).c = s.c := rfl
@[simp] theorem passSlot_t0 (i : Fin k.nComp) (s : Any.State k) : (passSlot i s).t0 = s.t0 := rfl
@[simp] theorem passSlot_comp (i : Fin k.nComp) (s : Any.State k) : (passSlot i s).comp = s.comp := rfl
@[simp] theorem passSlot_sched (i : Fin k.nComp) (s : Any.State k) : (passSlot i s).sched = s.sched := rfl
@[simp] theorem passSlot_cmpIe (i : Fin k.nComp) (s : Any.State k) : (passSlot i s).cmpIe = s.cmpIe := rfl
@[simp] theorem passSlot_cmpFlag (i : Fin k.nComp) (s : Any.State k) : (passSlot i s).cmpFlag = s.cmpFlag := rfl
@[simp] theorem passSlot_slots (i : Fin k.nComp) (s : Any.State k) : (passSlot i s).slots = s.slots := rfl
@[simp] theorem passSlot_perEn (i : Fin k.nComp) (s : Any.State k) : (passSlot i s).perEn = s.perEn := rfl
@[simp] theorem passSlot_perFlag (i : Fin k.nComp) (s : Any.State k) : (passSlot i s).perFlag = s.perFlag := rfl
@[simp] theorem passSlot_perCb (i : Fin k.nComp) (s : Any.State k) : (passSlot i s).perCb = s.perCb := rfl
@[simp] theorem passSlot_cfg (i : Fin k.nComp) (s : Any.State k) : (passSlot i s).cfg = s.cfg := rfl
@[simp] theorem passSlot_resid (i : Fin k.nComp) (s : Any.State k) : (passSlot i s).resid = s.resid := rfl
@[simp] theorem passSlot_lastW (i : Fin k.nComp) (s : Any.State k) : (passSlot i s).lastW = s.lastW := rfl
@[simp] theorem passSlot_tune (i : Fin k.nComp) (s : Any.State k) : (passSlot i s).tune = s.tune := rfl
@[simp] theorem passSlot_seq (i : Fin k.nComp) (s : Any.State k) :
    (passSlot i s).seq = { s.seq with cursor := i.val + 1 } := rfl
@[simp] theorem passSlot_trace (i : Fin k.nComp) (s : Any.State k) : (passSlot i s).trace = s.trace := rfl
@[simp] theorem passSlot_rsps (i : Fin k.nComp) (s : Any.State k) : (passSlot i s).rsps = s.rsps := rfl
@[simp] theorem passSlot_port (i : Fin k.nComp) (s : Any.State k) : (passSlot i s).port = s.port := rfl
@[simp] theorem passSlot_turns (i : Fin k.nComp) (s : Any.State k) : (passSlot i s).turns = s.turns := rfl
@[simp] theorem passSlot_draws (i : Fin k.nComp) (s : Any.State k) : (passSlot i s).draws = s.draws := rfl

@[simp] theorem periodicEntry_c (s : Any.State k) : (periodicEntry s).c = s.c := rfl
@[simp] theorem periodicEntry_t0 (s : Any.State k) : (periodicEntry s).t0 = s.t0 := rfl
@[simp] theorem periodicEntry_comp (s : Any.State k) : (periodicEntry s).comp = s.comp := rfl
@[simp] theorem periodicEntry_sched (s : Any.State k) : (periodicEntry s).sched = s.sched := rfl
@[simp] theorem periodicEntry_cmpIe (s : Any.State k) : (periodicEntry s).cmpIe = s.cmpIe := rfl
@[simp] theorem periodicEntry_cmpFlag (s : Any.State k) : (periodicEntry s).cmpFlag = s.cmpFlag := rfl
@[simp] theorem periodicEntry_slots (s : Any.State k) : (periodicEntry s).slots = s.slots := rfl
@[simp] theorem periodicEntry_perEn (s : Any.State k) : (periodicEntry s).perEn = s.perEn := rfl
@[simp] theorem periodicEntry_perFlag (s : Any.State k) : (periodicEntry s).perFlag = 0 := rfl
@[simp] theorem periodicEntry_perCb (s : Any.State k) : (periodicEntry s).perCb = s.perCb := rfl
@[simp] theorem periodicEntry_cfg (s : Any.State k) : (periodicEntry s).cfg = s.cfg := rfl
@[simp] theorem periodicEntry_resid (s : Any.State k) : (periodicEntry s).resid = s.resid := rfl
@[simp] theorem periodicEntry_lastW (s : Any.State k) : (periodicEntry s).lastW = s.lastW := rfl
@[simp] theorem periodicEntry_tune (s : Any.State k) : (periodicEntry s).tune = s.tune := rfl
@[simp] theorem periodicEntry_seq (s : Any.State k) :
    (periodicEntry s).seq = { s.seq with mode := .per, cursor := 7, psnap := s.perPending, inCb := false } := rfl
@[simp] theorem periodicEntry_trace (s : Any.State k) : (periodicEntry s).trace = s.trace := rfl
@[simp] theorem periodicEntry_rsps (s : Any.State k) : (periodicEntry s).rsps = s.rsps := rfl
@[simp] theorem periodicEntry_port (s : Any.State k) : (periodicEntry s).port = s.port := rfl
@[simp] theorem periodicEntry_turns (s : Any.State k) : (periodicEntry s).turns = s.turns := rfl
@[simp] theorem periodicEntry_draws (s : Any.State k) : (periodicEntry s).draws = s.draws := rfl

@[simp] theorem compareEntry_c (s : Any.State k) : (compareEntry s).c = s.c := rfl
@[simp] theorem compareEntry_t0 (s : Any.State k) : (compareEntry s).t0 = s.t0 := rfl
@[simp] theorem compareEntry_comp (s : Any.State k) : (compareEntry s).comp = s.comp := rfl
@[simp] theorem compareEntry_sched (s : Any.State k) : (compareEntry s).sched = s.sched := rfl
@[simp] theorem compareEntry_cmpIe (s : Any.State k) : (compareEntry s).cmpIe = s.cmpIe := rfl
@[simp] theorem compareEntry_cmpFlag (s : Any.State k) : (compareEntry s).cmpFlag = false := rfl
@[simp] theorem compareEntry_slots (s : Any.State k) : (compareEntry s).slots = s.slots := rfl
@[simp] theorem compareEntry_perEn (s : Any.State k) : (compareEntry s).perEn = s.perEn := rfl
@[simp] theorem compareEntry_perFlag (s : Any.State k) : (compareEntry s).perFlag = s.perFlag := rfl
@[simp] theorem compareEntry_perCb (s : Any.State k) : (compareEntry s).perCb = s.perCb := rfl
@[simp] theorem compareEntry_cfg (s : Any.State k) : (compareEntry s).cfg = s.cfg := rfl
@[simp] theorem compareEntry_resid (s : Any.State k) : (compareEntry s).resid = s.resid := rfl
@[simp] theorem compareEntry_lastW (s : Any.State k) : (compareEntry s).lastW = s.lastW := rfl
@[simp] theorem compareEntry_tune (s : Any.State k) : (compareEntry s).tune = s.tune := rfl
@[simp] theorem compareEntry_seq (s : Any.State k) :
    (compareEntry s).seq = { s.seq with mode := .cmp, cursor := 0, clatch := s.c, inCb := false } := rfl
@[simp] theorem compareEntry_trace (s : Any.State k) : (compareEntry s).trace = s.trace := rfl
@[simp] theorem compareEntry_rsps (s : Any.State k) : (compareEntry s).rsps = s.rsps := rfl
@[simp] theorem compareEntry_port (s : Any.State k) : (compareEntry s).port = s.port := rfl
@[simp] theorem compareEntry_turns (s : Any.State k) : (compareEntry s).turns = s.turns := rfl
@[simp] theorem compareEntry_draws (s : Any.State k) : (compareEntry s).draws = s.draws := rfl

end Sys2Proof.Machine
end

