-- ==== Sys2Proof/Laws/Ops.lean ====
section
/-! SUPPORT. For each shared operation one lemma that says once everything it can do; a proof cites it instead of
unfolding the operation. -/

namespace Sys2Proof.Machine

variable {k : Config}

theorem taken_allowed : Config.taken.Allowed := ⟨by decide, by decide, by decide, by decide, by decide⟩

@[simp] theorem graceWord_taken : Config.taken.graceWord = 4#32 := rfl

/-- In the configuration the spec takes a token is the whole field `A`. -/
@[simp] theorem tokenOf_taken (a : Word) : tokenOf 32 a = a := BitVec.setWidth_eq a

theorem withSlot_of_lt {idx : Nat} (h : idx < k.nComp) (f : Fin k.nComp → Any.State k → Any.State k) (s : Any.State k) :
    withSlot idx f s = f ⟨idx, h⟩ s := dif_pos h

theorem withSlot_of_le {idx : Nat} (h : k.nComp ≤ idx) (f : Fin k.nComp → Any.State k → Any.State k) (s : Any.State k) :
    withSlot idx f s = s := dif_neg (Nat.not_lt.mpr h)

/-- A compare command acts on its slot, or is ignored. -/
theorem withSlot_cases (idx : Nat) (f : Fin k.nComp → Any.State k → Any.State k) (s : Any.State k) :
    (∃ i : Fin k.nComp, i.val = idx ∧ withSlot idx f s = f i s) ∨
      (k.nComp ≤ idx ∧ withSlot idx f s = s) := by
  by_cases h : idx < k.nComp
  · exact .inl ⟨⟨idx, h⟩, rfl, withSlot_of_lt h f s⟩
  · exact .inr ⟨Nat.not_lt.mp h, withSlot_of_le (Nat.not_lt.mp h) f s⟩

/-- The slot of a frequency: the eight frequencies and no other. -/
theorem slotOf_eq_some {freq : Nat} {n : Fin 8} : slotOf freq = some n ↔ freq = 2 ^ (7 - n.val) := by
  constructor
  · intro h
    unfold slotOf at h
    split at h <;> first | (cases h; rfl) | cases h
  · rintro rfl
    revert n
    decide

/-- A periodic command acts on the slot of its frequency, or is ignored. -/
theorem withFreq_cases (freq : Nat) (f : Fin 8 → Any.State k → Any.State k) (s : Any.State k) :
    (∃ n : Fin 8, freq = 2 ^ (7 - n.val) ∧ withFreq freq f s = f n s) ∨
      ((∀ n : Fin 8, freq ≠ 2 ^ (7 - n.val)) ∧ withFreq freq f s = s) := by
  unfold withFreq
  cases h : slotOf freq with
  | some n => exact .inl ⟨n, slotOf_eq_some.mp h, rfl⟩
  | none =>
    refine .inr ⟨fun n hn => ?_, rfl⟩
    rw [slotOf_eq_some.mpr hn] at h
    cases h

/-- The schedule stands, or the channel is armed (R142 steps 5 to 7). -/
theorem standOrArm_cases (d : Word) (s : Any.State k) :
    (s.cmpIe = true ∧ d = s.sched ∧ standOrArm d s = s) ∨
      (¬ (s.cmpIe = true ∧ d = s.sched) ∧ standOrArm d s = arm d s) := by
  unfold standOrArm
  by_cases h : s.cmpIe = true ∧ d = s.sched
  · exact .inl ⟨h.1, h.2, if_pos h⟩
  · exact .inr ⟨h, if_neg h⟩

/-- The arbiter disarms when it has no winner, and otherwise stands or arms for the winner (R142). -/
theorem scheduleNext_cases (s : Any.State k) :
    (winner k s.c s.slots = none ∧ scheduleNext s = disarm s) ∨
      ∃ w, winner k s.c s.slots = some w ∧
        ((s.cmpIe = true ∧ s.slots[w].deadline = s.sched ∧ scheduleNext s = s) ∨
          (¬ (s.cmpIe = true ∧ s.slots[w].deadline = s.sched) ∧ scheduleNext s = arm s.slots[w].deadline s)) := by
  unfold scheduleNext
  cases h : winner k s.c s.slots with
  | none => exact .inl ⟨rfl, rfl⟩
  | some w => exact .inr ⟨w, rfl, standOrArm_cases _ s⟩

/-- The arbiter writes the four registers of the compare channel and nothing else (R39). -/
theorem scheduleNext_frame (s : Any.State k) :
    scheduleNext s = { s with comp := (scheduleNext s).comp, sched := (scheduleNext s).sched,
                              cmpIe := (scheduleNext s).cmpIe, cmpFlag := (scheduleNext s).cmpFlag } := by
  obtain ⟨-, h⟩ | ⟨w, -, ⟨-, -, h⟩ | ⟨-, h⟩⟩ := scheduleNext_cases s <;> rw [h] <;> rfl

/-- The enabled slots are listed in rising order, and are exactly the enabled ones. -/
theorem mem_enabledSlots {w n : Nat} {slots : Vector (Slot w) n} {i : Fin n} :
    i ∈ enabledSlots slots ↔ slots[i].enabled = true := by
  simp [enabledSlots]

/-- There is no winner exactly when no slot is enabled. -/
theorem winner_eq_none {w n : Nat} {slots : Vector (Slot w) n} :
    winner k now slots = none ↔ ∀ i : Fin n, slots[i].enabled = false := by
  unfold winner
  have h : (∀ i : Fin n, slots[i].enabled = false) ↔ enabledSlots slots = [] := by
    rw [List.eq_nil_iff_forall_not_mem]
    simp only [mem_enabledSlots, Bool.not_eq_true]
  rw [h]
  cases enabledSlots slots <;> simp

/-- Write elision (R184): the value is cached already, or register and cache take it and an event says so. -/
theorem writeTune_cases (v : Byte) (s : Any.State k) :
    (s.lastW = some v ∧ writeTune v s = s) ∨
      (s.lastW ≠ some v ∧ writeTune v s = emit (.tuneWr v) { s with tune := v, lastW := some v }) := by
  unfold writeTune
  by_cases h : s.lastW = some v
  · exact .inl ⟨h, if_pos h⟩
  · exact .inr ⟨h, if_neg h⟩

/-- The overflow detector (R102). -/
theorem detectOverflow_cases (s : Any.State k) :
    (s.c = 0 ∧ detectOverflow s = emit .ovf { s with t0 := s.t0 + Config.overflowSeconds }) ∨
      (s.c ≠ 0 ∧ detectOverflow s = s) := by
  unfold detectOverflow
  by_cases h : s.c = 0
  · exact .inl ⟨h, if_pos h⟩
  · exact .inr ⟨h, if_neg h⟩

/-- A periodic scan step ends the pass or invokes one slot of the snapshot, the highest (R219). -/
theorem periodicScan_cases (s : Any.State k) :
    (highestSlot s.seq.psnap = none ∧ periodicScan s = closePass s) ∨
      ∃ n, highestSlot s.seq.psnap = some n ∧ periodicScan s = invokePeriodic n s := by
  unfold periodicScan
  cases h : highestSlot s.seq.psnap with
  | none => exact .inl ⟨rfl, rfl⟩
  | some n => exact .inr ⟨n, rfl, rfl⟩

/-- A step of a compare pass scans one slot, which fires or not, or finishes the pass (R222, R223). -/
theorem compareStep_cases (s : Any.State k) :
    (∃ i : Fin k.nComp, i.val = s.seq.cursor ∧
      ((s.slots[i].due k s.seq.clatch = true ∧ compareStep s = fireSlot i (passSlot i s)) ∨
        (s.slots[i].due k s.seq.clatch = false ∧ compareStep s = passSlot i s))) ∨
      (s.seq.cursor = k.nComp ∧ compareStep s = compareFinish s) ∨
      (k.nComp < s.seq.cursor ∧ compareStep s = s) := by
  unfold compareStep
  by_cases h : s.seq.cursor < k.nComp
  · rw [dif_pos h]
    refine .inl ⟨⟨s.seq.cursor, h⟩, rfl, ?_⟩
    unfold compareScan
    cases hd : Slot.due k s.slots[(⟨s.seq.cursor, h⟩ : Fin k.nComp)] s.seq.clatch <;> simp
  · rw [dif_neg h]
    by_cases h' : s.seq.cursor = k.nComp
    · exact .inr (.inl ⟨h', if_pos h'⟩)
    · exact .inr (.inr ⟨by omega, if_neg h'⟩)

/-- The entry an idle sequencer takes (R218, R221, R225). -/
theorem serviceEntry_cases (first : Service) (s : Any.State k) :
    (s.perRequest = true ∧ (s.cmpRequest = false ∨ first = .periodic) ∧ serviceEntry first s = periodicEntry s) ∨
      (s.cmpRequest = true ∧ (s.perRequest = false ∨ first = .compare) ∧ serviceEntry first s = compareEntry s) ∨
      (s.perRequest = false ∧ s.cmpRequest = false ∧ serviceEntry first s = s) := by
  unfold serviceEntry
  cases s.perRequest <;> cases s.cmpRequest <;> cases first <;> simp

/-- What the sequencer's turn can be (R214, R216). -/
theorem serviceStep_cases (first : Service) (s : Any.State k) :
    (s.seq.mode = .idle ∧ serviceStep first s = serviceEntry first s) ∨
      (s.seq.mode = .per ∧ s.seq.inCb = false ∧ serviceStep first s = periodicScan s) ∨
      (s.seq.mode = .cmp ∧ s.seq.inCb = false ∧ serviceStep first s = compareStep s) ∨
      (s.seq.mode ≠ .idle ∧ s.seq.inCb = true ∧ serviceStep first s = s) := by
  unfold serviceStep
  cases s.seq.mode <;> cases s.seq.inCb <;> simp

/-! Every command's meaning is a next state, that of the operation of its name. -/

@[simp] theorem exec_setEpoch (u : Word) (s : State) : exec (.setEpoch u) s = .next (setEpoch u s) := rfl
@[simp] theorem exec_getUnixTime (s : State) : exec .getUnixTime s = .next (getUnixTime s) := rfl
@[simp] theorem exec_getCounter (s : State) : exec .getCounter s = .next (getCounter s) := rfl
@[simp] theorem exec_getEpoch (s : State) : exec .getEpoch s = .next (getEpoch s) := rfl
@[simp] theorem exec_perRegister (cb : Word) (freq : Nat) (s : State) :
    exec (.perRegister cb freq) s = .next (perRegister cb freq s) := rfl
@[simp] theorem exec_perDisable (freq : Nat) (s : State) : exec (.perDisable freq) s = .next (perDisable freq s) := rfl
@[simp] theorem exec_perDisableMask (bits : Byte) (s : State) :
    exec (.perDisableMask bits) s = .next (perDisableMask bits s) := rfl
@[simp] theorem exec_perDisableAll (s : State) : exec .perDisableAll s = .next (perDisableAll s) := rfl
@[simp] theorem exec_compRegister (idx : Nat) (cb d : Word) (s : State) :
    exec (.compRegister idx cb d) s = .next (compRegister idx cb d s) := rfl
@[simp] theorem exec_compRegisterNs (idx : Nat) (cb d : Word) (s : State) :
    exec (.compRegisterNs idx cb d) s = .next (compRegisterNs idx cb d s) := rfl
@[simp] theorem exec_compDisable (idx : Nat) (s : State) : exec (.compDisable idx) s = .next (compDisable idx s) := rfl
@[simp] theorem exec_compDisableNs (idx : Nat) (s : State) :
    exec (.compDisableNs idx) s = .next (compDisableNs idx s) := rfl
@[simp] theorem exec_compScheduleNext (s : State) : exec .compScheduleNext s = .next (compScheduleNext s) := rfl
@[simp] theorem exec_compIsEnabled (idx : Nat) (s : State) :
    exec (.compIsEnabled idx) s = .next (compIsEnabled idx s) := rfl
@[simp] theorem exec_getSched (s : State) : exec .getSched s = .next (getSched s) := rfl
@[simp] theorem exec_fcApply (rst : Bool) (temp mv : Half) (s : State) :
    exec (.fcApply rst temp mv) s = .next (fcApply rst temp mv s) := rfl
@[simp] theorem exec_fcSetProfile (p : Nat) (s : State) : exec (.fcSetProfile p) s = .next (fcSetProfile p s) := rfl
@[simp] theorem exec_fcCfgWr (f : CfgField) (v : Word) (s : State) :
    exec (.fcCfgWr f v) s = .next (fcCfgWr f v s) := rfl
@[simp] theorem exec_fcCfgRd (f : CfgField) (s : State) : exec (.fcCfgRd f) s = .next (fcCfgRd f s) := rfl
@[simp] theorem exec_fcDue (s : State) : exec .fcDue s = .next (fcDue s) := rfl
@[simp] theorem exec_getTune (s : State) : exec .getTune s = .next (getTune s) := rfl
@[simp] theorem exec_cbRet (s : State) : exec .cbRet s = .next (cbRet s) := rfl

/-- An accepted word is a command, which is executed, or reserved, which changes nothing (R85). -/
theorem runWord_cases (w : CmdWord) (s : State) :
    (∃ i, decode w = .ok i ∧ runWord w s = exec i s) ∨ (∃ e, decode w = .error e ∧ runWord w s = .next s) := by
  unfold runWord
  cases decode w with
  | ok i => exact .inl ⟨i, rfl, rfl⟩
  | error e => exact .inr ⟨e, rfl, rfl⟩

/-- What a step that goes on can be: one case per agent (R210). -/
theorem step_cases {s t : State} (h : step s = .next t) :
    (s.nextTurn = .tick ∧ t = tick s.passTurn) ∨
      (s.nextTurn = .command ∧ s.passTurn.accepting = false ∧ t = s.passTurn) ∨
      (s.nextTurn = .command ∧ s.passTurn.accepting = true ∧
        runWord s.passTurn.presented s.passTurn.takeCommand = .next t) ∨
      (∃ first, s.nextTurn = .service first ∧ t = serviceStep first s.passTurn) ∨
      (s.nextTurn = .coldReset ∧ t = coldResetStep s.passTurn) := by
  unfold step runTurn at h
  cases hn : s.nextTurn with
  | tick => rw [hn] at h; cases h; exact .inl ⟨rfl, rfl⟩
  | service f => rw [hn] at h; cases h; exact .inr (.inr (.inr (.inl ⟨f, rfl, rfl⟩)))
  | coldReset => rw [hn] at h; cases h; exact .inr (.inr (.inr (.inr ⟨rfl, rfl⟩)))
  | command =>
    rw [hn] at h
    simp only [hostTurn] at h
    cases ha : s.passTurn.accepting with
    | false => rw [ha] at h; cases h; exact .inr (.inl ⟨rfl, rfl, rfl⟩)
    | true => rw [ha] at h; exact .inr (.inr (.inl ⟨rfl, rfl, h⟩))

/-- Taking a turn changes the script or the draw counter, nothing else. -/
theorem passTurn_frame (s : Any.State k) :
    s.passTurn = { s with turns := s.passTurn.turns, draws := s.passTurn.draws } := by
  unfold Any.State.passTurn
  split <;> rfl

/-- Taking a command changes the port or the draw counter, nothing else. -/
theorem takeCommand_frame (s : Any.State k) :
    s.takeCommand = { s with port := s.takeCommand.port, draws := s.takeCommand.draws } := by
  unfold Any.State.takeCommand
  split <;> rfl

end Sys2Proof.Machine
end

