-- ==== Sys2Proof/Laws/PerInstr.lean ====
section
/-! SUPPORT. The families whose statements are made per instruction: a family's `Statement` is about the command as
syntax, with one lemma per constructor. -/

namespace Sys2Proof.Laws.EncodedOp

/-- The `op` field of an encoded command is the opcode of its row (spec/30_encoding.md R84). -/
def Statement (i : Instr) : Prop := opField (encode i) = i.opcode

theorem setEpoch (u : Word) : Statement (.setEpoch u) := opField_pack _ _ _ _ _
theorem getUnixTime : Statement (.getUnixTime) := opField_pack _ _ _ _ _
theorem getCounter : Statement (.getCounter) := opField_pack _ _ _ _ _
theorem getEpoch : Statement (.getEpoch) := opField_pack _ _ _ _ _
theorem perRegister (cb : Word) (freq : Nat) : Statement (.perRegister cb freq) := opField_pack _ _ _ _ _
theorem perDisable (freq : Nat) : Statement (.perDisable freq) := opField_pack _ _ _ _ _
theorem perDisableMask (bits : Byte) : Statement (.perDisableMask bits) := opField_pack _ _ _ _ _
theorem perDisableAll : Statement (.perDisableAll) := opField_pack _ _ _ _ _
theorem compRegister (idx : Nat) (cb : Word) (d : Word) : Statement (.compRegister idx cb d) := opField_pack _ _ _ _ _
theorem compRegisterNs (idx : Nat) (cb : Word) (d : Word) : Statement (.compRegisterNs idx cb d) := opField_pack _ _ _ _ _
theorem compDisable (idx : Nat) : Statement (.compDisable idx) := opField_pack _ _ _ _ _
theorem compDisableNs (idx : Nat) : Statement (.compDisableNs idx) := opField_pack _ _ _ _ _
theorem compScheduleNext : Statement (.compScheduleNext) := opField_pack _ _ _ _ _
theorem compIsEnabled (idx : Nat) : Statement (.compIsEnabled idx) := opField_pack _ _ _ _ _
theorem getSched : Statement (.getSched) := opField_pack _ _ _ _ _
theorem fcApply (rst : Bool) (temp mv : Half) : Statement (.fcApply rst temp mv) := opField_pack _ _ _ _ _
theorem fcSetProfile (p : Nat) : Statement (.fcSetProfile p) := opField_pack _ _ _ _ _
theorem fcCfgWr (field : CfgField) (value : Word) : Statement (.fcCfgWr field value) := opField_pack _ _ _ _ _
theorem fcCfgRd (field : CfgField) : Statement (.fcCfgRd field) := opField_pack _ _ _ _ _
theorem fcDue : Statement (.fcDue) := opField_pack _ _ _ _ _
theorem getTune : Statement (.getTune) := opField_pack _ _ _ _ _
theorem cbRet : Statement (.cbRet) := opField_pack _ _ _ _ _

end Sys2Proof.Laws.EncodedOp
end

