-- ==== Sys2Proof/Tests/Slice0.lean ====
section
/-! SUPPORT. Tests of this row. Expected values are the vectors of spec/95_test_vectors.md (V…, P…) or words written out
from spec/30_encoding.md R81 to R84, never the model's own output. The last part shows, for every statement with
hypotheses, a concrete state and operands that meet them. -/

namespace Sys2Proof.Tests

open Sys2Proof.Machine

/-! ## Helpers -/

/-- The state a command goes on to. -/
def after (i : Instr) (s : State) : State := nextOr s (exec i s)

/-- The response of a command, if there is one. -/
def answer (i : Instr) (s : State) : Option Word := (after i s).rsps.getLast?

/-- The state a step goes on to. -/
def stepped (s : State) : State := nextOr s (step s)

/-- Reset, with the counter at `c`. -/
def atCount (c : Word) : State := { State.reset with c := c }

/-- `s` with compare slot `i` enabled for deadline `d`. -/
def withDeadline (i : Fin Config.taken.nComp) (d : Word) (s : State) : State := fillSlot i 0xC0 d s

/-- `s` armed for `v`. -/
def armedAt (v : Word) (s : State) : State := { s with comp := v, sched := v, cmpIe := true }

/-- `s` with one scripted turn and one word on the port. -/
def offered (w : CmdWord) (s : State) : State := { s with turns := [.command], port := [w] }

/-- `s` with one scripted turn. -/
def turned (t : Turn) (s : State) : State := { s with turns := [t] }

/-- `s` in an open compare pass at cursor `k`, latched at `c`. -/
def inCompare (k : Nat) (c : Word) (cb : Bool) (s : State) : State :=
  { s with seq := { s.seq with mode := .cmp, cursor := k, clatch := c, inCb := cb } }

/-- `s` in an open periodic pass with snapshot `m`. -/
def inPeriodic (m : Byte) (cb : Bool) (s : State) : State :=
  { s with seq := { s.seq with mode := .per, cursor := 7, psnap := m, inCb := cb } }

/-- `s` with periodic enables and flags. -/
def periodicAt (en flag : Byte) (s : State) : State := { s with perEn := en, perFlag := flag }

/-- A command word from its three 32-bit words `H A B` (R80). -/
def hab (h a b : Word) : CmdWord := h ++ a ++ b

/-! ## WellFormed: a term whose operand does not fit its field is refused -/

theorem test_wf_refuses_perRegister : (Instr.perRegister 0 65536).wellFormed = false := by decide
theorem test_wf_refuses_perDisable : (Instr.perDisable 65536).wellFormed = false := by decide
theorem test_wf_refuses_compRegister : (Instr.compRegister 256 0 0).wellFormed = false := by decide
theorem test_wf_refuses_compRegisterNs : (Instr.compRegisterNs 256 0 0).wellFormed = false := by decide
theorem test_wf_refuses_compDisable : (Instr.compDisable 256).wellFormed = false := by decide
theorem test_wf_refuses_compDisableNs : (Instr.compDisableNs 256).wellFormed = false := by decide
theorem test_wf_refuses_compIsEnabled : (Instr.compIsEnabled 256).wellFormed = false := by decide
theorem test_wf_refuses_fcSetProfile : (Instr.fcSetProfile 256).wellFormed = false := by decide
/-- Out of the operation's domain but in its field: well formed (R86). -/
theorem test_wf_accepts_bad_operands :
    (Instr.perRegister 0 3).wellFormed ∧ (Instr.compRegister 255 0 0).wellFormed ∧ (Instr.fcSetProfile 5).wellFormed := by
  decide

/-! ## Decode: one written word per constructor (V90, the programs, R84) -/

theorem test_decode_setEpoch : decode (hab 0x10000000 0x6553F100 0x00000000) = .ok (.setEpoch 1700000000) := rfl
theorem test_decode_getUnixTime : decode (hab 0x11000000 0x00000000 0x00000000) = .ok .getUnixTime := rfl
theorem test_decode_getCounter : decode (hab 0x12000000 0x00000000 0x00000000) = .ok .getCounter := rfl
theorem test_decode_getEpoch : decode (hab 0x13000000 0x00000000 0x00000000) = .ok .getEpoch := rfl
theorem test_decode_perRegister : decode (hab 0x20000080 0x000000B0 0x00000000) = .ok (.perRegister 0xB0 128) := rfl
theorem test_decode_perDisable : decode (hab 0x21000080 0x00000000 0x00000000) = .ok (.perDisable 128) := rfl
theorem test_decode_perDisableMask : decode (hab 0x22000081 0x00000000 0x00000000) = .ok (.perDisableMask 0x81) := rfl
theorem test_decode_perDisableAll : decode (hab 0x23000000 0x00000000 0x00000000) = .ok .perDisableAll := rfl
theorem test_decode_compRegister :
    decode (hab 0x30000007 0xDEADBEEF 0xFFFFFFFF) = .ok (.compRegister 7 0xDEADBEEF 0xFFFFFFFF) := rfl
theorem test_decode_compRegisterNs :
    decode (hab 0x31000002 0x000000A2 0x00001B58) = .ok (.compRegisterNs 2 0xA2 7000) := rfl
theorem test_decode_compDisable : decode (hab 0x32000001 0x00000000 0x00000000) = .ok (.compDisable 1) := rfl
theorem test_decode_compDisableNs : decode (hab 0x33000001 0x00000000 0x00000000) = .ok (.compDisableNs 1) := rfl
theorem test_decode_compScheduleNext : decode (hab 0x34000000 0x00000000 0x00000000) = .ok .compScheduleNext := rfl
theorem test_decode_compIsEnabled : decode (hab 0x350000C8 0x00000000 0x00000000) = .ok (.compIsEnabled 200) := rfl
theorem test_decode_getSched : decode (hab 0x36000000 0x00000000 0x00000000) = .ok .getSched := rfl
theorem test_decode_fcApply : decode (hab 0x4000FC18 0x00000960 0x00000000) = .ok (.fcApply false 0xFC18 2400) := rfl
theorem test_decode_fcApplyR : decode (hab 0x40018000 0x00000BB8 0x00000000) = .ok (.fcApply true 0x8000 3000) := rfl
theorem test_decode_fcSetProfile : decode (hab 0x41000005 0x00000000 0x00000000) = .ok (.fcSetProfile 5) := rfl
theorem test_decode_fcCfgWr : decode (hab 0x42000002 0xFFFFFF9C 0x00000000) = .ok (.fcCfgWr .freq 0xFFFFFF9C) := rfl
theorem test_decode_fcCfgRd : decode (hab 0x43000007 0x00000000 0x00000000) = .ok (.fcCfgRd .anchor) := rfl
theorem test_decode_fcDue : decode (hab 0x44000000 0x00000000 0x00000000) = .ok .fcDue := rfl
theorem test_decode_getTune : decode (hab 0x45000000 0x00000000 0x00000000) = .ok .getTune := rfl
theorem test_decode_cbRet : decode (hab 0x50000000 0x00000000 0x00000000) = .ok .cbRet := rfl

/-- V90: the words of the table, encoded. -/
theorem test_encode_words :
    encode (.setEpoch 0xFFFFFFFF) = hab 0x10000000 0xFFFFFFFF 0x00000000 ∧
      encode (.perRegister 0xB0 3) = hab 0x20000003 0x000000B0 0x00000000 ∧
      encode (.fcApply false 3500 3000) = hab 0x40000DAC 0x00000BB8 0x00000000 ∧
      encode (.fcCfgRd .anchor) = hab 0x43000007 0x00000000 0x00000000 := by decide

/-- V91: an `op` in no row. -/
theorem test_reserved_op :
    decode (hab 0x00000000 0x00000000 0x00000000) = .error (.unknownOp 0x00) ∧
      decode (hab 0x14000000 0x00000000 0x00000000) = .error (.unknownOp 0x14) ∧
      decode (hab 0xFF000000 0x00000000 0x00000000) = .error (.unknownOp 0xFF) := ⟨rfl, rfl, rfl⟩
/-- V91: a bit set that its row requires to be zero, in each field. -/
theorem test_reserved_bits :
    decode (hab 0x11000000 0x00000001 0x00000000) = .error (.mustBeZero 0x11) ∧
      decode (hab 0x11000001 0x00000000 0x00000000) = .error (.mustBeZero 0x11) ∧
      decode (hab 0x12800000 0x00000000 0x00000000) = .error (.mustBeZero 0x12) ∧
      decode (hab 0x10000000 0x00000005 0x00000001) = .error (.mustBeZero 0x10) ∧
      decode (hab 0x21010001 0x00000000 0x00000000) = .error (.mustBeZero 0x21) :=
  ⟨rfl, rfl, rfl, rfl, rfl⟩
/-- V91: the unused high bits of a field. -/
theorem test_reserved_high_bits :
    decode (hab 0x22000100 0x00000000 0x00000000) = .error (.mustBeZero 0x22) ∧
      decode (hab 0x30000100 0x00000000 0x00000000) = .error (.mustBeZero 0x30) ∧
      decode (hab 0x40020DAC 0x00000BB8 0x00000000) = .error (.mustBeZero 0x40) ∧
      decode (hab 0x40000DAC 0x00010BB8 0x00000000) = .error (.mustBeZero 0x40) ∧
      decode (hab 0x42000008 0x00000001 0x00000000) = .error (.mustBeZero 0x42) ∧
      decode (hab 0x50000000 0x00000000 0x00000001) = .error (.mustBeZero 0x50) :=
  ⟨rfl, rfl, rfl, rfl, rfl, rfl⟩

/-- A number of the opcode table: bit 0 is bit 0 of `cmd[95:0]`. -/
theorem test_decodeTableWord :
    decodeTableWord 96 0x100000000000000000000000 = some (.setEpoch 0) ∧
      decodeTableWord 96 0x350000000000000000000000 = some (.compIsEnabled 0) ∧
      decodeTableWord 96 0x140000000000000000000000 = none := by decide

/-- The word placed by `withFetchWord` is the one the next step runs: `SET_EPOCH 0` at `C = 0` writes 1 (V14). -/
theorem test_withFetchWord : (stepped (State.reset.withFetchWord 96 0x100000000000000000000000)).t0 = 1 := by decide
/-- The same from an open compare pass. -/
theorem test_withFetchWord_in_pass :
    (stepped ((inCompare 3 0 false State.reset).withFetchWord 96 0x120000000000000000000000)).rsps = [0] := by decide

/-! ## One-step tests of the meanings -/

/-- V24. -/
theorem test_setEpoch : (after (.setEpoch 1700000000) (atCount 200)).t0 = 0x6553F0FF ∧
    (after (.setEpoch 5) (atCount 0xFFFFFFFF)).t0 = 0xFE000006 := by decide
/-- V1 and V23: the second turns at bit 6, and the −1 wraps. -/
theorem test_getUnixTime :
    answer .getUnixTime { atCount 63 with t0 := 1700000000 } = some 1699999999 ∧
      answer .getUnixTime { atCount 64 with t0 := 1700000000 } = some 1700000000 ∧
      answer .getUnixTime { atCount 128 with t0 := 1700000000 } = some 1700000000 ∧
      answer .getUnixTime (atCount 0) = some 0xFFFFFFFF := by decide
/-- V26. -/
theorem test_getCounter : answer .getCounter (atCount 320) = some 0x140 := by decide
/-- V26. -/
theorem test_getEpoch : answer .getEpoch { atCount 320 with t0 := 1699999999 } = some 0x6553F0FF := by decide
/-- V31: the stale flag of an empty slot is dropped; V32: that of a taken one stays. -/
theorem test_perRegister :
    (after (.perRegister 0x77 1) (periodicAt 0 0xFF State.reset)).perFlag = 0x7F ∧
      (after (.perRegister 0x77 1) (periodicAt 0 0xFF State.reset)).perEn = 0x80 ∧
      (after (.perRegister 0x78 1) (periodicAt 0x80 0x80 State.reset)).perFlag = 0x80 := by decide
/-- V34. -/
theorem test_perRegister_bad_freq :
    after (.perRegister 5 3) State.reset = State.reset ∧ after (.perRegister 5 256) State.reset = State.reset := by decide
/-- V35. -/
theorem test_perDisable :
    (after (.perDisable 128) (periodicAt 0x83 0 State.reset)).perEn = 0x82 ∧
      (after (.perDisable 1) (periodicAt 0x83 0 State.reset)).perEn = 0x03 := by decide
/-- V35. -/
theorem test_perDisableMask : (after (.perDisableMask 0x81) (periodicAt 0x83 0 State.reset)).perEn = 0x02 := by decide
/-- V35. -/
theorem test_perDisableAll : (after .perDisableAll (periodicAt 0x83 0 State.reset)).perEn = 0 := by decide
/-- V2 and V3: a far deadline is armed as it is, a near-past one at `C + GRACE`. -/
theorem test_compRegister :
    (after (.compRegister 1 0xA1 5050) (armedAt 5100 (withDeadline 0 5100 (atCount 5000)))).sched = 5050 ∧
      (after (.compRegister 0 0xC0 998) (atCount 1000)).comp = 1004 := by decide
/-- V75: a deadline equal to the armed value does not re-arm; V67: a bumped one does. -/
theorem test_compRegister_stand :
    (after (.compRegister 1 0x11 5050) (armedAt 5050 (atCount 5050))).sched = 5050 ∧
      (after (.compRegister 1 0x11 5049) (armedAt 5050 (atCount 5050))).sched = 5054 := by decide
/-- R146: slot 2 is set, `S` is as it was. -/
theorem test_compRegisterNs :
    (after (.compRegisterNs 2 0xA2 7000) (atCount 5000)).slots[2] = ⟨7000, 0xA2, true⟩ ∧
      (after (.compRegisterNs 2 0xA2 7000) (atCount 5000)).sched = State.reset.sched := by decide
/-- V13: the second-best deadline, or the sentinel. -/
theorem test_compDisable :
    (after (.compDisable 1) (armedAt 5050 (withDeadline 0 5100 (withDeadline 1 5050 (atCount 5000))))).comp = 5100 ∧
      (after (.compDisable 1) (armedAt 5050 (withDeadline 1 5050 (atCount 5000)))).sched = 4995 := by decide
/-- R148: the block stays armed. -/
theorem test_compDisableNs :
    (after (.compDisableNs 1) (armedAt 5050 (withDeadline 1 5050 (atCount 5000)))).cmpIe = true ∧
      (after (.compDisableNs 1) (armedAt 5050 (withDeadline 1 5050 (atCount 5000)))).slots[1].enabled = false := by decide
/-- V9: half the range ahead does not preempt; V66: with no slot a pending match is dropped. -/
theorem test_compScheduleNext :
    (after .compScheduleNext (withDeadline 0 1500 (withDeadline 1 0x800003E8 (atCount 1000)))).sched = 1500 ∧
      (after .compScheduleNext { armedAt 5050 (atCount 5050) with cmpFlag := true }).cmpFlag = false := by decide
/-- R150. -/
theorem test_compIsEnabled :
    answer (.compIsEnabled 3) (withDeadline 3 9 State.reset) = some 1 ∧
      answer (.compIsEnabled 200) (withDeadline 3 9 State.reset) = some 0 := by decide
/-- R40, R151. -/
theorem test_getSched : answer .getSched State.reset = some 0xFFFFFFFB := by decide
/-- P4: raw −106, lsb −3, R = −13, v = 0x83. -/
theorem test_fcApply :
    (after (.fcApply false 3500 3000) State.reset).tune = 0x83 ∧
      (after (.fcApply false 3500 3000) State.reset).resid.toInt = -13 ∧
      (after (.fcApply false 3500 3000) State.reset).trace = [.tuneWr 0x83] := by decide
/-- P4: `.R` clears the residual, the value is elided; V11: clamping. -/
theorem test_fcApply_elide_and_clamp :
    (after (.fcApply true 3500 3300)
      { State.reset with resid := 9, lastW := some 0, cfg := (FcCfg.default.preset 0).getD FcCfg.default }).trace = [] ∧
      (after (.fcApply false 2500 3000)
        { State.reset with cfg := { FcCfg.default with profile := 1, freq := 19073, a2 := 0, a3 := 0 } }).tune = 0x7F ∧
      (after (.fcApply false 2500 3000)
        { State.reset with cfg := { FcCfg.default with profile := 1, freq := -19073, a2 := 0, a3 := 0 } }).tune = 0xFF := by
  decide
/-- V5 and R187. -/
theorem test_fcSetProfile :
    (after (.fcSetProfile 2) State.reset).cfg = { FcCfg.default with profile := 2, a3 := 0 } ∧
      after (.fcSetProfile 5) State.reset = State.reset := by decide
/-- R188: the low bits of the value are stored. -/
theorem test_fcCfgWr :
    (after (.fcCfgWr .freq 0xFFFFFF9C) State.reset).cfg.freq.toInt = -100 ∧
      (after (.fcCfgWr .cadence 0x13C) State.reset).cfg.cadence = 60 := by decide
/-- R189: signed registers are sign-extended, `CADENCE` is not. -/
theorem test_fcCfgRd :
    answer (.fcCfgRd .freq) (after (.fcCfgWr .freq 0xFF9C) State.reset) = some 0xFFFFFF9C ∧
      answer (.fcCfgRd .cadence) (after (.fcCfgWr .cadence 0xFF) State.reset) = some 0xFF := by decide
/-- P4: 28333340 minutes are a multiple of 10, not of 60; profile 0 never advises. -/
theorem test_fcDue :
    answer .fcDue { State.reset with t0 := 1700000401 } = some 1 ∧
      answer .fcDue { State.reset with t0 := 1700000401, cfg := { FcCfg.default with cadence := 60 } } = some 0 ∧
      answer .fcDue { State.reset with t0 := 1700000401, cfg := { FcCfg.default with profile := 0 } } = some 0 := by decide
/-- R191: zero-extended. -/
theorem test_getTune : answer .getTune { State.reset with tune := 0x83 } = some 0x83 := by decide
/-- R217, V78. -/
theorem test_cbRet :
    (after .cbRet (inCompare 4 5050 true State.reset)).seq.inCb = false ∧ after .cbRet State.reset = State.reset := by decide

/-! ## The other agents -/

/-- V22 and V25: flags of the tick to 64; the wrap advances `T0`, itself modulo 2^32. -/
theorem test_tick :
    (tick (atCount 0x3F)).perFlag = 0x81 ∧ (tick (atCount 0xFFFFFFFF)).perFlag = 0x01 ∧
      (tick { atCount 0xFFFFFFFF with t0 := 0x6553F100 }).t0 = 0x6753F100 ∧
      (tick { atCount 0xFFFFFFFF with t0 := 0xFF000000 }).t0 = 0x01000000 ∧
      (tick (atCount 0xFFFFFFFF)).trace = [.ovf] := by decide
/-- V30: the slots with an event at 3, 4, 96 and 192. -/
theorem test_perEvents :
    perEvents 3 = 0x03 ∧ perEvents 4 = 0x09 ∧ perEvents 96 = 0x41 ∧ perEvents 192 = 0x81 ∧ perEvents 128 = 0x01 := by decide
/-- P2: the match of the tick to `COMP`; a disarmed channel does not match. -/
theorem test_match :
    (tick (armedAt 5050 (atCount 5049))).cmpFlag = true ∧
      (tick { armedAt 5050 (atCount 5049) with cmpIe := false }).cmpFlag = false := by decide
/-- V36: the entry takes the snapshot and clears every flag; the highest slot comes first. -/
theorem test_periodic_pass :
    (serviceStep .compare (periodicAt 0xC1 0xFF State.reset)).seq.psnap = 0xC1 ∧
      (serviceStep .compare (periodicAt 0xC1 0xFF State.reset)).perFlag = 0 ∧
      (serviceStep .compare (inPeriodic 0x41 false State.reset)).trace = [.perCb 6 0] := by decide
/-- V76: due 15 ticks after the deadline, not 16; the slot is disabled in the step that fires it. -/
theorem test_compare_scan :
    (serviceStep .periodic (inCompare 0 1011 false (withDeadline 0 996 (atCount 1011)))).trace = [.cmpCb 0 0xC0] ∧
      (serviceStep .periodic (inCompare 0 1011 false (withDeadline 0 996 (atCount 1011)))).slots[0].enabled = false ∧
      (serviceStep .periodic (inCompare 0 1012 false (withDeadline 0 996 (atCount 1012)))).trace = [] := by decide
/-- V76 (a): the finish of the missed pass arms unbumped, a full wrap ahead. -/
theorem test_compare_finish :
    (serviceStep .periodic (inCompare 8 1012 false (withDeadline 0 996 (atCount 1012)))).sched = 996 ∧
      (serviceStep .periodic (inCompare 8 1011 false (atCount 1011))).sched = 1006 := by decide
/-- V70: with both requests up either entry may come first. -/
theorem test_svc_choice :
    (serviceStep .periodic { periodicAt 0x80 0xFF State.reset with cmpFlag := true }).seq.mode = .per ∧
      (serviceStep .compare { periodicAt 0x80 0xFF State.reset with cmpFlag := true }).seq.mode = .cmp := by decide
/-- V43, the corner of the quantiser: 15/31 rounds down, 16/31 up. -/
theorem test_dither : ditherLsb 15 = 0 ∧ ditherLsb 16 = 1 ∧ ditherLsb (-16) = -1 ∧ ditherLsb 6200 = 200 := by decide
/-- V12: the record image and its reading. -/
theorem test_record :
    cfgToBytes ⟨4, 60, 1768, 2653, 4091, 1359, -250, 0x6553F100⟩ =
      [0x04, 0x3C, 0xE8, 0x06, 0x5D, 0x0A, 0xFB, 0x0F, 0x4F, 0x05, 0x06, 0xFF, 0x00, 0xF1, 0x53, 0x65] ∧
      cfgOfBytes [0x02, 0x0A] = none := by decide
/-- A cold reset empties the trace and leaves the port. -/
theorem test_cold_reset :
    (stepped { turned .coldReset (tick (atCount 0xFFFFFFFF)) with port := [7] }).trace = [] ∧
      (stepped { turned .coldReset (tick (atCount 0xFFFFFFFF)) with port := [7] }).port = [7] := by decide

/-! ## Another configuration (R10): nine slots, a grace of five, tokens of 16 bits, another epoch, a constant `fc_raw` -/

/-- Such a build. -/
abbrev wide : Config := ⟨9, 5, 16, 7, fun _ _ _ _ => 6200⟩

/-- The ninth slot exists, a token keeps its low 16 bits, and the bump is by five ticks (R142, R145). -/
theorem test_wide_registers :
    (compRegister 8 0x12345678 1004 (Any.State.coldReset wide)).slots[(8 : Fin wide.nComp)] = ⟨1004, 0x5678, true⟩ ∧
      (compRegister 8 1 0 (Any.State.coldReset wide)).comp = 5 ∧
      compRegister 9 1 0 (Any.State.coldReset wide) = Any.State.coldReset wide := by decide
/-- The epoch of the build, its clamped correction (R182: 200 becomes 127), and the elision of the second (R184). -/
theorem test_wide_corrects :
    (Any.State.coldReset wide).t0 = 7 ∧ (fcApply false 2500 3000 (Any.State.coldReset wide)).tune = 0x7F ∧
      (fcApply false 2500 3000 (fcApply false 2500 3000 (Any.State.coldReset wide))).trace = [.tuneWr 0x7F] := by decide

/-! ## Witnesses: for each statement with hypotheses, a state and operands that meet them together, clause by clause -/

/-- A command word that decodes, and one that is reserved. -/
theorem witness_wordKinds :
    decode (encode .getCounter) = .ok .getCounter ∧ ∀ r ∈ opcodeTable, r.selectedBy (hab 0x14000000 0 0) = false := by
  decide

/-- DecodeEncodeRoundTrip: operands at the ends of their fields. -/
theorem witness_DecodeEncodeRoundTrip :
    (Instr.perRegister 0xFFFFFFFF 65535).wellFormed = true ∧ (Instr.compRegister 255 0 0).wellFormed = true ∧
      (Instr.fcSetProfile 0).wellFormed = true := by decide
/-- EncodeDecodeRoundTrip. -/
theorem witness_EncodeDecodeRoundTrip : decode (hab 0x20000080 0x000000B0 0x00000000) = .ok (.perRegister 0xB0 128) := rfl
/-- DecodeFollowsOpcodeMap, first clause: the first row and its word. -/
theorem witness_DecodeFollowsOpcodeMap_row :
    ∃ r ∈ opcodeTable, r.selectedBy (hab 0x10000000 0x6553F100 0x00000000) = true := by decide
/-- DecodeFollowsOpcodeMap, second clause. -/
theorem witness_DecodeFollowsOpcodeMap_none : ∀ r ∈ opcodeTable, r.selectedBy (hab 0x11000000 1 0) = false := by decide
/-- StepRunsDecodedCommand, both clauses. -/
theorem witness_StepRunsDecodedCommand :
    (offered (encode .getCounter) State.reset).commands .getCounter ∧
      (offered (encode .getCounter) State.reset).accepting = true ∧
      (offered (encode .getCounter) State.reset).turns = .command :: [] ∧
      (offered (encode .getCounter) State.reset).port = encode .getCounter :: [] ∧
      decode (encode .getCounter) = .ok .getCounter := ⟨⟨rfl, rfl⟩, rfl, rfl, rfl, rfl⟩
/-- ReservedWordIsIgnored. -/
theorem witness_ReservedWordIsIgnored :
    (offered (hab 0x14000000 0 0) State.reset).turns = .command :: [] ∧
      (offered (hab 0x14000000 0 0) State.reset).port = hab 0x14000000 0 0 :: [] ∧
      (offered (hab 0x14000000 0 0) State.reset).accepting = true ∧
      ∀ r ∈ opcodeTable, r.selectedBy (hab 0x14000000 0 0) = false := ⟨rfl, rfl, rfl, by decide⟩
/-- CommandsWaitBetweenScans: a foreground, an open window, and a pass between scan steps, each with a command
offered. -/
theorem witness_CommandsWaitBetweenScans :
    (offered (encode .getSched) State.reset).seq.mode = .idle ∧
      (offered (encode .getSched) (inCompare 1 0 true State.reset)).seq.inCb = true ∧
      (offered (encode .getSched) (inCompare 1 0 false State.reset)).seq.mode ≠ .idle ∧
      (offered (encode .getSched) (inCompare 1 0 false State.reset)).seq.inCb = false ∧
      decode (encode .getSched) = .ok .getSched ∧ State.reset.seq.inCb = false := by decide
/-- WindowClosesOnlyByReturn, first clause: a `CB_RET`, and a tick, in an open window. -/
theorem witness_WindowClosesOnlyByReturn :
    (offered (encode .cbRet) (inCompare 1 0 true State.reset)).seq.inCb = true ∧
      (offered (encode .cbRet) (inCompare 1 0 true State.reset)).seq.mode ≠ .idle ∧
      (offered (encode .cbRet) (inCompare 1 0 true State.reset)).nextTurn ≠ .coldReset ∧
      (step (offered (encode .cbRet) (inCompare 1 0 true State.reset)) =
        .next (stepped (offered (encode .cbRet) (inCompare 1 0 true State.reset)))) ∧
      (step (turned .tick (inCompare 1 0 true State.reset)) =
        .next (stepped (turned .tick (inCompare 1 0 true State.reset)))) :=
  ⟨rfl, by decide, by decide, rfl, rfl⟩
/-- WindowClosesOnlyByReturn, second clause: each of its two premises. -/
theorem witness_WindowClosesOnlyByReturn_waits :
    ((turned (.service .periodic) (inCompare 1 0 true State.reset)).seq.inCb = true ∧
      (turned (.service .periodic) (inCompare 1 0 true State.reset)).seq.mode ≠ .idle) ∧
    ((turned (.service .periodic) (periodicAt 0x7F 0x80 State.reset)).seq.mode = .idle ∧
      (periodicAt 0x7F 0x80 State.reset).perFlag &&& (periodicAt 0x7F 0x80 State.reset).perEn = 0 ∧
      (periodicAt 0x7F 0x80 State.reset).cmpFlag = false) := by decide
/-- ColdResetStepResets. -/
theorem witness_ColdResetStepResets : (turned .coldReset (atCount 77)).turns = .coldReset :: [] := rfl

/-- An armed state in a compare window, with a residual and a cache at the ends of their ranges. -/
def busy : State :=
  { inCompare 8 5050 true (armedAt 5100 (withDeadline 0 5100 (atCount 5050))) with
    cmpFlag := true, resid := -15, tune := 0xFF, lastW := some 0xFF, turns := [.command], port := [encode .cbRet] }

theorem busy_steps : step busy = .next (stepped busy) := rfl
/-- StepKeepsRegisterInvariants: a state that meets the invariants with no implication empty, and steps. -/
theorem witness_StepKeepsRegisterInvariants : busy.Inv ∧ step busy = .next (stepped busy) :=
  ⟨⟨by decide, by decide, by decide, by decide, by decide, fun v h => Option.some.inj h⟩, rfl⟩
/-- StepKeepsSequencerInvariants: a compare pass at its last cursor, in a window. -/
theorem witness_StepKeepsSequencerInvariants : busy.SeqInv ∧ step busy = .next (stepped busy) :=
  ⟨⟨fun _ => by decide, fun _ _ => by decide, fun h => absurd h (by decide),
    fun h => absurd h (by decide), fun h => absurd h (by decide)⟩, rfl⟩
/-- StepKeepsSequencerInvariants: a periodic pass at cursor 7, between scan steps. -/
theorem witness_StepKeepsSequencerInvariants_periodic :
    (turned (.service .periodic) (inPeriodic 0xC1 false State.reset)).SeqInv :=
  ⟨fun h => absurd h (by decide), fun h => absurd h (by decide), fun _ => by decide,
    fun _ n h => BitVec.getLsbD_of_ge _ n h, fun _ h => absurd h (by decide)⟩
/-- StepKeepsTuneOffNegativeZero. -/
theorem witness_StepKeepsTuneOffNegativeZero : busy.TuneInv ∧ step busy = .next (stepped busy) :=
  ⟨⟨by decide, by decide⟩, rfl⟩
/-- ArmedOnlyWithSlotEnabled: a step that arms the disarmed channel. -/
theorem witness_ArmedOnlyWithSlotEnabled :
    step (offered (encode (.compRegister 7 1 5100)) (atCount 5000)) =
        .next (stepped (offered (encode (.compRegister 7 1 5100)) (atCount 5000))) ∧
      (atCount 5000).cmpIe = false ∧
      (stepped (offered (encode (.compRegister 7 1 5100)) (atCount 5000))).cmpIe = true := ⟨rfl, rfl, by decide⟩
/-- WallTimeMovesOnlyAtBoundaries: a tick to a second boundary, a tick past one, and a command. -/
theorem witness_WallTimeMovesOnlyAtBoundaries :
    step (turned .tick (atCount 63)) = .next (tick { atCount 63 with turns := [] }) ∧
      (tick { atCount 63 with turns := [] }).c.toNat % 128 = 64 ∧
      (turned .tick (atCount 64)).nextTurn = .tick ∧ (tick (atCount 64)).c.toNat % 128 ≠ 64 ∧
      (offered (encode (.setEpoch 9)) State.reset).nextTurn ≠ .tick ∧
      (offered (encode (.setEpoch 9)) State.reset).nextTurn ≠ .coldReset :=
  ⟨rfl, by decide, rfl, by decide, by decide, by decide⟩
/-- TickResult: the tick that wraps, and one that does not. -/
theorem witness_TickResult :
    (turned .tick (atCount 0xFFFFFFFF)).turns = .tick :: [] ∧ (tick (atCount 0xFFFFFFFF)).c = 0 ∧
      (tick (atCount 0xFFFFFFFE)).c ≠ 0 := by decide
/-- DividerEventsOncePerPeriod: the lowest and the highest divider, and an event. -/
theorem witness_DividerEventsOncePerPeriod :
    (1 ≤ 1 ∧ 1 < 8 ∧ perEvent 1 1 = true) ∧ (1 ≤ 7 ∧ 7 < 8 ∧ perEvent 7 192 = true) := by decide
/-- PerRegisterResult, PeriodicDisableResults: the ends of the frequency range, and a frequency of no slot. -/
theorem witness_PeriodicFrequencies :
    (128 = 2 ^ (7 - (0 : Fin 8).val)) ∧ (1 = 2 ^ (7 - (7 : Fin 8).val)) ∧ (∀ n : Fin 8, 3 ≠ 2 ^ (7 - n.val)) ∧
      (∀ n : Fin 8, 256 ≠ 2 ^ (7 - n.val)) ∧ (∀ n : Fin 8, 0 ≠ 2 ^ (7 - n.val)) := by decide
/-- ArmedNoLaterThanDeadlines, BulkRegistrationMatchesSingle, ArmedDeadlineDueWithinLatency, ArmedDeadlineFires: the
configuration the spec takes is allowed, and so is another. -/
theorem witness_Allowed : Config.taken.Allowed ∧ wide.Allowed :=
  ⟨taken_allowed, ⟨by decide, by decide, by decide, by decide, by decide⟩⟩
/-- ScheduleNextResult, ArmedNoLaterThanDeadlines: an enabled slot, the last one, whose deadline the arbiter arms. -/
theorem witness_ScheduleNextResult :
    (withDeadline 7 998 (atCount 1000)).slots[(7 : Fin Config.taken.nComp)].enabled = true ∧
      scheduleNext (withDeadline 7 998 (atCount 1000)) ≠ withDeadline 7 998 (atCount 1000) := by decide
/-- CompRegisterResult, CompRegisterNsResult, CompDisableResult, CompDisableNsResult, CompIsEnabledResult: the last slot
index, the first that is out of the table, and the last that has an encoding. -/
theorem witness_CompareIndices :
    (7 : Fin Config.taken.nComp).val = 7 ∧ 7 < 256 ∧ Config.taken.nComp ≤ 8 ∧ 8 < 256 ∧
      Config.taken.nComp ≤ 255 ∧ 255 < 256 := by decide
/-- BulkRegistrationMatchesSingle: a bulk update of two slots, in a disarmed state and in one armed at just `2·GRACE`. -/
theorem witness_BulkRegistrationMatchesSingle :
    ([(0, 1, 5100), (7, 2, 5050)] : List (Nat × Word × Word)) ≠ [] ∧
      (∀ e ∈ ([(0, 1, 5100), (7, 2, 5050)] : List (Nat × Word × Word)), e.1 < Config.taken.nComp) ∧
      (atCount 5000).cmpIe = false ∧
      2 * Config.taken.grace ≤ distNat Config.taken (atCount 5000).c (armedAt 5004 (atCount 5000)).sched := by decide

/-- The winner of a state with two deadlines, the near-past one bumped. -/
theorem isWinner_bumped : (withDeadline 1 2000 (withDeadline 3 996 (atCount 1000))).isWinner 3 := by
  unfold Any.State.isWinner; decide
/-- ArmedDeadlineDueWithinLatency (first clause), ArmedDeadlineFires: a winner not standing, with the last latency
that serves it, and ticks between the nine steps after the entry. -/
theorem witness_ArmedDeadlineFires :
    (withDeadline 1 2000 (withDeadline 3 996 (atCount 1000))).isWinner 3 ∧
      ¬ (withDeadline 1 2000 (withDeadline 3 996 (atCount 1000))).standsAt 996 ∧
      (withDeadline 1 2000 (withDeadline 3 996 (atCount 1000))).slots[(3 : Fin Config.taken.nComp)].deadline = 996 ∧
      (withDeadline 1 2000 (withDeadline 3 996 (atCount 1000))).cmpFlag = false ∧
      (withDeadline 1 2000 (withDeadline 3 996 (atCount 1000))).seq.mode = .idle ∧ 7 < 2 * Config.taken.grace ∧
      [3, 0, 1, 0, 0, 20, 0, 0, 9].length = Config.taken.nComp + 1 :=
  ⟨isWinner_bumped, by unfold Any.State.standsAt; decide, by decide, by decide, by decide, by decide, by decide⟩
/-- ArmedDeadlineFires: a winner whose schedule stands on a match still ahead. -/
theorem witness_ArmedDeadlineFires_standing :
    (armedAt 1100 (withDeadline 0 1100 (atCount 1000))).isWinner 0 ∧
      (armedAt 1100 (withDeadline 0 1100 (atCount 1000))).standsAt 1100 ∧
      (armedAt 1100 (withDeadline 0 1100 (atCount 1000))).slots[(0 : Fin Config.taken.nComp)].deadline = 1100 ∧
      (armedAt 1100 (withDeadline 0 1100 (atCount 1000))).comp =
        (armedAt 1100 (withDeadline 0 1100 (atCount 1000))).sched ∧
      (armedAt 1100 (withDeadline 0 1100 (atCount 1000))).comp ≠
        (armedAt 1100 (withDeadline 0 1100 (atCount 1000))).c ∧
      (armedAt 1100 (withDeadline 0 1100 (atCount 1000))).cmpFlag = false :=
  ⟨by unfold Any.State.isWinner; decide, by unfold Any.State.standsAt; decide, by decide, by decide, by decide, by decide⟩
/-- ArmedDeadlineDueWithinLatency, second clause: a winner armed unbumped, and a latency of 15. -/
theorem witness_ArmedDeadlineDue_unbumped :
    (withDeadline 0 1100 (atCount 1000)).isWinner 0 ∧
      (scheduleNext (withDeadline 0 1100 (atCount 1000))).sched =
        (withDeadline 0 1100 (atCount 1000)).slots[(0 : Fin Config.taken.nComp)].deadline ∧ 15 < 4 * Config.taken.grace :=
  ⟨by unfold Any.State.isWinner; decide, by decide, by decide⟩
/-- PeriodicEntryResult: the periodic request alone up, in a turn of either order, and both up. -/
theorem witness_PeriodicEntryResult :
    ((turned (.service .compare) (periodicAt 0x81 0xFF State.reset)).turns = .service .compare :: [] ∧
      (periodicAt 0x81 0xFF State.reset).seq.mode = .idle ∧
      (periodicAt 0x81 0xFF State.reset).perFlag &&& (periodicAt 0x81 0xFF State.reset).perEn ≠ 0 ∧
      (periodicAt 0x81 0xFF State.reset).cmpFlag = false) ∧
    ((turned (.service .periodic) { periodicAt 0x81 0xFF State.reset with cmpFlag := true }).turns =
        .service .periodic :: [] ∧
      (turned (.service .periodic) { periodicAt 0x81 0xFF State.reset with cmpFlag := true }).cmpFlag = true) := by decide
/-- PeriodicPassInvokesDescending: slots 7 and 0 pending and enabled, both requests up, and ticks before each of the three
steps after the entry. -/
theorem witness_PeriodicPassInvokesDescending :
    ({ periodicAt 0x81 0xFF State.reset with cmpFlag := true } : State).seq.mode = .idle ∧
      (periodicAt 0x81 0xFF State.reset).perFlag &&& (periodicAt 0x81 0xFF State.reset).perEn ≠ 0 ∧
      ([7, 6, 5, 4, 3, 2, 1, 0] : List (Fin 8)).filter (fun n =>
        ((periodicAt 0x81 0xFF State.reset).perFlag &&& (periodicAt 0x81 0xFF State.reset).perEn).getLsbD n.val) = [7, 0] ∧
      [2, 0, 130].length = ([7, 0] : List (Fin 8)).length + 1 := by decide
/-- PeriodicScanResult: an empty snapshot, and one whose highest slot is 6. -/
theorem witness_PeriodicScanResult :
    (turned (.service .periodic) (inPeriodic 0x41 false State.reset)).turns = .service .periodic :: [] ∧
      (inPeriodic 0x41 false State.reset).seq.mode = .per ∧ (inPeriodic 0x41 false State.reset).seq.inCb = false ∧
      (inPeriodic 0 false State.reset).seq.psnap = 0 ∧
      (inPeriodic 0x41 false State.reset).seq.psnap.getLsbD (6 : Fin 8).val = true ∧
      (∀ m : Fin 8, 6 < m → (inPeriodic 0x41 false State.reset).seq.psnap.getLsbD m.val = false) := by decide
/-- CompareEntryResult, and ComparePassFiresDueSlots, which has the same premises without the turn: both requests up, and
the compare request alone. -/
theorem witness_CompareEntryResult :
    ((turned (.service .compare) { periodicAt 0x81 0xFF (atCount 5050) with cmpFlag := true }).turns =
        .service .compare :: [] ∧
      ({ periodicAt 0x81 0xFF (atCount 5050) with cmpFlag := true } : State).seq.mode = .idle ∧
      ({ periodicAt 0x81 0xFF (atCount 5050) with cmpFlag := true } : State).cmpFlag = true) ∧
    (({ periodicAt 0 0xFF (atCount 5050) with cmpFlag := true } : State).seq.mode = .idle ∧
      ({ periodicAt 0 0xFF (atCount 5050) with cmpFlag := true } : State).cmpFlag = true ∧
      ({ periodicAt 0 0xFF (atCount 5050) with cmpFlag := true } : State).perFlag &&&
        ({ periodicAt 0 0xFF (atCount 5050) with cmpFlag := true } : State).perEn = 0) := by decide
/-- CompareScanResult: the last slot due 15 ticks after its deadline, and not due 16 ticks after it. -/
theorem witness_CompareScanResult :
    (turned (.service .periodic) (inCompare 7 1011 false (withDeadline 7 996 State.reset))).turns =
        .service .periodic :: [] ∧
      (inCompare 7 1011 false (withDeadline 7 996 State.reset)).seq.cursor = (7 : Fin Config.taken.nComp).val ∧
      (inCompare 7 1011 false (withDeadline 7 996 State.reset)).dueAt 1011 7 = true ∧
      (inCompare 7 1012 false (withDeadline 7 996 State.reset)).dueAt 1012 7 = false := by decide
/-- CompareFinishResult. -/
theorem witness_CompareFinishResult :
    (turned (.service .periodic) (inCompare 8 1011 false State.reset)).turns = .service .periodic :: [] ∧
      (inCompare 8 1011 false State.reset).seq.mode = .cmp ∧ (inCompare 8 1011 false State.reset).seq.inCb = false ∧
      (inCompare 8 1011 false State.reset).seq.cursor = Config.taken.nComp := by decide
/-- CbRetResult, both clauses. -/
theorem witness_CbRetResult : (inCompare 4 0 true State.reset).seq.inCb = true ∧ State.reset.seq.inCb = false := by decide
/-- FiredSlotWasEnabledAndDue: a step that fires slot 0. -/
theorem witness_FiredSlotWasEnabledAndDue :
    step (turned (.service .periodic) (inCompare 0 1011 false (withDeadline 0 996 State.reset))) =
        .next (stepped (turned (.service .periodic) (inCompare 0 1011 false (withDeadline 0 996 State.reset)))) ∧
      (stepped (turned (.service .periodic) (inCompare 0 1011 false (withDeadline 0 996 State.reset)))).trace =
        (turned (.service .periodic) (inCompare 0 1011 false (withDeadline 0 996 State.reset))).trace ++
          [.cmpCb 0 0xC0] := ⟨rfl, by decide⟩
/-- StepEmitsAtMostOneEvent, CounterAndEpochWriters, TuneWrittenOnlyByFcApply: a step that is no cold reset and
presents no `FC_APPLY`. -/
theorem witness_tickStep :
    step (turned .tick (atCount 0xFFFFFFFF)) = .next (stepped (turned .tick (atCount 0xFFFFFFFF))) ∧
      (turned .tick (atCount 0xFFFFFFFF)).nextTurn ≠ .coldReset ∧
      (∀ rst temp mv, ¬ (turned .tick (atCount 0xFFFFFFFF)).commands (.fcApply rst temp mv)) :=
  ⟨rfl, by decide, fun _ _ _ h => nomatch h.1⟩
/-- DitherReturnsAfterThirtyOne: both ends of the residual's range. -/
theorem witness_DitherReturnsAfterThirtyOne :
    (-15 ≤ ({ State.reset with resid := -15 } : State).resid.toInt ∧
      ({ State.reset with resid := -15 } : State).resid.toInt ≤ 15) ∧
    (-15 ≤ ({ State.reset with resid := 15 } : State).resid.toInt ∧
      ({ State.reset with resid := 15 } : State).resid.toInt ≤ 15) := by decide
/-- CorrectionOfAnyRaw: a `raw` whose value is cached, one whose value is new, and the clamp's two sides. -/
theorem witness_CorrectionOfAnyRaw :
    ({ State.reset with lastW := some 0 } : State).lastW = some (tuneCode (clampLsb (ditherLsb 15))) ∧
      State.reset.lastW ≠ some (tuneCode (clampLsb (ditherLsb (-6200)))) ∧
      tuneCode (clampLsb (ditherLsb (-6200))) = 0xFF ∧ tuneCode (clampLsb (ditherLsb 6200)) = 0x7F := by decide
/-- FcApplyResult: the value written is new in P4's first `FC_APPLY`, and cached in the second missing-sensor one. -/
theorem witness_FcApplyResult :
    State.reset.lastW ≠ some 0x83 ∧
      (after (.fcApply false 0x8000 3000) { State.reset with resid := -8, lastW := some 0 }).lastW = some 0 := by decide
/-- FcSetProfileResult: the ends of both ranges of the preset number. -/
theorem witness_FcSetProfileResult : 0 ≤ 4 ∧ 4 ≤ 4 ∧ 4 < 5 ∧ 5 < 256 ∧ 4 < 255 ∧ 255 < 256 := by decide
/-- RecordRoundTrip: the record lengths 16, 15 and 17. -/
theorem witness_RecordRoundTrip :
    (List.replicate 16 (0 : Byte)).length = 16 ∧ (List.replicate 15 (0 : Byte)).length ≠ 16 ∧
      (List.replicate 17 (0 : Byte)).length ≠ 16 := by decide
/-- ReadsOnlyRespond: a command that responds and one that does not. -/
theorem witness_ReadsOnlyRespond :
    Instr.getCounter.responds = true ∧ (Instr.compRegister 9 0 0).responds = false := by decide
/-- CommandWritesOnlyItsColumns: a command and its next state. -/
theorem witness_CommandWritesOnlyItsColumns :
    exec (.compDisable 7) busy = .next (after (.compDisable 7) busy) := rfl
/-- UnspecifiedContentsNeverRead: two states that differ in a disabled slot, an empty periodic slot and idle sequencer
fields, and step. -/
theorem witness_UnspecifiedContentsNeverRead :
    AgreeOnRead (turned .tick State.reset)
        { turned .tick State.reset with
          slots := State.reset.slots.set 3 ⟨7, 8, false⟩, perCb := State.reset.perCb.set 2 9
          seq := { State.reset.seq with cursor := 5, psnap := 6, clatch := 7 } } ∧
      step (turned .tick State.reset) = .next (stepped (turned .tick State.reset)) := by
  refine ⟨⟨rfl, by decide, by decide, ?_, ?_⟩, rfl⟩
  · intro n h
    rcases h with h | h
    · exact absurd h (by revert n; decide)
    · cases h.1
  · exact ⟨rfl, rfl, fun h => absurd h (by decide), fun h => absurd h (by decide)⟩

end Sys2Proof.Tests
end

