-- ==== Sys2Proof/Proofs/Frames.lean ====
section
/-! What each operation leaves unchanged: the commands by the columns of the access table (spec/10_state.md R39), the
sequencer and the tick by the fields they write. -/

namespace Sys2Proof.Machine

variable {k : Config}

@[simp] theorem scheduleNext_slots (s : Any.State k) : (scheduleNext s).slots = s.slots :=
  congrArg (·.slots) (scheduleNext_frame s)

/-- What holds of a compare command's work on its slot and of doing nothing holds of the command (R61). -/
theorem withSlot_elim {p : Any.State k → Prop} (idx : Nat) {f : Fin k.nComp → Any.State k → Any.State k}
    {s : Any.State k} (hf : ∀ i, p (f i s)) (hs : p s) : p (withSlot idx f s) := by
  obtain ⟨i, -, h⟩ | ⟨-, h⟩ := withSlot_cases idx f s <;> rw [h]
  · exact hf i
  · exact hs

/-- What holds of a periodic command's work on its slot and of doing nothing holds of the command (R231). -/
theorem withFreq_elim {p : Any.State k → Prop} (freq : Nat) {f : Fin 8 → Any.State k → Any.State k}
    {s : Any.State k} (hf : ∀ n, p (f n s)) (hs : p s) : p (withFreq freq f s) := by
  obtain ⟨n, -, h⟩ | ⟨-, h⟩ := withFreq_cases freq f s <;> rw [h]
  · exact hf n
  · exact hs

/-- The arbiter after a change of the slots writes the compare channel beside them (R39). -/
theorem scheduleNext_frame_of_slots {s u : Any.State k} (hu : u = { s with slots := u.slots }) :
    scheduleNext u = { s with comp := (scheduleNext u).comp, sched := (scheduleNext u).sched,
                              cmpIe := (scheduleNext u).cmpIe, cmpFlag := (scheduleNext u).cmpFlag,
                              slots := (scheduleNext u).slots } := by
  rw [scheduleNext_slots]
  exact (scheduleNext_frame u).trans (by rw [hu])

/-- The residual a dithering sum leaves (R181). -/
def ditherRemainder (sum : Int) : Int := sum - ditherLsb sum * Config.ditherD

/-- The value a dithering sum writes to the tuning register (R182, R183). -/
def ditherCode (sum : Int) : Byte := tuneCode (clampLsb (ditherLsb sum))

/-- One correction leaves the remainder of its sum as the residual, and elides or makes its write (R181, R184). -/
theorem applyRaw_cases (raw : Int) (s : Any.State k) :
    (s.lastW = some (ditherCode (raw + s.resid.toInt)) ∧
      applyRaw raw s = { s with resid := BitVec.ofInt 16 (ditherRemainder (raw + s.resid.toInt)) }) ∨
    (s.lastW ≠ some (ditherCode (raw + s.resid.toInt)) ∧
      applyRaw raw s = emit (.tuneWr (ditherCode (raw + s.resid.toInt)))
        { s with resid := BitVec.ofInt 16 (ditherRemainder (raw + s.resid.toInt))
                 tune := ditherCode (raw + s.resid.toInt)
                 lastW := some (ditherCode (raw + s.resid.toInt)) }) :=
  writeTune_cases (ditherCode (raw + s.resid.toInt))
    { s with resid := BitVec.ofInt 16 (ditherRemainder (raw + s.resid.toInt)) }

/-- `FC_APPLY` writes the residual, the cache, the tuning register and the trace (R39). -/
theorem fcApply_frame (rst : Bool) (temp mv : Half) (s : Any.State k) :
    ∃ resid lastW tune trace,
      fcApply rst temp mv s = { s with resid := resid, lastW := lastW, tune := tune, trace := trace } := by
  have hr : resetResidual rst s = { s with resid := (resetResidual rst s).resid } := by cases rst <;> rfl
  unfold fcApply
  obtain ⟨-, h⟩ | ⟨-, h⟩ := applyRaw_cases (rawNow temp mv s) (resetResidual rst s) <;>
    rw [h, hr] <;> exact ⟨_, _, _, _, rfl⟩

/-- Settles O56: command by command, what the meaning of its name writes. -/
theorem commandWritesOnlyItsColumns : Obligations.CommandWritesOnlyItsColumns := by
  unfold Obligations.CommandWritesOnlyItsColumns
  intro i s t h
  cases i with
  | perRegister cb freq =>
    cases h
    exact withFreq_elim (p := commandKeeps (.perRegister cb freq) s) freq (fun _ => rfl) rfl
  | perDisable freq =>
    cases h
    exact withFreq_elim (p := commandKeeps (.perDisable freq) s) freq (fun _ => rfl) rfl
  | compRegister idx cb d =>
    cases h
    exact withSlot_elim (p := commandKeeps (.compRegister idx cb d) s) idx
      (fun _ => scheduleNext_frame_of_slots rfl) rfl
  | compDisable idx =>
    cases h
    exact withSlot_elim (p := commandKeeps (.compDisable idx) s) idx (fun _ => scheduleNext_frame_of_slots rfl) rfl
  | compRegisterNs idx cb d =>
    cases h
    exact withSlot_elim (p := commandKeeps (.compRegisterNs idx cb d) s) idx (fun _ => rfl) rfl
  | compDisableNs idx =>
    cases h
    exact withSlot_elim (p := commandKeeps (.compDisableNs idx) s) idx (fun _ => rfl) rfl
  | compScheduleNext =>
    cases h
    exact scheduleNext_frame s
  | fcApply rst temp mv =>
    cases h
    obtain ⟨_, _, _, _, h⟩ := fcApply_frame rst temp mv s
    simp only [commandKeeps, h]
  | cbRet =>
    cases h
    simp only [commandKeeps, cbRet]
    split <;> rfl
  | setEpoch | getUnixTime | getCounter | getEpoch | perDisableMask | perDisableAll | compIsEnabled | getSched
  | fcSetProfile | fcCfgWr | fcCfgRd | fcDue | getTune =>
    cases h
    rfl

/-- The sequencer writes the compare channel, the slots, the periodic flags, itself and the trace. -/
theorem serviceStep_frame (first : Service) (s : Any.State k) :
    ∃ comp sched cmpIe cmpFlag slots perFlag seq trace, serviceStep first s =
      { s with comp := comp, sched := sched, cmpIe := cmpIe, cmpFlag := cmpFlag, slots := slots,
               perFlag := perFlag, seq := seq, trace := trace } := by
  obtain ⟨-, h⟩ | ⟨-, -, h⟩ | ⟨-, -, h⟩ | ⟨-, -, h⟩ := serviceStep_cases first s <;> rw [h]
  · obtain ⟨-, -, h⟩ | ⟨-, -, h⟩ | ⟨-, -, h⟩ := serviceEntry_cases first s <;>
      exact ⟨_, _, _, _, _, _, _, _, h⟩
  · obtain ⟨-, h⟩ | ⟨n, -, h⟩ := periodicScan_cases s <;> exact ⟨_, _, _, _, _, _, _, _, h⟩
  · obtain ⟨i, -, ⟨-, h⟩ | ⟨-, h⟩⟩ | ⟨-, h⟩ | ⟨-, h⟩ := compareStep_cases s
    · exact ⟨_, _, _, _, _, _, _, _, h⟩
    · exact ⟨_, _, _, _, _, _, _, _, h⟩
    · rw [h, compareFinish, scheduleNext_frame]
      exact ⟨_, _, _, _, _, _, _, _, rfl⟩
    · exact ⟨_, _, _, _, _, _, _, _, h⟩
  · exact ⟨_, _, _, _, _, _, _, _, rfl⟩

/-- A tick writes the counter, the epoch, both flag registers and the trace. -/
theorem tick_frame (s : Any.State k) :
    tick s = { s with c := s.c + 1, t0 := (tick s).t0, perFlag := (tick s).perFlag,
                      cmpFlag := s.cmpFlag || (s.cmpIe && s.c + 1 == s.comp), trace := (tick s).trace } := by
  unfold tick
  obtain ⟨-, h⟩ | ⟨-, h⟩ := detectOverflow_cases (countUp s) <;> rw [h] <;> rfl

/-- The epoch changes in no tick but the one that wraps the counter (R102). -/
theorem tick_t0 (s : Any.State k) : (tick s).t0 = s.t0 ∨ (tick s).c = 0 := by
  obtain ⟨h0, h⟩ | ⟨-, h⟩ := detectOverflow_cases (countUp s)
  · exact .inr ((congrArg (·.c) (tick_frame s)).trans h0)
  · exact .inl (congrArg (·.t0) h)

/-- What the outside does next is all that taking the turn and the word changes. -/
theorem passTurn_takeCommand_frame (s : Any.State k) :
    ∃ port turns draws, s.passTurn.takeCommand = { s with port := port, turns := turns, draws := draws } := by
  rw [takeCommand_frame, passTurn_frame]
  exact ⟨_, _, _, rfl⟩

end Sys2Proof.Machine
end

