-- ==== Sys2Proof/Proofs/CounterWriters.lean ====
section
/-! Who writes the counter and the epoch (spec/10_state.md R21, R22). -/

namespace Sys2Proof.Machine

/-- No command writes the counter; `SET_EPOCH` alone writes the epoch (R39). -/
theorem exec_c_t0 {i : Instr} {s t : State} (h : exec i s = .next t) :
    t.c = s.c ∧ (t.t0 = s.t0 ∨ ∃ u, i = .setEpoch u) := by
  have hk := commandWritesOnlyItsColumns i s t h
  cases i with
  | setEpoch u => exact ⟨congrArg (·.c) hk, .inr ⟨u, rfl⟩⟩
  | _ => exact ⟨congrArg (·.c) hk, .inl (congrArg (·.t0) hk)⟩

/-- Settles O57, agent by agent. -/
theorem counterAndEpochWriters : Obligations.CounterAndEpochWriters := by
  unfold Obligations.CounterAndEpochWriters
  intro s t h hcold
  obtain ⟨hn, rfl⟩ | ⟨hn, -, rfl⟩ | ⟨hn, -, h⟩ | ⟨first, hn, rfl⟩ | ⟨hn, -⟩ := step_cases h
  · have hc : (tick s.passTurn).c = s.c + 1 := by rw [tick_frame, passTurn_frame]
    refine ⟨.inl ⟨hn, hc⟩, ?_⟩
    obtain h0 | h0 := tick_t0 s.passTurn
    · exact .inl (h0.trans (congrArg (·.t0) (passTurn_frame s)))
    · exact .inr (.inl ⟨hn, h0⟩)
  · rw [passTurn_frame, hn]
    exact ⟨.inr ⟨nofun, rfl⟩, .inl rfl⟩
  · obtain ⟨port, turns, draws, hu⟩ := passTurn_takeCommand_frame s
    have hc : s.passTurn.takeCommand.c = s.c := congrArg (·.c) hu
    have ht : s.passTurn.takeCommand.t0 = s.t0 := congrArg (·.t0) hu
    obtain ⟨i, hd, hr⟩ | ⟨e, -, hr⟩ := runWord_cases s.passTurn.presented s.passTurn.takeCommand
    · obtain ⟨hic, hit⟩ := exec_c_t0 (hr.symm.trans h)
      refine ⟨.inr ⟨by simp [hn], hic.trans hc⟩, ?_⟩
      obtain hit | ⟨u, rfl⟩ := hit
      · exact .inl (hit.trans ht)
      · exact .inr (.inr ⟨u, hn, hd⟩)
    · cases hr.symm.trans h
      exact ⟨.inr ⟨by simp [hn], hc⟩, .inl ht⟩
  · obtain ⟨_, _, _, _, _, _, _, _, hs⟩ := serviceStep_frame first s.passTurn
    rw [hs, passTurn_frame, hn]
    exact ⟨.inr ⟨nofun, rfl⟩, .inl rfl⟩
  · exact absurd hn hcold

end Sys2Proof.Machine
end

