-- ==== Sys2Proof/Proofs/Reset.lean ====
section
/-! The state after a cold reset (spec/10_state.md R40, R42). -/

namespace Sys2Proof.Machine

variable {k : Config}

/-- The scheduled compare at reset lies one tick past the grace behind counter 0, in exact integers. -/
theorem coldReset_sched (k : Config) : (Any.State.coldReset k).sched.toNat = umod32 (-(k.grace : Int) - 1) := by
  have h : (Any.State.coldReset k).sched = 0#32 - BitVec.ofNat 32 k.grace - 1#32 := rfl
  rw [h]
  simp only [BitVec.toNat_sub, BitVec.toNat_ofNat, umod32]
  omega

/-- Every compare slot is disabled at reset. -/
theorem coldReset_slots_disabled (k : Config) (i : Fin k.nComp) :
    (Any.State.coldReset k).slots[i].enabled = false := by
  simp [Any.State.coldReset]

/-- Settles O10, row by row of the reset table. -/
theorem coldResetStateValues : Obligations.ColdResetStateValues := by
  unfold Obligations.ColdResetStateValues
  intro k
  exact
    { c := rfl, t0 := rfl, comp := rfl, cmpIe := rfl, cmpFlag := rfl, perEn := rfl, perFlag := rfl, profile := rfl
      cadence := rfl, freq := rfl, tcenter := rfl, a2 := rfl, a3 := rfl, aging := rfl, anchor := rfl, resid := rfl
      lastW := rfl, tune := rfl, mode := rfl, inCb := rfl
      sched := coldReset_sched k
      slots := coldReset_slots_disabled k }

/-- The registers after reset meet R42 (a), (b), (d), (e), (f): the channel is disarmed, the residual 0, no window is
open and the cache empty. -/
theorem coldReset_inv (k : Config) : (Any.State.coldReset k).Inv where
  armedMatches := nofun
  flagArmed := nofun
  residLow := show (-15 : Int) ≤ (0 : Half).toInt by decide
  residHigh := show (0 : Half).toInt ≤ 15 by decide
  windowInPass := nofun
  cacheTrue := nofun

/-- An idle sequencer has no cursor or snapshot to keep in range. -/
theorem coldReset_seqInv (k : Config) : (Any.State.coldReset k).SeqInv where
  comparing := nofun
  windowPassed := nofun
  periodic := nofun
  noBitAbove := nofun
  noBitAtWindow := nofun

theorem coldReset_tuneInv (k : Config) : (Any.State.coldReset k).TuneInv where
  tune := show (0 : Byte) ≠ 0x80 by decide
  cache := nofun

/-- Settles O12. -/
theorem resetSatisfiesInvariants : Obligations.ResetSatisfiesInvariants :=
  fun k => ⟨coldReset_inv k, coldReset_seqInv k, coldReset_tuneInv k⟩

end Sys2Proof.Machine
end

