-- ==== Sys2Proof/Proofs/Arming.lean ====
section
/-! The compare channel is armed only for an enabled slot (spec/10_state.md R42 (c), log 26). -/

namespace Sys2Proof.Machine

variable {k : Config}

/-- The arbiter leaves the channel armed exactly when it finds a slot enabled (R142). -/
theorem scheduleNext_armed_iff (s : Any.State k) :
    (scheduleNext s).cmpIe = true ↔ ∃ i : Fin k.nComp, s.slots[i].enabled = true := by
  have hwin : (∃ i : Fin k.nComp, s.slots[i].enabled = true) ↔ winner k s.c s.slots ≠ none := by
    simp [winner_eq_none]
  rw [hwin]
  obtain ⟨hw, h⟩ | ⟨w, hw, ⟨hie, -, h⟩ | ⟨-, h⟩⟩ := scheduleNext_cases s
  · simp [h, hw]
  · simp [h, hw, hie]
  · simp [h, hw]

/-- Passing from `s` to `t` raises `CMP_IE` only with a slot enabled in `t`. -/
def ArmsWithSlot (s t : Any.State k) : Prop :=
  s.cmpIe = false → t.cmpIe = true → ∃ i : Fin k.nComp, t.slots[i].enabled = true

theorem ArmsWithSlot.of_cmpIe_eq {s t : Any.State k} (h : t.cmpIe = s.cmpIe) : ArmsWithSlot s t :=
  fun hs ht => absurd (h.symm.trans ht) (by simp [hs])

/-- A run of the arbiter, on whatever state. -/
theorem armsWithSlot_scheduleNext (s u : Any.State k) : ArmsWithSlot s (scheduleNext u) :=
  fun _ ht => by simpa using (scheduleNext_armed_iff u).mp ht

/-- Of the commands only those that run the arbiter can arm the channel (R39). -/
theorem armsWithSlot_exec {i : Instr} {s t : State} (h : exec i s = .next t) : ArmsWithSlot s t := by
  have hk := commandWritesOnlyItsColumns i s t h
  cases i with
  | compRegister idx cb d =>
    cases h
    exact withSlot_elim (p := ArmsWithSlot s) idx (fun _ => armsWithSlot_scheduleNext s _) (.of_cmpIe_eq rfl)
  | compDisable idx =>
    cases h
    exact withSlot_elim (p := ArmsWithSlot s) idx (fun _ => armsWithSlot_scheduleNext s _) (.of_cmpIe_eq rfl)
  | compScheduleNext => cases h; exact armsWithSlot_scheduleNext s s
  | _ => exact .of_cmpIe_eq (congrArg (·.cmpIe) hk)

/-- Of the sequencer's steps only the finish of a compare pass, which runs the arbiter, can arm the channel (R223). -/
theorem armsWithSlot_serviceStep (first : Service) (s : Any.State k) : ArmsWithSlot s (serviceStep first s) := by
  obtain ⟨-, h⟩ | ⟨-, -, h⟩ | ⟨-, -, h⟩ | ⟨-, -, h⟩ := serviceStep_cases first s <;> rw [h]
  · obtain ⟨-, -, h⟩ | ⟨-, -, h⟩ | ⟨-, -, h⟩ := serviceEntry_cases first s <;> rw [h] <;>
      exact .of_cmpIe_eq rfl
  · obtain ⟨-, h⟩ | ⟨n, -, h⟩ := periodicScan_cases s <;> rw [h] <;> exact .of_cmpIe_eq rfl
  · obtain ⟨i, -, ⟨-, h⟩ | ⟨-, h⟩⟩ | ⟨-, h⟩ | ⟨-, h⟩ := compareStep_cases s <;> rw [h]
    · exact .of_cmpIe_eq rfl
    · exact .of_cmpIe_eq rfl
    · exact armsWithSlot_scheduleNext s s
    · exact .of_cmpIe_eq rfl
  · exact .of_cmpIe_eq rfl

/-- Settles O16: the arbiter's own rule, and for a step the agents that can run it. -/
theorem armedOnlyWithSlotEnabled : Obligations.ArmedOnlyWithSlotEnabled := by
  unfold Obligations.ArmedOnlyWithSlotEnabled
  refine ⟨fun k => scheduleNext_armed_iff, fun s t h hs ht => ?_⟩
  have hp : s.passTurn.cmpIe = false := (congrArg (·.cmpIe) (passTurn_frame s)).trans hs
  obtain ⟨-, rfl⟩ | ⟨-, -, rfl⟩ | ⟨-, -, h⟩ | ⟨first, -, rfl⟩ | ⟨-, rfl⟩ := step_cases h
  · exact ArmsWithSlot.of_cmpIe_eq (congrArg (·.cmpIe) (tick_frame s.passTurn)) hp ht
  · exact ArmsWithSlot.of_cmpIe_eq rfl hp ht
  · have hu : s.passTurn.takeCommand.cmpIe = false := (congrArg (·.cmpIe) (takeCommand_frame s.passTurn)).trans hp
    obtain ⟨i, -, hr⟩ | ⟨e, -, hr⟩ := runWord_cases s.passTurn.presented s.passTurn.takeCommand
    · exact armsWithSlot_exec (hr.symm.trans h) hu ht
    · cases hr.symm.trans h
      exact ArmsWithSlot.of_cmpIe_eq rfl hu ht
  · exact armsWithSlot_serviceStep first s.passTurn hp ht
  · cases ht

end Sys2Proof.Machine
end

