-- ==== Sys2Proof/Proofs/RegisterInvariants.lean ====
section
/-! Every step keeps the register invariants (spec/10_state.md R42 (a), (b), (d), (e), (f)). -/

namespace Sys2Proof.Machine

variable {k : Config}

/-- Dithering is symmetric about 0: both divisions truncate (R180). -/
theorem ditherLsb_neg (sum : Int) : ditherLsb (-sum) = -ditherLsb sum := by
  simp only [ditherLsb, mul_neg, Int.neg_tdiv, Int.sign_neg, ← neg_add]

/-- A sum that is not negative is rounded to within half of 31 (R180). -/
theorem ditherLsb_bounds_of_nonneg {sum : Int} (h : 0 ≤ sum) :
    -15 ≤ sum - ditherLsb sum * 31 ∧ sum - ditherLsb sum * 31 ≤ 15 := by
  have hq : (2 * sum).tdiv Config.ditherD = 2 * sum / 31 := Int.tdiv_eq_ediv_of_nonneg (by omega)
  obtain h0 | hpos : 2 * sum / 31 = 0 ∨ 0 < 2 * sum / 31 := by omega
  · have hl : ditherLsb sum = 0 := by simp [ditherLsb, hq, h0]
    omega
  · have hl : ditherLsb sum = (2 * sum / 31 + 1) / 2 := by
      simp only [ditherLsb, hq, Int.sign_eq_one_of_pos hpos]
      exact Int.tdiv_eq_ediv_of_nonneg (by omega)
    omega

/-- Dithering leaves at most half a step either way (R181). -/
theorem ditherRemainder_bounds (sum : Int) : -15 ≤ ditherRemainder sum ∧ ditherRemainder sum ≤ 15 := by
  show -15 ≤ sum - ditherLsb sum * 31 ∧ sum - ditherLsb sum * 31 ≤ 15
  obtain h | h := le_total 0 sum
  · exact ditherLsb_bounds_of_nonneg h
  · have hb := ditherLsb_bounds_of_nonneg (sum := -sum) (by omega)
    rw [ditherLsb_neg] at hb
    omega

namespace Any.State.Inv

/-- (a), (b): the arbiter disarms and drops the flag, or arms with `S = COMP` (R142). -/
theorem scheduleNext {s : Any.State k} (hi : s.Inv) : (scheduleNext s).Inv := by
  obtain ⟨-, h⟩ | ⟨w, -, ⟨-, -, h⟩ | ⟨-, h⟩⟩ := scheduleNext_cases s <;> rw [h]
  · exact { hi with armedMatches := nofun, flagArmed := nofun }
  · exact hi
  · exact { hi with armedMatches := fun _ => rfl, flagArmed := fun _ => rfl }

/-- (d), (f): a correction leaves a residual of at most half a step, and caches what it writes. -/
theorem applyRaw {s : Any.State k} (hi : s.Inv) (raw : Int) : (applyRaw raw s).Inv := by
  obtain ⟨hlow, hhigh⟩ := ditherRemainder_bounds (raw + s.resid.toInt)
  have hr : (BitVec.ofInt 16 (ditherRemainder (raw + s.resid.toInt))).toInt =
      ditherRemainder (raw + s.resid.toInt) := by
    rw [BitVec.toInt_ofInt, Int.bmod_eq_of_le] <;> omega
  obtain ⟨-, h⟩ | ⟨-, h⟩ := applyRaw_cases raw s <;> rw [h]
  · exact { hi with residLow := hlow.trans_eq hr.symm, residHigh := hr.trans_le hhigh }
  · exact { hi with residLow := hlow.trans_eq hr.symm, residHigh := hr.trans_le hhigh
                    cacheTrue := fun _ h => Option.some.inj h }

/-- `FC_APPLY.R` starts from residual 0 (R186 step 1). -/
theorem resetResidual {s : Any.State k} (hi : s.Inv) (rst : Bool) : (resetResidual rst s).Inv := by
  cases rst with
  | false => exact hi
  | true =>
    exact { hi with residLow := show (-15 : Int) ≤ (0 : Half).toInt by decide
                    residHigh := show (0 : Half).toInt ≤ 15 by decide }

/-- (b): a tick sets the flag only when the channel is armed (R144). -/
theorem tick {s : Any.State k} (hi : s.Inv) : (tick s).Inv := by
  rw [tick_frame]
  refine { hi with flagArmed := fun hf => ?_ }
  have hf : (s.cmpFlag || (s.cmpIe && s.c + 1 == s.comp)) = true := hf
  rw [Bool.or_eq_true, Bool.and_eq_true] at hf
  exact hf.elim hi.flagArmed And.left

/-- (e): `CB_RET` opens no window (R217). -/
theorem cbRet {s : Any.State k} (hi : s.Inv) : (cbRet s).Inv := by
  unfold Machine.cbRet
  split
  · exact { hi with windowInPass := nofun }
  · exact hi

/-- A command that runs no arbiter, corrects nothing and closes no window keeps the invariants by its columns (R39). -/
theorem exec {i : Instr} {s t : Machine.State} (hi : s.Inv) (h : Machine.exec i s = .next t) : t.Inv := by
  have hk := commandWritesOnlyItsColumns i s t h
  cases i with
  | compRegister idx cb d => cases h; exact withSlot_elim idx (fun _ => scheduleNext { hi with }) hi
  | compDisable idx => cases h; exact withSlot_elim idx (fun _ => scheduleNext { hi with }) hi
  | compScheduleNext => cases h; exact hi.scheduleNext
  | fcApply rst temp mv => cases h; exact (hi.resetResidual rst).applyRaw _
  | cbRet => cases h; exact hi.cbRet
  | _ => rw [show t = _ from hk]; exact { hi with }

/-- (e): the sequencer opens a window only in an open pass, and ends a pass only with none open (R216, R219, R223). -/
theorem serviceStep {s : Any.State k} (hi : s.Inv) (first : Service) : (serviceStep first s).Inv := by
  obtain ⟨-, h⟩ | ⟨hm, hcb, h⟩ | ⟨hm, hcb, h⟩ | ⟨-, -, h⟩ := serviceStep_cases first s <;> rw [h]
  · obtain ⟨-, -, h⟩ | ⟨-, -, h⟩ | ⟨-, -, h⟩ := serviceEntry_cases first s <;> rw [h]
    · exact { hi with windowInPass := nofun }
    · exact { hi with flagArmed := nofun, windowInPass := nofun }
    · exact hi
  · obtain ⟨-, h⟩ | ⟨n, -, h⟩ := periodicScan_cases s <;> rw [h]
    · exact { hi with windowInPass := fun h => absurd (hcb.symm.trans h) nofun }
    · exact { hi with windowInPass := fun _ h => absurd (hm.symm.trans h) nofun }
  · obtain ⟨i, -, ⟨-, h⟩ | ⟨-, h⟩⟩ | ⟨-, h⟩ | ⟨-, h⟩ := compareStep_cases s <;> rw [h]
    · exact { hi with windowInPass := fun _ h => absurd (hm.symm.trans h) nofun }
    · exact { hi with }
    · have hseq : (compareFinish s).seq.inCb = s.seq.inCb := congrArg (·.seq.inCb) (scheduleNext_frame s)
      exact { hi.scheduleNext with windowInPass := fun h => absurd (hcb.symm.trans (hseq.symm.trans h)) nofun }
    · exact hi
  · exact hi

end Any.State.Inv

/-- Settles O13, agent by agent. -/
theorem stepKeepsRegisterInvariants : Obligations.StepKeepsRegisterInvariants := by
  unfold Obligations.StepKeepsRegisterInvariants
  intro s t hi h
  have hp : s.passTurn.Inv := by rw [passTurn_frame]; exact { hi with }
  obtain ⟨-, rfl⟩ | ⟨-, -, rfl⟩ | ⟨-, -, h⟩ | ⟨first, -, rfl⟩ | ⟨-, rfl⟩ := step_cases h
  · exact hp.tick
  · exact hp
  · have hu : s.passTurn.takeCommand.Inv := by rw [takeCommand_frame]; exact { hp with }
    obtain ⟨i, -, hr⟩ | ⟨e, -, hr⟩ := runWord_cases s.passTurn.presented s.passTurn.takeCommand
    · exact hu.exec (hr.symm.trans h)
    · cases hr.symm.trans h
      exact hu
  · exact hp.serviceStep first
  · exact { coldReset_inv Config.taken with }

end Sys2Proof.Machine
end

