-- ==== Sys2Proof/Proofs/UnreadContents.lean ====
section
/-! Contents that reset leaves unspecified are never read (spec/93_implementation_defined.md U6, log 8): two states that
agree on all that is read go on to two states that agree so again. An operation on the registers alone keeps the
agreement by not seeing the rest (`RegisterOp`); one that writes a slot, a token or the sequencer writes the same into
both. -/

namespace Sys2Proof.Machine

variable {k : Config}

/-- `s` with other slots, periodic tokens and sequencer. -/
def Any.State.overlay (s : Any.State k) (slots : Vector (Slot k.cbWidth) k.nComp) (perCb : Vector (BitVec k.cbWidth) 8)
    (seq : Seq) : Any.State k := { s with slots := slots, perCb := perCb, seq := seq }

/-- An operation that neither reads nor writes slots, periodic tokens and sequencer, and enables no periodic slot. -/
structure RegisterOp (f : Any.State k → Any.State k) : Prop where
  commutes : ∀ s slots perCb seq, f (s.overlay slots perCb seq) = (f s).overlay slots perCb seq
  enablesNone : ∀ s (n : Fin 8), (f s).perEn.getLsbD n.val = true → s.perEn.getLsbD n.val = true

namespace RegisterOp

theorem comp {f g : Any.State k → Any.State k} (hg : RegisterOp g) (hf : RegisterOp f) :
    RegisterOp (fun s => g (f s)) where
  commutes s slots perCb seq := by rw [hf.commutes, hg.commutes]
  enablesNone s n h := hf.enablesNone s n (hg.enablesNone _ n h)

theorem emit (e : Event k.cbWidth) : RegisterOp (emit e) := ⟨fun _ _ _ _ => rfl, fun _ _ => id⟩

theorem respond (v : Word) : RegisterOp (k := k) (respond v) := ⟨fun _ _ _ _ => rfl, fun _ _ => id⟩

theorem disarm : RegisterOp (k := k) disarm := ⟨fun _ _ _ _ => rfl, fun _ _ => id⟩

theorem arm (d : Word) : RegisterOp (k := k) (arm d) := ⟨fun _ _ _ _ => rfl, fun _ _ => id⟩

/-- A choice by what the registers hold. -/
theorem ite {p : Any.State k → Prop} [DecidablePred p] {f g : Any.State k → Any.State k}
    (hp : ∀ s slots perCb seq, p (s.overlay slots perCb seq) ↔ p s) (hf : RegisterOp f) (hg : RegisterOp g) :
    RegisterOp (fun s => if p s then f s else g s) where
  commutes s slots perCb seq := by
    by_cases h : p s
    · rw [if_pos h, if_pos ((hp s slots perCb seq).mpr h), hf.commutes]
    · rw [if_neg h, if_neg (mt (hp s slots perCb seq).mp h), hg.commutes]
  enablesNone s n := by
    split
    · exact hf.enablesNone s n
    · exact hg.enablesNone s n

theorem standOrArm (d : Word) : RegisterOp (k := k) (standOrArm d) :=
  ite (p := fun s => s.cmpIe = true ∧ d = s.sched) (fun _ _ _ _ => Iff.rfl)
    ⟨fun _ _ _ _ => rfl, fun _ _ => id⟩ (arm d)

theorem disablePeriodic (bits : Byte) : RegisterOp (k := k) (disablePeriodic bits) where
  commutes _ _ _ _ := rfl
  enablesNone s n h := by
    rw [disablePeriodic_perEn, BitVec.getLsbD_and, Bool.and_eq_true] at h
    exact h.1

theorem perDisableAll : RegisterOp (k := k) perDisableAll where
  commutes _ _ _ _ := rfl
  enablesNone s n h := by
    have h : (0 : Byte).getLsbD n.val = true := h
    simp at h

theorem resetResidual (rst : Bool) : RegisterOp (k := k) (resetResidual rst) := by
  cases rst <;> exact ⟨fun _ _ _ _ => rfl, fun _ _ => id⟩

theorem writeTune (v : Byte) : RegisterOp (k := k) (writeTune v) :=
  ite (p := fun s => s.lastW = some v) (fun _ _ _ _ => Iff.rfl) ⟨fun _ _ _ _ => rfl, fun _ _ => id⟩
    ⟨fun _ _ _ _ => rfl, fun _ _ => id⟩

/-- The dithering sum is computed from the residual (R180). -/
theorem applyRaw (raw : Int) : RegisterOp (k := k) (applyRaw raw) where
  commutes s := (writeTune (ditherCode (raw + s.resid.toInt))).commutes
    { s with resid := BitVec.ofInt 16 (ditherRemainder (raw + s.resid.toInt)) }
  enablesNone s := (writeTune (ditherCode (raw + s.resid.toInt))).enablesNone
    { s with resid := BitVec.ofInt 16 (ditherRemainder (raw + s.resid.toInt)) }

/-- The correction is evaluated from registers (R186). -/
theorem fcApply (rst : Bool) (temp mv : Half) : RegisterOp (k := k) (fcApply rst temp mv) where
  commutes s := ((applyRaw (rawNow temp mv s)).comp (resetResidual rst)).commutes s
  enablesNone s := ((applyRaw (rawNow temp mv s)).comp (resetResidual rst)).enablesNone s

theorem detectOverflow : RegisterOp (k := k) detectOverflow :=
  ite (p := fun s => s.c = 0) (fun _ _ _ _ => Iff.rfl)
    ((emit .ovf).comp (f := fun s => { s with t0 := s.t0 + Config.overflowSeconds })
      ⟨fun _ _ _ _ => rfl, fun _ _ => id⟩)
    ⟨fun _ _ _ _ => rfl, fun _ _ => id⟩

/-- The four parts of R100. -/
theorem tick : RegisterOp (k := k) tick :=
  have count : RegisterOp (k := k) countUp := ⟨fun _ _ _ _ => rfl, fun _ _ => id⟩
  have dividers : RegisterOp (k := k) raisePeriodic := ⟨fun _ _ _ _ => rfl, fun _ _ => id⟩
  have compare : RegisterOp (k := k) matchCompare := ⟨fun _ _ _ _ => rfl, fun _ _ => id⟩
  compare.comp (dividers.comp (detectOverflow.comp count))

theorem passTurn : RegisterOp (k := k) Any.State.passTurn where
  commutes s slots perCb seq := by
    cases h : s.turns <;> simp only [Any.State.passTurn, Any.State.overlay, h]
  enablesNone s n := by rw [passTurn_frame]; exact id

theorem takeCommand : RegisterOp (k := k) Any.State.takeCommand where
  commutes s slots perCb seq := by
    cases h : s.port <;> simp only [Any.State.takeCommand, Any.State.overlay, h]
  enablesNone s n := by rw [takeCommand_frame]; exact id

end RegisterOp

/-! ## The arbiter reads enabled slots only (R142) -/

/-- Two slot tables agree: the same slots are enabled, with the same contents. -/
def slotsAgree {w n : Nat} (a b : Vector (Slot w) n) : Prop :=
  (∀ i : Fin n, a[i].enabled = b[i].enabled) ∧ ∀ i : Fin n, a[i].enabled = true → a[i] = b[i]

theorem enabledSlots_eq_of_agree {w n : Nat} {a b : Vector (Slot w) n} (h : slotsAgree a b) :
    enabledSlots a = enabledSlots b :=
  List.filter_congr fun i _ => h.1 i

theorem sooner_cases {w n : Nat} (now : Word) (slots : Vector (Slot w) n) (i j : Fin n) :
    sooner k now slots i j = i ∨ sooner k now slots i j = j := by
  unfold sooner
  split
  · exact .inr rfl
  · exact .inl rfl

theorem foldl_sooner_mem {w n : Nat} (now : Word) (slots : Vector (Slot w) n) (i : Fin n) (l : List (Fin n)) :
    l.foldl (sooner k now slots) i ∈ i :: l := by
  induction l generalizing i with
  | nil => simp
  | cons j l ih =>
    obtain h | h := List.mem_cons.mp (ih (sooner k now slots i j))
    · rw [List.foldl_cons, h]
      obtain hs | hs := sooner_cases (k := k) now slots i j <;> simp [hs]
    · exact List.mem_cons_of_mem _ (List.mem_cons_of_mem _ h)

/-- The winner is enabled (R142 step 4). -/
theorem winner_enabled {w n : Nat} {now : Word} {slots : Vector (Slot w) n} {i : Fin n}
    (h : winner k now slots = some i) : slots[i].enabled = true := by
  rw [← mem_enabledSlots]
  unfold winner at h
  cases hl : enabledSlots slots with
  | nil => rw [hl] at h; cases h
  | cons j l =>
    rw [hl] at h
    cases h
    exact foldl_sooner_mem now slots j l

/-- Over enabled slots the two tables' distances are the same. -/
theorem foldl_sooner_eq_of_agree {w n : Nat} (now : Word) {a b : Vector (Slot w) n} (h : slotsAgree a b)
    (i : Fin n) (l : List (Fin n)) (hl : ∀ j ∈ i :: l, a[j].enabled = true) :
    l.foldl (sooner k now a) i = l.foldl (sooner k now b) i := by
  induction l generalizing i with
  | nil => rfl
  | cons j l ih =>
    have hi : a[i] = b[i] := h.2 i (hl i (by simp))
    have hj : a[j] = b[j] := h.2 j (hl j (by simp))
    have hs : sooner k now a i j = sooner k now b i j := by unfold sooner; rw [hi, hj]
    rw [List.foldl_cons, List.foldl_cons, ← hs]
    refine ih _ fun m hm => hl m ?_
    obtain rfl | hm := List.mem_cons.mp hm
    · obtain hs | hs := sooner_cases (k := k) now a i j <;> simp [hs]
    · simp [hm]

theorem winner_eq_of_agree {w n : Nat} (now : Word) {a b : Vector (Slot w) n} (h : slotsAgree a b) :
    winner k now a = winner k now b := by
  unfold winner
  rw [← enabledSlots_eq_of_agree h]
  cases hl : enabledSlots a with
  | nil => rfl
  | cons i l =>
    exact congrArg some (foldl_sooner_eq_of_agree now h i l fun j hj => mem_enabledSlots.mp (hl ▸ hj))

/-- The same slot content goes into both tables; it need only agree as far as it is read. -/
theorem slotsAgree.set {w n : Nat} {a b : Vector (Slot w) n} (h : slotsAgree a b) (i : Fin n) {x y : Slot w}
    (hen : x.enabled = y.enabled) (hxy : x.enabled = true → x = y) : slotsAgree (a.set i x) (b.set i y) := by
  constructor <;> intro j <;> by_cases hj : i = j
  · subst hj; simpa using hen
  · have hv : i.val ≠ j.val := fun e => hj (Fin.ext e)
    simpa [Vector.getElem_set_ne, hv] using h.1 j
  · subst hj; simpa using hxy
  · have hv : i.val ≠ j.val := fun e => hj (Fin.ext e)
    simpa [Vector.getElem_set_ne, hv] using h.2 j

theorem perBit_getLsbD_of_ne {n m : Fin 8} (h : n ≠ m) : (perBit n).getLsbD m.val = false := by
  revert n m
  decide

/-! ## The agreement, operation by operation -/

namespace AgreeOnRead

variable {s s' : Any.State k}

theorem slots (h : AgreeOnRead s s') : slotsAgree s.slots s'.slots := ⟨h.enabled, h.slot⟩

/-- What is computed from registers alone is equal in both. -/
theorem reads_eq {β : Type} (h : AgreeOnRead s s') {g : Any.State k → β}
    (hg : ∀ (u : Any.State k) slots perCb seq, g (u.overlay slots perCb seq) = g u) : g s' = g s :=
  (congrArg g h.rest).trans (hg s s'.slots s'.perCb s'.seq)

theorem registerOp {f : Any.State k → Any.State k} (hf : RegisterOp f) (h : AgreeOnRead s s') :
    AgreeOnRead (f s) (f s') := by
  have hs : f s = (f s).overlay s.slots s.perCb s.seq := hf.commutes s s.slots s.perCb s.seq
  have hs' : f s' = (f s).overlay s'.slots s'.perCb s'.seq :=
    (congrArg f h.rest).trans (hf.commutes s s'.slots s'.perCb s'.seq)
  have hen := hf.enablesNone s
  generalize f s = u at hs hs' hen
  generalize f s' = u' at hs'
  subst hs'
  rw [hs]
  exact
    { rest := rfl, enabled := h.enabled, slot := h.slot, sequencer := h.sequencer
      token := fun n hn => h.token n (hn.imp (fun hb => hen n (hs ▸ hb)) id) }

/-- Both sequencers take values that agree; no token becomes live. -/
theorem withSeq (h : AgreeOnRead s s') {p q : Seq} (hpq : seqAgree p q)
    (hlive : ∀ n : Fin 8, p.mode = .per → p.psnap.getLsbD n.val = true → s.perLive n) :
    AgreeOnRead { s with seq := p } { s' with seq := q } where
  rest := congrArg (fun u => { u with seq := q }) h.rest
  enabled := h.enabled
  slot := h.slot
  token n hn := h.token n (hn.elim .inl fun hp => hlive n hp.1 hp.2)
  sequencer := hpq

theorem setSlot (h : AgreeOnRead s s') (i : Fin k.nComp) {x y : Slot k.cbWidth}
    (hen : x.enabled = y.enabled) (hxy : x.enabled = true → x = y) :
    AgreeOnRead { s with slots := s.slots.set i x } { s' with slots := s'.slots.set i y } where
  rest := congrArg (fun u => { u with slots := s'.slots.set i y }) h.rest
  enabled := (h.slots.set i hen hxy).1
  slot := (h.slots.set i hen hxy).2
  token := h.token
  sequencer := h.sequencer

theorem fillSlot (h : AgreeOnRead s s') (i : Fin k.nComp) (cb : BitVec k.cbWidth) (d : Word) :
    AgreeOnRead (fillSlot i cb d s) (fillSlot i cb d s') :=
  h.setSlot i rfl fun _ => rfl

/-- A cleared slot is read no more, whatever it held. -/
theorem clearSlot (h : AgreeOnRead s s') (i : Fin k.nComp) : AgreeOnRead (clearSlot i s) (clearSlot i s') :=
  h.setSlot i rfl nofun

theorem scheduleNext (h : AgreeOnRead s s') : AgreeOnRead (scheduleNext s) (scheduleNext s') := by
  have hc : s'.c = s.c := h.reads_eq fun _ _ _ _ => rfl
  unfold Machine.scheduleNext
  rw [hc, ← winner_eq_of_agree s.c h.slots]
  cases hw : winner k s.c s.slots with
  | none => exact h.registerOp .disarm
  | some w =>
    have hd : s.slots[w] = s'.slots[w] := h.slot w (winner_enabled hw)
    simp only [← hd]
    exact h.registerOp (.standOrArm _)

theorem withSlot (h : AgreeOnRead s s') (idx : Nat) {f : Fin k.nComp → Any.State k → Any.State k}
    (hf : ∀ i, AgreeOnRead (f i s) (f i s')) : AgreeOnRead (withSlot idx f s) (withSlot idx f s') := by
  unfold Machine.withSlot
  split
  · exact hf _
  · exact h

theorem withFreq (h : AgreeOnRead s s') (freq : Nat) {f : Fin 8 → Any.State k → Any.State k}
    (hf : ∀ n, AgreeOnRead (f n s) (f n s')) : AgreeOnRead (withFreq freq f s) (withFreq freq f s') := by
  unfold Machine.withFreq
  cases slotOf freq with
  | none => exact h
  | some n => exact hf n

theorem slotEnabled_eq (h : AgreeOnRead s s') (idx : Nat) : slotEnabled idx s = slotEnabled idx s' := by
  unfold slotEnabled
  split
  · next hidx => exact h.enabled ⟨idx, hidx⟩
  · rfl

/-- The new token goes into both tables, and the slot it makes live is its own. -/
theorem fillPeriodic (h : AgreeOnRead s s') (cb : BitVec k.cbWidth) (n : Fin 8) :
    AgreeOnRead (fillPeriodic cb n s) (fillPeriodic cb n s') where
  rest := congrArg (fun u =>
    { u with
      perFlag := if u.perEn.getLsbD n.val then u.perFlag else u.perFlag &&& ~~~ perBit n
      perCb := s'.perCb.set n cb
      perEn := u.perEn ||| perBit n }) h.rest
  enabled := h.enabled
  slot := h.slot
  token m hm := by
    by_cases hnm : n = m
    · subst hnm; simp
    · have hv : n.val ≠ m.val := fun e => hnm (Fin.ext e)
      have hlive : s.perLive m := hm.imp (fun hb => by
        rwa [fillPeriodic_perEn, BitVec.getLsbD_or, perBit_getLsbD_of_ne hnm, Bool.or_false] at hb) id
      simpa [Vector.getElem_set_ne, hv] using h.token m hlive
  sequencer := h.sequencer

theorem cbRet (h : AgreeOnRead s s') : AgreeOnRead (cbRet s) (cbRet s') := by
  obtain ⟨hm, hcb, hper, hcmp⟩ := h.sequencer
  unfold Machine.cbRet
  rw [← hcb]
  split
  · exact h.withSeq ⟨hm, rfl, hper, hcmp⟩ fun n hp hb => .inr ⟨hp, hb⟩
  · exact h

/-- Ending a pass leaves nothing of the sequencer to agree on but the window. -/
theorem closePass (h : AgreeOnRead s s') : AgreeOnRead (closePass s) (closePass s') :=
  h.withSeq ⟨rfl, h.sequencer.2.1, nofun, nofun⟩ fun _ hp => nomatch hp

/-- A callback event opens the window in both. -/
theorem invoke (h : AgreeOnRead s s') (e : Event k.cbWidth) : AgreeOnRead (invoke e s) (invoke e s') := by
  obtain ⟨hm, -, hper, hcmp⟩ := h.sequencer
  have hopen := h.withSeq (p := { s.seq with inCb := true }) (q := { s'.seq with inCb := true })
    ⟨hm, rfl, hper, hcmp⟩ fun n hp hb => .inr ⟨hp, hb⟩
  exact hopen.registerOp (f := emit e) (.emit e)

/-- The snapshot is taken from registers, and holds enabled slots only (R218). -/
theorem periodicEntry (h : AgreeOnRead s s') : AgreeOnRead (periodicEntry s) (periodicEntry s') := by
  have hp : s'.perPending = s.perPending := h.reads_eq fun _ _ _ _ => rfl
  have hc : RegisterOp (k := k) (fun u => { u with perFlag := 0 }) := ⟨fun _ _ _ _ => rfl, fun _ _ => id⟩
  refine (h.registerOp hc).withSeq ⟨rfl, rfl, fun _ => hp.symm, nofun⟩ fun n _ hb => .inl ?_
  have hb : (s.perFlag &&& s.perEn).getLsbD n.val = true := hb
  rw [BitVec.getLsbD_and, Bool.and_eq_true] at hb
  exact hb.2

/-- The cursor starts at 0 and the counter is latched (R221). -/
theorem compareEntry (h : AgreeOnRead s s') : AgreeOnRead (compareEntry s) (compareEntry s') := by
  have hcl : s'.c = s.c := h.reads_eq fun _ _ _ _ => rfl
  have hc : RegisterOp (k := k) (fun u => { u with cmpFlag := false }) := ⟨fun _ _ _ _ => rfl, fun _ _ => id⟩
  exact (h.registerOp hc).withSeq ⟨rfl, rfl, nofun, fun _ => ⟨rfl, hcl.symm⟩⟩ fun _ hp => nomatch hp

theorem serviceEntry (h : AgreeOnRead s s') (first : Service) :
    AgreeOnRead (serviceEntry first s) (serviceEntry first s') := by
  have hp : s'.perRequest = s.perRequest := h.reads_eq fun _ _ _ _ => rfl
  have hc : s'.cmpRequest = s.cmpRequest := h.reads_eq fun _ _ _ _ => rfl
  unfold Machine.serviceEntry
  rw [hp, hc]
  split
  · exact h.periodicEntry
  · exact h.compareEntry
  · exact h.periodicEntry
  · exact h.compareEntry
  · exact h

/-- The token read is that of a slot of the snapshot, which is live (R219). -/
theorem invokePeriodic (h : AgreeOnRead s s') (hm : s.seq.mode = .per) {n : Fin 8}
    (hn : s.seq.psnap.getLsbD n.val = true) : AgreeOnRead (invokePeriodic n s) (invokePeriodic n s') := by
  obtain ⟨hmode, hcb, hper, -⟩ := h.sequencer
  have htok : s.perCb[n] = s'.perCb[n] := h.token n (.inr ⟨hm, hn⟩)
  have hseq : seqAgree { s.seq with psnap := s.seq.psnap &&& ~~~ perBit n, cursor := n.val }
      { s'.seq with psnap := s'.seq.psnap &&& ~~~ perBit n, cursor := n.val } :=
    ⟨hmode, hcb, fun _ => congrArg (· &&& ~~~ perBit n) (hper hm), fun hc => nomatch hm.symm.trans hc⟩
  unfold Machine.invokePeriodic
  rw [← htok]
  refine invoke (h.withSeq hseq fun m _ hb => ?_) _
  rw [BitVec.getLsbD_and, Bool.and_eq_true] at hb
  exact .inr ⟨hm, hb.1⟩

theorem periodicScan (h : AgreeOnRead s s') (hm : s.seq.mode = .per) :
    AgreeOnRead (periodicScan s) (periodicScan s') := by
  obtain ⟨-, -, hper, -⟩ := h.sequencer
  unfold Machine.periodicScan
  rw [← hper hm]
  cases hn : highestSlot s.seq.psnap with
  | none => exact h.closePass
  | some n => exact h.invokePeriodic hm (List.find?_some (p := fun n : Fin 8 => s.seq.psnap.getLsbD n.val) hn)

theorem passSlot (h : AgreeOnRead s s') (hm : s.seq.mode = .cmp) (i : Fin k.nComp) :
    AgreeOnRead (passSlot i s) (passSlot i s') := by
  obtain ⟨hmode, hcb, -, hcmp⟩ := h.sequencer
  exact h.withSeq ⟨hmode, hcb, fun hp => (nomatch hm.symm.trans hp), fun _ => ⟨rfl, (hcmp hm).2⟩⟩
    fun _ hp => nomatch hm.symm.trans hp

/-- Whether a slot is due reads its deadline only when it is enabled (R153). -/
theorem due_eq (h : AgreeOnRead s s') (c : Word) (i : Fin k.nComp) : s.slots[i].due k c = s'.slots[i].due k c := by
  cases hen : s.slots[i].enabled with
  | true => rw [h.slot i hen]
  | false => unfold Slot.due; rw [← h.enabled i, hen]; rfl

theorem compareScan (h : AgreeOnRead s s') (hm : s.seq.mode = .cmp) (i : Fin k.nComp) :
    AgreeOnRead (compareScan i s) (compareScan i s') := by
  obtain ⟨-, -, -, hcmp⟩ := h.sequencer
  unfold Machine.compareScan
  rw [← (hcmp hm).2, ← h.due_eq]
  split
  · next hdue =>
    have hen : s.slots[i].enabled = true := (Bool.and_eq_true_iff.mp hdue).1
    have hcb : s.slots[i] = s'.slots[i] := h.slot i hen
    unfold fireSlot
    rw [passSlot_slots, passSlot_slots, ← hcb]
    exact ((h.passSlot hm i).clearSlot i).invoke _
  · exact h.passSlot hm i

theorem compareStep (h : AgreeOnRead s s') (hm : s.seq.mode = .cmp) : AgreeOnRead (compareStep s) (compareStep s') := by
  obtain ⟨-, -, -, hcmp⟩ := h.sequencer
  unfold Machine.compareStep
  simp only [← (hcmp hm).1]
  split
  · exact h.compareScan hm _
  · split
    · exact h.scheduleNext.closePass
    · exact h

theorem serviceStep (h : AgreeOnRead s s') (first : Service) :
    AgreeOnRead (serviceStep first s) (serviceStep first s') := by
  obtain ⟨hmode, hcb, -, -⟩ := h.sequencer
  unfold Machine.serviceStep
  rw [← hmode, ← hcb]
  split
  · exact h.serviceEntry first
  · next hm _ => exact h.periodicScan hm
  · next hm _ => exact h.compareStep hm
  · exact h
  · exact h

theorem coldResetStep (h : AgreeOnRead s s') : AgreeOnRead (coldResetStep s) (coldResetStep s') := by
  have hs : Machine.coldResetStep s' = Machine.coldResetStep s :=
    h.reads_eq fun _ _ _ _ => rfl
  rw [hs]
  exact ⟨rfl, fun _ => rfl, fun _ _ => rfl, fun _ _ => rfl, rfl, rfl, fun _ => rfl, fun _ => ⟨rfl, rfl⟩⟩

end AgreeOnRead

/-! ## Commands, agents and the step -/

/-- Both outcomes go on, to states that agree. -/
def OutcomesAgree (o o' : Host.Outcome State Fault Refusal) : Prop :=
  ∃ t t', o = .next t ∧ o' = .next t' ∧ AgreeOnRead t t'

theorem OutcomesAgree.next {t t' : State} (h : AgreeOnRead t t') : OutcomesAgree (.next t) (.next t') :=
  ⟨t, t', rfl, rfl, h⟩

namespace AgreeOnRead

variable {s s' : State}

theorem exec (h : AgreeOnRead s s') (i : Instr) : OutcomesAgree (exec i s) (exec i s') := by
  cases i with
  | perRegister cb freq => exact .next (h.withFreq freq fun n => h.fillPeriodic _ n)
  | perDisable freq => exact .next (h.withFreq freq fun n => h.registerOp (.disablePeriodic (perBit n)))
  | perDisableMask bits => exact .next (h.registerOp (.disablePeriodic bits))
  | perDisableAll => exact .next (h.registerOp .perDisableAll)
  | compRegister idx cb d => exact .next (h.withSlot idx fun i => (h.fillSlot i _ d).scheduleNext)
  | compRegisterNs idx cb d => exact .next (h.withSlot idx fun i => h.fillSlot i _ d)
  | compDisable idx => exact .next (h.withSlot idx fun i => (h.clearSlot i).scheduleNext)
  | compDisableNs idx => exact .next (h.withSlot idx h.clearSlot)
  | compScheduleNext => exact .next h.scheduleNext
  | compIsEnabled idx =>
    rw [exec_compIsEnabled, exec_compIsEnabled, compIsEnabled, compIsEnabled, ← h.slotEnabled_eq]
    exact .next (h.registerOp (.respond _))
  | fcApply rst temp mv => exact .next (h.registerOp (.fcApply rst temp mv))
  | cbRet => exact .next h.cbRet
  | setEpoch | getUnixTime | getCounter | getEpoch | getSched | fcSetProfile | fcCfgWr | fcCfgRd | fcDue | getTune =>
    exact .next (h.registerOp ⟨fun _ _ _ _ => rfl, fun _ _ => id⟩)

theorem runWord (h : AgreeOnRead s s') (w : CmdWord) : OutcomesAgree (runWord w s) (runWord w s') := by
  unfold Machine.runWord
  cases decode w with
  | ok i => exact h.exec i
  | error e => exact .next h

theorem hostTurn (h : AgreeOnRead s s') : OutcomesAgree (hostTurn s) (hostTurn s') := by
  obtain ⟨hmode, hcb, -, -⟩ := h.sequencer
  have hacc : s'.accepting = s.accepting := by unfold Any.State.accepting; rw [hmode, hcb]
  have hword : s'.presented = s.presented := h.reads_eq fun _ _ _ _ => rfl
  unfold Machine.hostTurn
  rw [hacc, hword]
  split
  · exact (h.registerOp .takeCommand).runWord _
  · exact .next h

theorem runTurn (h : AgreeOnRead s s') (t : Turn) : OutcomesAgree (runTurn t s) (runTurn t s') := by
  cases t with
  | tick => exact .next (h.registerOp .tick)
  | command => exact h.hostTurn
  | service first => exact .next (h.serviceStep first)
  | coldReset => exact .next h.coldResetStep

theorem step (h : AgreeOnRead s s') : OutcomesAgree (step s) (step s') := by
  have hturn : s'.nextTurn = s.nextTurn := h.reads_eq fun _ _ _ _ => rfl
  unfold Machine.step
  rw [hturn]
  exact (h.registerOp .passTurn).runTurn _

end AgreeOnRead

/-- Settles O59: the agreement is a simulation relation of the step with itself. -/
theorem unspecifiedContentsNeverRead : Obligations.UnspecifiedContentsNeverRead := by
  unfold Obligations.UnspecifiedContentsNeverRead
  intro s s' t h hstep
  obtain ⟨u, u', hu, hu', hagree⟩ := h.step
  cases hstep.symm.trans hu
  exact ⟨u', hu', hagree⟩

end Sys2Proof.Machine
end

