-- ==== Sys2Proof/Proofs/RecordImage.lean ====
section
/-! The byte image of the correction record (spec/20_memory.md R63 to R65): taking a register apart into its bytes and
putting bytes together are inverse for each width the record has, so the two conversions of the record are. -/

namespace Sys2Proof.Machine

/-! ## The bytes of a register as numbers -/

/-- The bytes of a pattern are its digits to the base 256, least significant first (R64). -/
theorem bytesLE_map_toNat (n : Nat) {w : Nat} (v : BitVec w) :
    (bytesLE n v).map BitVec.toNat = (List.range n).map fun j => v.toNat / 2 ^ (8 * j) % 256 := by
  simp [bytesLE, Function.comp_def, BitVec.extractLsb'_toNat, Nat.shiftRight_eq_div_pow]

theorem bytesLE_half_map_toNat (v : Half) :
    (bytesLE 2 v).map BitVec.toNat = [v.toNat % 256, v.toNat / 256] := by
  have hv : v.toNat / 256 < 256 := by omega
  simp [bytesLE_map_toNat, List.range_succ, Nat.mod_eq_of_lt hv]

theorem bytesLE_word_map_toNat (v : Word) :
    (bytesLE 4 v).map BitVec.toNat =
      [v.toNat % 256, v.toNat / 256 % 256, v.toNat / 65536 % 256, v.toNat / 16777216] := by
  have hv : v.toNat / 16777216 < 256 := by omega
  simp [bytesLE_map_toNat, List.range_succ, Nat.mod_eq_of_lt hv]

/-! ## Bytes put together and taken apart again -/

theorem append_byte_toNat {w : Nat} (v : BitVec w) (b : Byte) : (v ++ b).toNat = b.toNat + 256 * v.toNat := by
  rw [BitVec.toNat_append, ← Nat.shiftLeft_add_eq_or_of_lt b.isLt, Nat.shiftLeft_eq]
  omega

theorem half_toNat (b0 b1 : Byte) : (half b0 b1).toNat = b0.toNat + 256 * b1.toNat :=
  append_byte_toNat b1 b0

theorem word_toNat (b0 b1 b2 b3 : Byte) :
    (word b0 b1 b2 b3).toNat = b0.toNat + 256 * (b1.toNat + 256 * (b2.toNat + 256 * b3.toNat)) := by
  simp only [word, append_byte_toNat]

@[simp] theorem bytesLE_one (b : Byte) : bytesLE 1 b = [b] := by
  simp [bytesLE, List.range_succ]

theorem map_toNat_injective : Function.Injective (List.map (BitVec.toNat (w := 8))) :=
  List.map_injective_iff.mpr fun _ _ => BitVec.eq_of_toNat_eq

@[simp] theorem bytesLE_half (b0 b1 : Byte) : bytesLE 2 (half b0 b1) = [b0, b1] := by
  apply map_toNat_injective
  rw [bytesLE_half_map_toNat, half_toNat]
  simp only [List.map_cons, List.map_nil, List.cons.injEq, and_true]
  omega

@[simp] theorem bytesLE_word (b0 b1 b2 b3 : Byte) : bytesLE 4 (word b0 b1 b2 b3) = [b0, b1, b2, b3] := by
  apply map_toNat_injective
  rw [bytesLE_word_map_toNat, word_toNat]
  simp only [List.map_cons, List.map_nil, List.cons.injEq, and_true]
  omega

theorem exists_half (v : Half) : ∃ b0 b1, half b0 b1 = v := by
  refine ⟨v.extractLsb' 0 8, v.extractLsb' 8 8, BitVec.eq_of_toNat_eq ?_⟩
  simp only [half_toNat, BitVec.extractLsb'_toNat, Nat.shiftRight_eq_div_pow]
  omega

theorem exists_word (v : Word) : ∃ b0 b1 b2 b3, word b0 b1 b2 b3 = v := by
  refine ⟨v.extractLsb' 0 8, v.extractLsb' 8 8, v.extractLsb' 16 8, v.extractLsb' 24 8, BitVec.eq_of_toNat_eq ?_⟩
  simp only [word_toNat, BitVec.extractLsb'_toNat, Nat.shiftRight_eq_div_pow]
  omega

/-! ## The two conversions -/

/-- The bytes at their offsets (R63, R64). -/
theorem cfgToBytes_map_toNat (cfg : FcCfg) :
    (cfgToBytes cfg).map BitVec.toNat =
      [cfg.profile.toNat, cfg.cadence.toNat,
       cfg.freq.toNat % 256, cfg.freq.toNat / 256, cfg.tcenter.toNat % 256, cfg.tcenter.toNat / 256,
       cfg.a2.toNat % 256, cfg.a2.toNat / 256, cfg.a3.toNat % 256, cfg.a3.toNat / 256,
       cfg.aging.toNat % 256, cfg.aging.toNat / 256,
       cfg.anchor.toNat % 256, cfg.anchor.toNat / 256 % 256, cfg.anchor.toNat / 65536 % 256,
       cfg.anchor.toNat / 16777216] := by
  simp only [cfgToBytes, List.map_append, bytesLE_one, bytesLE_half_map_toNat, bytesLE_word_map_toNat]
  rfl

/-- A byte list that is a record is the image of that record. -/
theorem cfgToBytes_of_cfgOfBytes {b : List Byte} {cfg : FcCfg} (h : cfgOfBytes b = some cfg) : cfgToBytes cfg = b := by
  unfold cfgOfBytes at h
  split at h
  · cases h
    simp [cfgToBytes]
  · cases h

/-- Every record has sixteen bytes that are read as it. -/
theorem exists_cfgOfBytes_eq_some (cfg : FcCfg) : ∃ b, cfgOfBytes b = some cfg := by
  obtain ⟨p, c, freq, tcenter, a2, a3, aging, anchor⟩ := cfg
  obtain ⟨f0, f1, rfl⟩ := exists_half freq
  obtain ⟨t0, t1, rfl⟩ := exists_half tcenter
  obtain ⟨q0, q1, rfl⟩ := exists_half a2
  obtain ⟨k0, k1, rfl⟩ := exists_half a3
  obtain ⟨g0, g1, rfl⟩ := exists_half aging
  obtain ⟨n0, n1, n2, n3, rfl⟩ := exists_word anchor
  exact ⟨[p, c, f0, f1, t0, t1, q0, q1, k0, k1, g0, g1, n0, n1, n2, n3], rfl⟩

theorem cfgOfBytes_cfgToBytes (cfg : FcCfg) : cfgOfBytes (cfgToBytes cfg) = some cfg := by
  obtain ⟨b, hb⟩ := exists_cfgOfBytes_eq_some cfg
  rw [cfgToBytes_of_cfgOfBytes hb, hb]

/-- A byte list is a record exactly when it has sixteen bytes (R65). -/
theorem cfgOfBytes_isSome_iff (b : List Byte) : (cfgOfBytes b).isSome ↔ b.length = 16 := by
  constructor
  · intro h
    unfold cfgOfBytes at h
    split at h
    · rfl
    · cases h
  · intro h
    match b, h with
    | [_, _, _, _, _, _, _, _, _, _, _, _, _, _, _, _], _ => rfl

/-- Settles O54. -/
theorem recordRoundTrip : Obligations.RecordRoundTrip := by
  unfold Obligations.RecordRoundTrip
  refine ⟨fun cfg => ⟨cfgOfBytes_cfgToBytes cfg, cfgToBytes_map_toNat cfg⟩, fun b hb => ?_, fun b hb => ?_⟩
  · obtain ⟨cfg, h⟩ := Option.isSome_iff_exists.mp ((cfgOfBytes_isSome_iff b).mpr hb)
    exact ⟨cfg, h, cfgToBytes_of_cfgOfBytes h⟩
  · exact Option.not_isSome_iff_eq_none.mp (mt (cfgOfBytes_isSome_iff b).mp hb)

end Sys2Proof.Machine
end

