-- ==== Sys2Proof/Proofs/CommandStep.lean ====
section
/-! A turn of the host in which the presented word is accepted (spec/20_memory.md R70, R73, spec/60_exceptions.md
R215). -/

namespace Sys2Proof.Machine

variable {k : Config}

/-- Taking the turn does not decide whether a command is accepted. -/
@[simp] theorem passTurn_accepting (s : Any.State k) : s.passTurn.accepting = s.accepting := by
  rw [passTurn_frame]
  rfl

theorem runWord_of_decode {w : CmdWord} {i : Instr} (h : decode w = .ok i) (s : State) : runWord w s = exec i s := by
  rw [runWord, h]

/-- In a turn of the host that accepts, the step runs the presented word (R215). -/
theorem step_of_accepting {s : State} (hturn : s.nextTurn = .command) (hacc : s.accepting = true) :
    step s = runWord s.passTurn.presented s.passTurn.takeCommand := by
  rw [step, hturn, runTurn, hostTurn, passTurn_accepting, if_pos hacc]

/-- The same with the turn and the word scripted: the step runs that word with both taken (R73). -/
theorem step_of_accepting_scripted {s : State} {ts : List Turn} {w : CmdWord} {ws : List CmdWord}
    (hturns : s.turns = .command :: ts) (hport : s.port = w :: ws) (hacc : s.accepting = true) :
    step s = runWord w { s with turns := ts, port := ws } := by
  have hturn : s.nextTurn = .command := by simp [Any.State.nextTurn, hturns]
  have hpass : s.passTurn = { s with turns := ts } := by simp [Any.State.passTurn, hturns]
  rw [step_of_accepting hturn hacc, hpass]
  simp [Any.State.presented, Any.State.takeCommand, hport]

/-- Settles O5. -/
theorem stepRunsDecodedCommand : Obligations.StepRunsDecodedCommand := by
  unfold Obligations.StepRunsDecodedCommand
  constructor
  · intro s i ⟨hturn, hdecode⟩ hacc
    obtain ⟨port, turns, draws, hu⟩ := passTurn_takeCommand_frame s
    refine ⟨s.passTurn.takeCommand, by rw [hu], ?_⟩
    rw [step_of_accepting hturn hacc, runWord_of_decode hdecode]
  · intro s ts w ws i hturns hport hacc hdecode
    rw [step_of_accepting_scripted hturns hport hacc, runWord_of_decode hdecode]

end Sys2Proof.Machine
end

