-- ==== Sys2Proof/Proofs/Responses.lean ====
section
/-! Which commands answer, and what an answer leaves unchanged (spec/20_memory.md R68, spec/30_encoding.md R87). -/

namespace Sys2Proof.Machine

/-- Every command completes: there is no fault and no refusal (spec/60_exceptions.md R230). -/
theorem exec_completes (i : Instr) (s : State) : ∃ t, exec i s = .next t := by
  cases i <;> exact ⟨_, rfl⟩

/-- A read answers a value computed from the state without the responses, and writes only the response (R68). -/
theorem exec_of_responds {i : Instr} (h : i.responds = true) (s : State) :
    ∃ v : Word, ∀ l : List Word, exec i { s with rsps := l } = .next { s with rsps := l ++ [v] } := by
  cases i with
  | getUnixTime => exact ⟨s.wall, fun _ => rfl⟩
  | getCounter => exact ⟨s.c, fun _ => rfl⟩
  | getEpoch => exact ⟨s.t0, fun _ => rfl⟩
  | compIsEnabled idx => exact ⟨bitWord (slotEnabled idx s), fun _ => rfl⟩
  | getSched => exact ⟨s.sched, fun _ => rfl⟩
  | fcCfgRd field => exact ⟨s.cfg.read field, fun _ => rfl⟩
  | fcDue => exact ⟨bitWord (fcDueNow s.cfg s.wall), fun _ => rfl⟩
  | getTune => exact ⟨s.tune.zeroExtend 32, fun _ => rfl⟩
  | _ => cases h

/-- The responses are in no column a command without an answer writes (spec/10_state.md R39). -/
theorem exec_rsps_of_not_responds {i : Instr} {s t : State} (h : i.responds = false) (ht : exec i s = .next t) :
    t.rsps = s.rsps := by
  have hk := commandWritesOnlyItsColumns i s t ht
  cases i with
  | getUnixTime | getCounter | getEpoch | compIsEnabled | getSched | fcCfgRd | fcDue | getTune => cases h
  | _ => exact congrArg (·.rsps) hk

/-- Settles O55. -/
theorem readsOnlyRespond : Obligations.ReadsOnlyRespond := by
  unfold Obligations.ReadsOnlyRespond
  refine fun i s => ⟨fun h => ?_, fun h => ?_⟩
  · obtain ⟨v, hv⟩ := exec_of_responds h s
    exact ⟨v, hv s.rsps, hv⟩
  · obtain ⟨t, ht⟩ := exec_completes i s
    exact ⟨t, ht, exec_rsps_of_not_responds h ht⟩

end Sys2Proof.Machine
end

