-- ==== Sys2Proof/Proofs/EncodingRoundTrip.lean ====
section
/-! Decoding and encoding are inverse (spec/30_encoding.md R80 to R85). Both say the same of the five fields of a word:
the zero bits of the format are zero, and each operand stands in its field. -/

namespace Sys2Proof

/-! ## Words and fields -/

/-- Two command words are equal when their five fields are (R80, R81). -/
theorem cmdWord_eq_iff {v w : CmdWord} :
    v = w ↔ opField v = opField w ∧ flField v = flField w ∧ immField v = immField w ∧ aField v = aField w ∧
      bField v = bField w := by
  constructor
  · rintro rfl
    exact ⟨rfl, rfl, rfl, rfl, rfl⟩
  · rintro ⟨hop, hfl, himm, ha, hb⟩
    rw [← pack_fields v, ← pack_fields w, hop, hfl, himm, ha, hb]

/-- A packed word is `w` when each of its fields is that of `w`. -/
theorem pack_eq_iff {op fl : BitVec 8} {imm : BitVec 16} {a b : BitVec 32} {w : CmdWord} :
    pack op fl imm a b = w ↔
      opField w = op ∧ flField w = fl ∧ immField w = imm ∧ aField w = a ∧ bField w = b := by
  simp only [cmdWord_eq_iff, opField_pack, flField_pack, immField_pack, aField_pack, bField_pack,
    eq_comm (a := op), eq_comm (a := fl), eq_comm (a := imm), eq_comm (a := a), eq_comm (a := b)]

/-! ## Operands in their fields -/

/-- A field of `w` bits holds the `k`-bit operand `y` when the bits above `k` are zero and the low ones are `y`. -/
theorem eq_setWidth_iff {k w : Nat} (hk : k ≤ w) {x : BitVec w} {y : BitVec k} :
    x = y.setWidth w ↔ x >>> k = 0 ∧ x.setWidth k = y := by
  have hy : y.toNat < 2 ^ w := y.isLt.trans_le (Nat.pow_le_pow_right (by decide) hk)
  have hx := Nat.mod_add_div x.toNat (2 ^ k)
  simp only [← BitVec.toNat_inj, BitVec.toNat_setWidth, BitVec.toNat_ushiftRight, Nat.shiftRight_eq_div_pow,
    Nat.mod_eq_of_lt hy]
  constructor
  · intro h
    rw [h]
    exact ⟨Nat.div_eq_of_lt y.isLt, Nat.mod_eq_of_lt y.isLt⟩
  · rintro ⟨hhigh, hlow⟩
    rw [← hx, hhigh, hlow]
    rfl

/-- The same for an operand that is a number (R83). -/
theorem lt_and_eq_setWidth_ofNat_iff {k w n : Nat} (hk : k ≤ w) {x : BitVec w} :
    n < 2 ^ k ∧ x = (BitVec.ofNat k n).setWidth w ↔ x >>> k = 0 ∧ (x.setWidth k).toNat = n := by
  rw [eq_setWidth_iff hk, BitVec.toNat_eq_nat, and_left_comm]

/-- The numbers of R89 name the eight fields one to one. -/
theorem CfgField.ofBits_eq_iff {n : BitVec 3} {f : CfgField} : CfgField.ofBits n = f ↔ n = f.toBits := by
  have hof : CfgField.ofBits f.toBits = f := by cases f <;> rfl
  have hto : ∀ n, (CfgField.ofBits n).toBits = n := by decide
  constructor
  · rintro rfl
    exact (hto n).symm
  · rintro rfl
    exact hof

/-- The flag of `FC_APPLY.R` is `fl[0]`, the bits above it zero (R83). -/
theorem eq_flag_iff : ∀ {fl : BitVec 8} {rst : Bool},
    fl = (if rst then 1 else 0) ↔ fl >>> 1 = 0 ∧ fl.getLsbD 0 = rst := by
  decide

/-! ## The formats (R82) -/

theorem formatZ_iff {w : CmdWord} :
    formatZ w = true ↔ flField w = 0 ∧ immField w = 0 ∧ aField w = 0 ∧ bField w = 0 := by
  simp [formatZ, and_assoc]

theorem formatA_iff {w : CmdWord} : formatA w = true ↔ flField w = 0 ∧ immField w = 0 ∧ bField w = 0 := by
  simp [formatA, and_assoc]

theorem formatI_iff {k : Nat} {w : CmdWord} :
    formatI k w = true ↔ flField w = 0 ∧ immField w >>> k = 0 ∧ aField w = 0 ∧ bField w = 0 := by
  simp [formatI, and_assoc]

theorem formatIA_iff {k : Nat} {w : CmdWord} :
    formatIA k w = true ↔ flField w = 0 ∧ immField w >>> k = 0 ∧ bField w = 0 := by
  simp [formatIA, and_assoc]

theorem formatIAB_iff {k : Nat} {w : CmdWord} :
    formatIAB k w = true ↔ flField w = 0 ∧ immField w >>> k = 0 := by
  simp [formatIAB]

theorem formatFIA_iff {w : CmdWord} :
    formatFIA w = true ↔ flField w >>> 1 = 0 ∧ aField w >>> 16 = 0 ∧ bField w = 0 := by
  simp [formatFIA, and_assoc]

/-! ## The round trip -/

/-- What is accepted (R85). -/
theorem accept_eq_ok_iff {zeros : Bool} {w : CmdWord} {i j : Instr} :
    accept zeros w i = .ok j ↔ zeros = true ∧ i = j := by
  cases zeros <;> simp [accept]

theorem opField_encode (i : Instr) : opField (encode i) = i.opcode := by
  cases i <;> exact opField_pack _ _ _ _ _

/-- A command is decoded only from words with its `op` (R84). -/
theorem opField_of_decode {w : CmdWord} {i : Instr} (h : decode w = .ok i) : opField w = i.opcode := by
  unfold decode at h
  split at h
  case h_23 => cases h  -- the `op` of no row
  all_goals
    obtain ⟨-, rfl⟩ := accept_eq_ok_iff.mp h
    assumption

/-- Among the words with its opcode a command is decoded from its encoding alone. Both sides are put as conditions on
the fields, which for the format `Z` are the same; for the others each kind of operand has its own reason. -/
theorem decode_eq_ok_iff_of_opField {w : CmdWord} {i : Instr} (hop : opField w = i.opcode) :
    decode w = .ok i ↔ i.wellFormed = true ∧ encode i = w := by
  cases i <;>
    simp only [decode, hop, Instr.opcode, accept_eq_ok_iff, formatZ_iff, formatA_iff, formatI_iff, formatIA_iff,
      formatIAB_iff, formatFIA_iff, encode, pack_eq_iff, Instr.wellFormed, fitsFreq, fitsIdx, fitsProfile, immByte,
      decide_eq_true_eq, and_true, true_and, and_assoc, Instr.setEpoch.injEq, Instr.perRegister.injEq,
      Instr.perDisable.injEq, Instr.perDisableMask.injEq, Instr.compRegister.injEq, Instr.compRegisterNs.injEq,
      Instr.compDisable.injEq, Instr.compDisableNs.injEq, Instr.compIsEnabled.injEq, Instr.fcApply.injEq,
      Instr.fcSetProfile.injEq, Instr.fcCfgWr.injEq, Instr.fcCfgRd.injEq]
  case setEpoch => tauto
  case perRegister _ freq | perDisable freq =>
    have hzero : immField w >>> 16 = 0 := BitVec.ushiftRight_eq_zero le_rfl
    rw [BitVec.toNat_eq_nat]
    tauto
  case compRegister idx _ _ | compRegisterNs idx _ _ | compDisable idx | compDisableNs idx | compIsEnabled idx
      | fcSetProfile idx =>
    have hidx := lt_and_eq_setWidth_ofNat_iff (k := 8) (by decide) (x := immField w) (n := idx)
    tauto
  case perDisableMask bits =>
    rw [eq_setWidth_iff (show 8 ≤ 16 by decide)]
    tauto
  case fcApply rst temp mv =>
    rw [eq_flag_iff, eq_setWidth_iff (show 16 ≤ 32 by decide)]
    tauto
  case fcCfgWr f _ | fcCfgRd f =>
    rw [CfgField.ofBits_eq_iff, eq_setWidth_iff (show 3 ≤ 16 by decide)]
    tauto

/-- A word is decoded to a command exactly when the command is well formed and the word is its encoding. -/
theorem decode_eq_ok_iff {w : CmdWord} {i : Instr} :
    decode w = .ok i ↔ i.wellFormed = true ∧ encode i = w := by
  constructor
  · intro h
    exact (decode_eq_ok_iff_of_opField (opField_of_decode h)).mp h
  · rintro ⟨hwf, rfl⟩
    exact (decode_eq_ok_iff_of_opField (opField_encode i)).mpr ⟨hwf, rfl⟩

/-- Settles O1. -/
theorem decodeEncodeRoundTrip : Obligations.DecodeEncodeRoundTrip :=
  fun _ hwf => decode_eq_ok_iff.mpr ⟨hwf, rfl⟩

/-- Settles O2. -/
theorem encodeDecodeRoundTrip : Obligations.EncodeDecodeRoundTrip :=
  fun _ _ h => decode_eq_ok_iff.mp h

end Sys2Proof
end

