-- ==== Sys2Proof/Proofs/OpcodeMap.lean ====
section
/-! The decoder against the opcode map (spec/30_encoding.md R84, R88). The mask of a row has every bit of `op` and, in each
other field, the bits above the row's operand; so a word with the row's `op` selects the row exactly when the zero
bits of the row's format are zero. -/

namespace Sys2Proof

/-! ## Masks and zero bits -/

/-- How many low bits of each field below `op` a format uses (R82, R83). -/
structure OperandWidths where
  fl : Nat
  imm : Nat
  a : Nat
  b : Nat

/-- The bits of a word a row compares (R84): `op`, and the bits above the operands. -/
def OperandWidths.mask (n : OperandWidths) : CmdWord :=
  pack (BitVec.allOnes 8) (BitVec.allOnes 8 <<< n.fl) (BitVec.allOnes 16 <<< n.imm) (BitVec.allOnes 32 <<< n.a)
    (BitVec.allOnes 32 <<< n.b)

/-- The bits above the operands are zero (R85). -/
def OperandWidths.zeroAbove (n : OperandWidths) (w : CmdWord) : Bool :=
  flField w >>> n.fl == 0 && immField w >>> n.imm == 0 && aField w >>> n.a == 0 && bField w >>> n.b == 0

theorem zeroAbove_eq_formatZ (w : CmdWord) : OperandWidths.zeroAbove ⟨0, 0, 0, 0⟩ w = formatZ w := by
  simp [formatZ, OperandWidths.zeroAbove]

theorem zeroAbove_eq_formatA (w : CmdWord) : OperandWidths.zeroAbove ⟨0, 0, 32, 0⟩ w = formatA w := by
  simp [formatA, OperandWidths.zeroAbove, BitVec.ushiftRight_eq_zero]

theorem zeroAbove_eq_formatI (k : Nat) (w : CmdWord) : OperandWidths.zeroAbove ⟨0, k, 0, 0⟩ w = formatI k w := by
  simp [formatI, OperandWidths.zeroAbove]

theorem zeroAbove_eq_formatIA (k : Nat) (w : CmdWord) : OperandWidths.zeroAbove ⟨0, k, 32, 0⟩ w = formatIA k w := by
  simp [formatIA, OperandWidths.zeroAbove, BitVec.ushiftRight_eq_zero]

theorem zeroAbove_eq_formatIAB (k : Nat) (w : CmdWord) :
    OperandWidths.zeroAbove ⟨0, k, 32, 32⟩ w = formatIAB k w := by
  simp [formatIAB, OperandWidths.zeroAbove, BitVec.ushiftRight_eq_zero]

theorem zeroAbove_eq_formatFIA (w : CmdWord) : OperandWidths.zeroAbove ⟨1, 16, 16, 0⟩ w = formatFIA w := by
  simp [formatFIA, OperandWidths.zeroAbove, BitVec.ushiftRight_eq_zero]

/-- Masking the bits from `k` up leaves zero exactly when shifting them down does. -/
theorem and_allOnes_shiftLeft_eq_zero_iff {w : Nat} (x : BitVec w) (k : Nat) :
    x &&& BitVec.allOnes w <<< k = 0 ↔ x >>> k = 0 := by
  constructor
  · intro h
    refine BitVec.eq_of_getLsbD_eq fun i _ => ?_
    have hbit := congrArg (·.getLsbD (k + i)) h
    by_cases hi : k + i < w
    · simpa [hi] using hbit
    · simp [BitVec.getLsbD_of_ge x (k + i) (by omega)]
  · intro h
    rw [← BitVec.shiftLeft_ushiftRight, h]
    exact BitVec.zero_shiftLeft k

/-- A word masked is its fields masked. -/
theorem and_eq_iff {w m v : CmdWord} :
    w &&& m = v ↔ opField w &&& opField m = opField v ∧ flField w &&& flField m = flField v ∧
      immField w &&& immField m = immField v ∧ aField w &&& aField m = aField v ∧
      bField w &&& bField m = bField v := by
  simp only [cmdWord_eq_iff, opField, flField, immField, aField, bField, BitVec.extractLsb'_and]

/-! ## The row of a command -/

/-- The operands of a command's format (R82, R83). -/
def Instr.operandWidths : Instr → OperandWidths
  | .getUnixTime | .getCounter | .getEpoch | .perDisableAll | .compScheduleNext | .getSched | .fcDue | .getTune
  | .cbRet => ⟨0, 0, 0, 0⟩
  | .setEpoch _ => ⟨0, 0, 32, 0⟩
  | .perDisable _ => ⟨0, 16, 0, 0⟩
  | .perDisableMask _ | .compDisable _ | .compDisableNs _ | .compIsEnabled _ | .fcSetProfile _ => ⟨0, 8, 0, 0⟩
  | .fcCfgRd _ => ⟨0, 3, 0, 0⟩
  | .perRegister _ _ => ⟨0, 16, 32, 0⟩
  | .fcCfgWr _ _ => ⟨0, 3, 32, 0⟩
  | .compRegister _ _ _ | .compRegisterNs _ _ _ => ⟨0, 8, 32, 32⟩
  | .fcApply _ _ _ => ⟨1, 16, 16, 0⟩

/-- The row of a command, from its opcode and its format. -/
def Instr.row (i : Instr) : OpcodeRow :=
  ⟨i.mnemonic, pack i.opcode 0 0 0 0, i.operandWidths.mask, i.responds⟩

/-- A row selects the words with its `op` whose bits above its operands are zero. -/
theorem row_selectedBy (i : Instr) (w : CmdWord) :
    i.row.selectedBy w = (opField w == i.opcode && i.operandWidths.zeroAbove w) := by
  rw [Bool.eq_iff_iff]
  simp only [OpcodeRow.selectedBy, Instr.row, OperandWidths.mask, OperandWidths.zeroAbove, beq_iff_eq, and_eq_iff,
    opField_pack, flField_pack, immField_pack, aField_pack, bField_pack, BitVec.and_allOnes,
    and_allOnes_shiftLeft_eq_zero_iff, Bool.and_eq_true, and_assoc]

/-- One command of each row of the map, in its order. -/
def commandOfEachRow : List Instr :=
  [.setEpoch 0, .getUnixTime, .getCounter, .getEpoch, .perRegister 0 0, .perDisable 0, .perDisableMask 0,
   .perDisableAll, .compRegister 0 0 0, .compRegisterNs 0 0 0, .compDisable 0, .compDisableNs 0, .compScheduleNext,
   .compIsEnabled 0, .getSched, .fcApply false 0 0, .fcSetProfile 0, .fcCfgWr .profile 0, .fcCfgRd .profile, .fcDue,
   .getTune, .cbRet]

/-- The opcode map is the rows of the commands. -/
theorem opcodeTable_eq_map_row : opcodeTable = commandOfEachRow.map Instr.row := by
  decide

theorem exists_row_eq {r : OpcodeRow} (hr : r ∈ opcodeTable) : ∃ i : Instr, i.row = r := by
  rw [opcodeTable_eq_map_row, List.mem_map] at hr
  obtain ⟨i, -, hi⟩ := hr
  exact ⟨i, hi⟩

theorem row_mem_opcodeTable (i : Instr) : i.row ∈ opcodeTable := by
  rw [opcodeTable_eq_map_row]
  cases i <;>
    simp [commandOfEachRow, Instr.row, Instr.mnemonic, Instr.opcode, Instr.operandWidths, Instr.responds]

/-! ## The decoder and the rows -/

theorem accept_congr {zeros zeros' : Bool} {w : CmdWord} {i : Instr} (h : zeros = zeros') :
    accept zeros w i = accept zeros' w i := by
  rw [h]

/-- A word with the `op` of a row decodes to a command of that row when the row selects it, and is rejected otherwise
(R88): format by format, the mask of the row and the zero bits the decoder checks are the same bits. -/
theorem decode_of_opField {w : CmdWord} {i : Instr} (hop : opField w = i.opcode) :
    ∃ j : Instr, decode w = accept (i.row.selectedBy w) w j ∧ j.row = i.row := by
  rw [row_selectedBy, hop, beq_self_eq_true, Bool.true_and, decode, hop]
  cases i with
  | getUnixTime | getCounter | getEpoch | perDisableAll | compScheduleNext | getSched | fcDue | getTune | cbRet =>
    exact ⟨_, accept_congr (zeroAbove_eq_formatZ w).symm, rfl⟩
  | setEpoch _ => exact ⟨_, accept_congr (zeroAbove_eq_formatA w).symm, rfl⟩
  | perDisable _ | perDisableMask _ | compDisable _ | compDisableNs _ | compIsEnabled _ | fcSetProfile _ | fcCfgRd _ =>
    exact ⟨_, accept_congr (zeroAbove_eq_formatI _ w).symm, rfl⟩
  | perRegister _ _ | fcCfgWr _ _ => exact ⟨_, accept_congr (zeroAbove_eq_formatIA _ w).symm, rfl⟩
  | compRegister _ _ _ | compRegisterNs _ _ _ =>
    exact ⟨_, accept_congr (zeroAbove_eq_formatIAB 8 w).symm, rfl⟩
  | fcApply _ _ _ => exact ⟨_, accept_congr (zeroAbove_eq_formatFIA w).symm, rfl⟩

theorem decode_of_selectedBy {r : OpcodeRow} {w : CmdWord} (hr : r ∈ opcodeTable) (hsel : r.selectedBy w = true) :
    ∃ i, decode w = .ok i ∧ i.mnemonic = r.mnemonic ∧ i.responds = r.rsp := by
  obtain ⟨i, rfl⟩ := exists_row_eq hr
  have hop : opField w = i.opcode := by
    rw [row_selectedBy, Bool.and_eq_true, beq_iff_eq] at hsel
    obtain ⟨hop, -⟩ := hsel
    exact hop
  obtain ⟨j, hdecode, hrow⟩ := decode_of_opField hop
  rw [hsel] at hdecode
  exact ⟨j, hdecode, congrArg OpcodeRow.mnemonic hrow, congrArg OpcodeRow.rsp hrow⟩

/-- A command is decoded only from words its own row selects. -/
theorem row_selectedBy_of_decode {w : CmdWord} {i : Instr} (h : decode w = .ok i) : i.row.selectedBy w = true := by
  obtain ⟨j, hdecode, -⟩ := decode_of_opField (opField_of_decode h)
  obtain ⟨hsel, -⟩ := accept_eq_ok_iff.mp (hdecode.symm.trans h)
  exact hsel

theorem decode_of_not_selectedBy {w : CmdWord} (h : ∀ r ∈ opcodeTable, r.selectedBy w = false) :
    ∃ e, decode w = .error e := by
  cases hd : decode w with
  | error e => exact ⟨e, rfl⟩
  | ok i =>
    have hsel := row_selectedBy_of_decode hd
    rw [h _ (row_mem_opcodeTable i)] at hsel
    cases hsel

/-- Settles O3. -/
theorem decodeFollowsOpcodeMap : Obligations.DecodeFollowsOpcodeMap := by
  unfold Obligations.DecodeFollowsOpcodeMap
  exact fun w => ⟨fun _ hr hsel => decode_of_selectedBy hr hsel, decode_of_not_selectedBy⟩

/-- Settles O4: the decoder run on the words. -/
theorem sampleWordsDecode : Obligations.SampleWordsDecode := by
  unfold Obligations.SampleWordsDecode
  exact ⟨rfl, rfl, rfl, rfl, rfl, rfl⟩

end Sys2Proof
end

