-- ==== Sys2Proof/Proofs/ReservedWords.lean ====
section
/-! What the machine does with a word no row of the opcode map selects (spec/30_encoding.md R85). -/

namespace Sys2Proof.Machine

/-- Settles O6: the decoder rejects the word, so the step only takes the turn and the word. -/
theorem reservedWordIsIgnored : Obligations.ReservedWordIsIgnored := by
  unfold Obligations.ReservedWordIsIgnored
  intro s ts w ws hturns hport hacc hnone
  obtain ⟨e, he⟩ := decode_of_not_selectedBy hnone
  rw [step_of_accepting_scripted hturns hport hacc, runWord, he]

end Sys2Proof.Machine
end

