-- ==== Sys2Proof/Proofs/WallTime.lean ====
section
/-! The wall time as a formula (spec/40_timebase.md R101) and the time-base commands (R103 to R106), with the register
reads of R151 and R191. -/

namespace Sys2Proof.Machine

variable {k : Config}

/-! ## The formula in exact integers -/

/-- Bit 6 of the counter, the half second (R101). -/
theorem halfSecond_toNat (c : Word) : ((c &&& 0x7F) >>> 6).toNat = c.toNat % 128 / 64 := by
  have hmask : c.toNat &&& 127 = c.toNat % 128 := Nat.and_two_pow_sub_one_eq_mod c.toNat 7
  simp [Nat.shiftRight_eq_div_pow, hmask]

theorem seconds_toNat (c : Word) : (c >>> 7).toNat = c.toNat / 128 := by
  simp [Nat.shiftRight_eq_div_pow]

theorem wallTime_toNat (c t0 : Word) : (wallTime c t0).toNat = wallNat c t0 := by
  simp only [wallTime, wallNat, umod32, BitVec.toNat_sub, BitVec.toNat_add, halfSecond_toNat, seconds_toNat,
    BitVec.reduceToNat]
  omega

/-- The second form of R101: the seconds are counted half a second late. -/
theorem wallNat_eq (c t0 : Word) : wallNat c t0 = umod32 (t0.toNat - 1 + (c.toNat + 64) / 128) := by
  simp only [wallNat, umod32]
  omega

/-- The same form in words. -/
theorem wallTime_eq (c t0 : Word) : wallTime c t0 = t0 - 1 + BitVec.ofNat 32 ((c.toNat + 64) / 128) := by
  have hlate : BitVec.ofNat 32 ((c.toNat + 64) / 128) = (c >>> 7) + ((c &&& 0x7F) >>> 6) := by
    apply BitVec.eq_of_toNat_eq
    rw [BitVec.toNat_add, seconds_toNat, halfSecond_toNat, BitVec.toNat_ofNat]
    omega
  rw [hlate, wallTime]
  ring

theorem epochFor_toNat (u c : Word) :
    (epochFor u c).toNat = umod32 (u.toNat - c.toNat / 128 - c.toNat % 128 / 64 + 1) := by
  simp only [epochFor, umod32, BitVec.toNat_sub, BitVec.toNat_add, halfSecond_toNat, seconds_toNat, BitVec.reduceToNat]
  omega

/-- The epoch of `u` is the one that makes the wall time `u` (R103). -/
theorem wallTime_epochFor (u c : Word) : wallTime c (epochFor u c) = u := by
  unfold wallTime epochFor
  ring

theorem setEpoch_wall (u : Word) (s : Any.State k) : (setEpoch u s).wall = u := wallTime_epochFor u s.c

/-! ## The commands -/

/-- Settles O17. -/
theorem setEpochResult : Obligations.SetEpochResult := by
  unfold Obligations.SetEpochResult
  intro u s
  refine ⟨rfl, setEpoch u s, exec_setEpoch u s, rfl, epochFor_toNat u s.c, ?_⟩
  calc wallNat (setEpoch u s).c (setEpoch u s).t0
    _ = (setEpoch u s).wall.toNat := (wallTime_toNat _ _).symm
    _ = u.toNat := by rw [setEpoch_wall]

/-- Settles O18. -/
theorem getUnixTimeResult : Obligations.GetUnixTimeResult := by
  unfold Obligations.GetUnixTimeResult
  exact ⟨rfl, fun s => ⟨s.wall, exec_getUnixTime s, wallTime_toNat s.c s.t0⟩⟩

/-- Settles O19. -/
theorem registerReadResults : Obligations.RegisterReadResults := by
  unfold Obligations.RegisterReadResults
  refine ⟨⟨rfl, rfl, rfl, rfl⟩, fun s => ⟨exec_getCounter s, exec_getEpoch s, exec_getSched s, ?_⟩⟩
  exact ⟨s.tune.zeroExtend 32, exec_getTune s, BitVec.toNat_setWidth_of_le (by decide)⟩

end Sys2Proof.Machine
end

