-- ==== Sys2Proof/Proofs/Tick.lean ====
section
/-! The tick (spec/40_timebase.md R100): its four parts field by field, and the wall time across ticks (R107, R108). -/

namespace Sys2Proof.Machine

variable {k : Config}

/-! ## The four parts -/

@[simp] theorem tick_c (s : Any.State k) : (tick s).c = s.c + 1 := congrArg (·.c) (tick_frame s)

@[simp] theorem tick_rsps (s : Any.State k) : (tick s).rsps = s.rsps := congrArg (·.rsps) (tick_frame s)

/-- Part 2: the wrap advances the epoch and is announced; no other tick does either (R102). -/
theorem tick_overflow_cases (s : Any.State k) :
    (s.c + 1 = 0 ∧ (tick s).t0 = s.t0 + Config.overflowSeconds ∧ (tick s).trace = s.trace ++ [.ovf]) ∨
      (s.c + 1 ≠ 0 ∧ (tick s).t0 = s.t0 ∧ (tick s).trace = s.trace) := by
  unfold tick
  obtain ⟨h0, h⟩ | ⟨h0, h⟩ := detectOverflow_cases (countUp s) <;> rw [h]
  · exact .inl ⟨h0, rfl, rfl⟩
  · exact .inr ⟨h0, rfl, rfl⟩

/-- Part 3: flags rise on the events of the new counter value (R122). -/
theorem tick_perFlag (s : Any.State k) : (tick s).perFlag = s.perFlag ||| perEvents (s.c + 1) := by
  unfold tick
  obtain ⟨-, h⟩ | ⟨-, h⟩ := detectOverflow_cases (countUp s) <;> rw [h] <;> rfl

/-- Part 4: an armed channel matches at the new counter value (R144). -/
theorem tick_cmpFlag_iff (s : Any.State k) :
    (tick s).cmpFlag = true ↔ s.cmpFlag = true ∨ (s.cmpIe = true ∧ s.c + 1 = s.comp) := by
  rw [tick_frame]
  simp

/-! ## The divider flags -/

theorem perEvents_getLsbD {n : Nat} (h : n < 8) (c : Word) : (perEvents c).getLsbD n = perEvent n c :=
  (BitVec.getLsbD_ofFnLE _ n).trans (dif_pos h)

theorem perEvent_iff {n : Nat} {c : Word} :
    perEvent n c = true ↔ n = 0 ∨ (1 ≤ n ∧ c.toNat % 2 ^ n = 2 ^ (n - 1)) := by
  rw [perEvent, Bool.or_eq_true, beq_iff_eq, beq_iff_eq]
  omega

theorem tick_perFlag_getLsbD {n : Nat} (h : n < 8) (s : Any.State k) :
    (tick s).perFlag.getLsbD n = (s.perFlag.getLsbD n || perEvent n (s.c + 1)) := by
  rw [tick_perFlag, BitVec.getLsbD_or, perEvents_getLsbD h]

/-! ## A turn of the counter -/

theorem step_of_tick {s : State} (hturn : s.nextTurn = .tick) : step s = .next (tick s.passTurn) := by
  rw [step, hturn, runTurn]

/-- The same with the turn scripted. -/
theorem step_of_tick_scripted {s : State} {ts : List Turn} (hturns : s.turns = .tick :: ts) :
    step s = .next (tick { s with turns := ts }) := by
  have hturn : s.nextTurn = .tick := by simp [Any.State.nextTurn, hturns]
  have hpass : s.passTurn = { s with turns := ts } := by simp [Any.State.passTurn, hturns]
  rw [step_of_tick hturn, hpass]

/-- Settles O22, part by part. -/
theorem tickResult : Obligations.TickResult := by
  unfold Obligations.TickResult
  intro s ts hturns
  refine ⟨tick { s with turns := ts }, step_of_tick_scripted hturns, ?frame, ?count, ?wrap, ?noWrap, ?dividers,
    ?compare⟩
  case frame => rw [tick_frame]
  case count =>
    simp only [tick_c, umod32, BitVec.toNat_add, BitVec.reduceToNat]
    omega
  case wrap =>
    intro hc
    rw [tick_c] at hc
    obtain ⟨-, ht0, htrace⟩ | ⟨h0, -⟩ := tick_overflow_cases { s with turns := ts }
    · refine ⟨?_, htrace⟩
      rw [ht0, BitVec.toNat_add]
      simp only [Config.overflowSeconds, umod32, BitVec.reduceToNat]
      omega
    · exact absurd hc h0
  case noWrap =>
    intro hc
    rw [tick_c] at hc
    obtain ⟨h0, -⟩ | ⟨-, ht0, htrace⟩ := tick_overflow_cases { s with turns := ts }
    · exact absurd h0 hc
    · exact ⟨ht0, htrace⟩
  case dividers =>
    intro n hn
    rw [tick_perFlag_getLsbD hn, Bool.or_eq_true, perEvent_iff, tick_c]
  case compare =>
    rw [tick_c]
    exact tick_cmpFlag_iff _

/-! ## The wall time across ticks -/

/-- Short of a wrap the late seconds of R101 gain one at a second boundary. -/
theorem lateSeconds_succ (n : Nat) :
    (n + 1 + 64) / 128 = (n + 64) / 128 + (if (n + 1) % 128 = 64 then 1 else 0) := by
  split <;> omega

/-- The wall time gains one second at a second boundary and nothing elsewhere; a wrap hands the seconds of the counter
to the epoch (R102, R108). -/
theorem tick_wall (s : Any.State k) :
    (tick s).wall = s.wall + (if (s.c + 1).toNat % 128 = 64 then 1 else 0) := by
  rw [Any.State.wall, Any.State.wall, wallTime_eq, wallTime_eq, tick_c]
  obtain ⟨h0, ht0, -⟩ | ⟨h0, ht0, -⟩ := tick_overflow_cases s
  · have hc : s.c = BitVec.ofNat 32 (2 ^ 32 - 1) := by rw [eq_sub_of_add_eq h0]; rfl
    rw [ht0, hc]
    -- the old counter holds 2^25 late seconds, the new one none
    show s.t0 + 33554432 - 1 + 0 = s.t0 - 1 + 33554432 + 0
    ring
  · have hc : (s.c + 1).toNat = s.c.toNat + 1 := by
      have hpos : (s.c + 1).toNat ≠ 0 := fun h => h0 (BitVec.eq_of_toNat_eq h)
      bv_omega
    rw [ht0, hc, lateSeconds_succ, BitVec.ofNat_add, add_assoc]
    split <;> rfl

/-- The first of `n + 1` ticks is a boundary or not, and the others follow the next counter value, across the wrap
too. -/
theorem boundaries_succ (c : Word) (n : Nat) :
    boundaries c (n + 1) = (if (c + 1).toNat % 128 = 64 then 1 else 0) + boundaries (c + 1) n := by
  have hc : (c + 1).toNat % 128 = (c.toNat + 1) % 128 := by
    rw [BitVec.toNat_add, Nat.mod_mod_of_dvd _ (by decide)]
    rfl
  have hshift (j : Nat) : (c.toNat + (j + 1) + 1) % 128 = ((c + 1).toNat + j + 1) % 128 := by omega
  simp only [boundaries, ← List.countP_eq_length_filter, List.range_succ_eq_map, List.countP_cons, List.countP_map,
    Function.comp_def, Nat.succ_eq_add_one, hshift, hc, Nat.add_zero, beq_iff_eq]
  omega

theorem tickN_wall (n : Nat) (s : Any.State k) : (tickN n s).wall = s.wall + BitVec.ofNat 32 (boundaries s.c n) := by
  induction n generalizing s with
  | zero => simp [tickN, boundaries]
  | succ n ih =>
    rw [tickN, ih, tick_wall, tick_c, boundaries_succ, BitVec.ofNat_add, BitVec.add_assoc]
    split <;> rfl

@[simp] theorem tickN_rsps (n : Nat) (s : Any.State k) : (tickN n s).rsps = s.rsps := by
  induction n generalizing s with
  | zero => rfl
  | succ n ih => rw [tickN, ih, tick_rsps]

/-- Settles O20: the wall time after `SET_EPOCH` is its operand, and each tick adds what R108 says. -/
theorem unixTimeAfterTicks : Obligations.UnixTimeAfterTicks := by
  unfold Obligations.UnixTimeAfterTicks
  refine ⟨wallNat_eq, fun u s n => ?_⟩
  refine ⟨setEpoch u s, (tickN n (setEpoch u s)).wall, exec_setEpoch u s, ?_, ?_⟩
  · rw [exec_getUnixTime, getUnixTime, respond, tickN_rsps]
    rfl
  · have hwall : (tickN n (setEpoch u s)).wall = u + BitVec.ofNat 32 (boundaries s.c n) := by
      rw [tickN_wall, setEpoch_wall]
      rfl
    rw [hwall, BitVec.toNat_add, BitVec.toNat_ofNat, umod32]
    omega

/-! ## Who moves the wall time -/

/-- The 1 Hz divider has its event at a second boundary (R121). -/
theorem perEvent_seven {c : Word} : perEvent 7 c = decide (c.toNat % 128 = 64) := rfl

/-- In a turn of the host whose command is `SET_EPOCH u`, the command waits or makes the wall time `u` (R103, R215). -/
theorem wall_of_setEpoch_turn {s t : State} {u : Word} (hcmd : s.commands (.setEpoch u)) (h : step s = .next t) :
    t.wall = s.wall ∨ t.wall = u := by
  obtain ⟨hturn, hdecode⟩ := hcmd
  cases hacc : s.accepting with
  | true =>
    rw [step_of_accepting hturn hacc, runWord_of_decode hdecode, exec_setEpoch] at h
    cases h
    exact .inr (setEpoch_wall u _)
  | false =>
    rw [step, hturn, runTurn, hostTurn, passTurn_accepting, hacc] at h
    cases h
    exact .inl (congrArg (·.wall) (passTurn_frame s))

/-- Settles O21: the tick by `tick_wall`, every other agent by what it writes of the counter and the epoch. -/
theorem wallTimeMovesOnlyAtBoundaries : Obligations.WallTimeMovesOnlyAtBoundaries := by
  unfold Obligations.WallTimeMovesOnlyAtBoundaries
  intro s t h
  refine ⟨fun hturn => ?_, fun hturn hcold => ?_⟩
  · cases (step_of_tick hturn).symm.trans h
    have hwall : s.passTurn.wall = s.wall := congrArg (·.wall) (passTurn_frame s)
    have hflag : s.passTurn.perFlag = s.perFlag := congrArg (·.perFlag) (passTurn_frame s)
    rw [tick_c, tick_wall, tick_perFlag_getLsbD (by decide), perEvent_seven, hwall, hflag]
    refine ⟨fun hb => ?boundary, fun hb => ?between⟩
    case boundary => simp only [if_pos hb, decide_eq_true hb, Bool.or_true, and_self]
    case between => simp only [if_neg hb, decide_eq_false hb, Bool.or_false, add_zero, and_self]
  · obtain ⟨hc, ht0⟩ := counterAndEpochWriters s t h hcold
    have hc : t.c = s.c := by
      obtain ⟨htick, -⟩ | ⟨-, hc⟩ := hc
      · exact absurd htick hturn
      · exact hc
    obtain ht0 | ⟨htick, -⟩ | ⟨u, hcmd⟩ := ht0
    · exact .inl (by rw [Any.State.wall, Any.State.wall, hc, ht0])
    · exact absurd htick hturn
    · obtain hw | hw := wall_of_setEpoch_turn hcmd h
      · exact .inl hw
      · exact .inr ⟨u, hcmd, hw⟩

end Sys2Proof.Machine
end

