-- ==== Sys2Proof/Proofs/Dividers.lean ====
section
/-! The divider events (spec/41_periodic.md R121): the counter modulo `2^n` is the place in the period of divider `n`,
and the event is the start of the period's upper half, where counter bit `n - 1` is set. -/

namespace Sys2Proof.Machine

/-! ## The place in a period -/

/-- The wrap of the counter does not disturb a period, which divides `2^32`. -/
theorem toNat_add_ofNat_mod_two_pow {n : Nat} (hn : n ≤ 32) (c : Word) (k : Nat) :
    (c + BitVec.ofNat 32 k).toNat % 2 ^ n = (c.toNat + k) % 2 ^ n := by
  rw [BitVec.toNat_add, BitVec.toNat_ofNat, Nat.add_mod_mod, Nat.mod_mod_of_dvd _ (Nat.pow_dvd_pow 2 hn)]

/-- Bit `p` is set in the upper half of the period `2^(p+1)`. -/
theorem getLsbD_iff_upper_half {p : Nat} {c : Word} : c.getLsbD p = true ↔ 2 ^ p ≤ c.toNat % 2 ^ (p + 1) := by
  have hlow : c.toNat % 2 ^ p < 2 ^ p := Nat.mod_lt _ (Nat.two_pow_pos p)
  rw [BitVec.getLsbD, Nat.testBit_eq_decide_div_mod_eq, decide_eq_true_iff, Nat.mod_pow_succ]
  obtain hbit | hbit := Nat.mod_two_eq_zero_or_one (c.toNat / 2 ^ p)
  · simpa [hbit] using hlow
  · simp [hbit]

/-- The place one tick later: the next one, or the start of the next period. -/
theorem add_one_mod_cases (x : Nat) {N : Nat} (hN : 0 < N) :
    (x % N + 1 < N ∧ (x + 1) % N = x % N + 1) ∨ (x % N + 1 = N ∧ (x + 1) % N = 0) := by
  have hlt : x % N < N := Nat.mod_lt x hN
  rw [← Nat.mod_add_mod]
  obtain h | h := Nat.lt_or_eq_of_le (Nat.succ_le_of_lt hlt)
  · exact .inl ⟨h, Nat.mod_eq_of_lt h⟩
  · exact .inr ⟨h, (congrArg (· % N) h).trans (Nat.mod_self N)⟩

/-- Every place of a period is reached once in any `N` consecutive values. -/
theorem exists_unique_offset_mod (x : Nat) {N h : Nat} (hh : h < N) :
    ∃ k < N, (x + k) % N = h ∧ ∀ j < N, (x + j) % N = h → j = k := by
  have hreach : (x + (h + (N - x % N)) % N) % N = h := by
    have hx : x % N < N := Nat.mod_lt x (Nat.zero_lt_of_lt hh)
    have hsum : x % N + (h + (N - x % N)) = h + N := by omega
    rw [Nat.add_mod_mod, ← Nat.mod_add_mod, hsum, Nat.add_mod_right, Nat.mod_eq_of_lt hh]
  refine ⟨(h + (N - x % N)) % N, Nat.mod_lt _ (Nat.zero_lt_of_lt hh), hreach, fun j hj hplace => ?_⟩
  have hcong : x + j ≡ x + (h + (N - x % N)) % N [MOD N] := hplace.trans hreach.symm
  exact (hcong.add_left_cancel' x).eq_of_lt_of_lt hj (Nat.mod_lt _ (Nat.zero_lt_of_lt hh))

/-! ## The events -/

theorem perEvent_succ_iff {p : Nat} {c : Word} : perEvent (p + 1) c = true ↔ c.toNat % 2 ^ (p + 1) = 2 ^ p := by
  simp [perEvent_iff]

/-- The tick of the event is the one in which counter bit `p` rises. -/
theorem perEvent_add_one_iff_rising_edge {p : Nat} (hp : p < 32) (c : Word) :
    perEvent (p + 1) (c + 1) = true ↔ c.getLsbD p = false ∧ (c + 1).getLsbD p = true := by
  have hnext : (c + 1).toNat % 2 ^ (p + 1) = (c.toNat + 1) % 2 ^ (p + 1) := toNat_add_ofNat_mod_two_pow hp c 1
  have hhalf : 2 ^ (p + 1) = 2 ^ p + 2 ^ p := Nat.two_pow_succ p
  have hpos : 0 < 2 ^ p := Nat.two_pow_pos p
  rw [perEvent_succ_iff, Bool.eq_false_iff, ne_eq, getLsbD_iff_upper_half, getLsbD_iff_upper_half, hnext]
  obtain ⟨hlt, h⟩ | ⟨hlast, h⟩ := add_one_mod_cases c.toNat (Nat.two_pow_pos (p + 1)) <;> rw [h] <;> omega

theorem perEvent_once_per_period {p : Nat} (hp : p < 32) (c : Word) :
    ∃ k < 2 ^ (p + 1), perEvent (p + 1) (c + BitVec.ofNat 32 k) = true ∧
      ∀ j < 2 ^ (p + 1), perEvent (p + 1) (c + BitVec.ofNat 32 j) = true → j = k := by
  simp only [perEvent_succ_iff, toNat_add_ofNat_mod_two_pow (Nat.succ_le_of_lt hp)]
  exact exists_unique_offset_mod c.toNat (Nat.pow_lt_pow_succ Nat.one_lt_two)

/-- The event of a slower divider falls on the start of a faster one's period, which is not its event. -/
theorem not_perEvent_of_slower {p q : Nat} (hpq : p < q) {c : Word} (hq : perEvent (q + 1) c = true) :
    ¬ perEvent (p + 1) c = true := by
  rw [perEvent_succ_iff] at hq ⊢
  have hstart : c.toNat % 2 ^ (p + 1) = 0 :=
    calc c.toNat % 2 ^ (p + 1)
      _ = c.toNat % 2 ^ (q + 1) % 2 ^ (p + 1) := (Nat.mod_mod_of_dvd _ (Nat.pow_dvd_pow 2 (by omega))).symm
      _ = 2 ^ q % 2 ^ (p + 1) := by rw [hq]
      _ = 0 := Nat.mod_eq_zero_of_dvd (Nat.pow_dvd_pow 2 hpq)
  rw [hstart]
  exact (Nat.two_pow_pos p).ne

theorem perEvent_divider_unique {p q : Nat} {c : Word} (hp : perEvent (p + 1) c = true)
    (hq : perEvent (q + 1) c = true) : p = q := by
  obtain h | h | h := Nat.lt_trichotomy p q
  · exact absurd hp (not_perEvent_of_slower h hq)
  · exact h
  · exact absurd hq (not_perEvent_of_slower h hp)

/-- Settles O23, with `n = p + 1` and so counter bit `p`. -/
theorem dividerEventsOncePerPeriod : Obligations.DividerEventsOncePerPeriod := by
  unfold Obligations.DividerEventsOncePerPeriod
  refine ⟨fun c => perEvent_iff.mpr (.inl rfl), fun n hn hn8 c => ?_⟩
  obtain ⟨p, rfl⟩ := Nat.exists_eq_add_of_le' hn
  have hp : p < 32 := by omega
  refine ⟨perEvent_succ_iff, perEvent_add_one_iff_rising_edge hp c, perEvent_once_per_period hp c, ?_⟩
  intro m hm _ hevent hevent'
  obtain ⟨q, rfl⟩ := Nat.exists_eq_add_of_le' hm
  exact congrArg (· + 1) (perEvent_divider_unique hevent hevent')

end Sys2Proof.Machine
end

