-- ==== Sys2Proof/Proofs/PeriodicCommands.lean ====
section
/-! The commands of the divider bank (spec/41_periodic.md R123 to R126), bit by bit. -/

namespace Sys2Proof.Machine

variable {k : Config}

/-! ## The slot of a frequency -/

theorem withFreq_of_eq {freq : Nat} {n : Fin 8} (h : freq = 2 ^ (7 - n.val)) (f : Fin 8 → Any.State k → Any.State k)
    (s : Any.State k) : withFreq freq f s = f n s := by
  rw [withFreq, slotOf_eq_some.mpr h]

/-- A bad frequency is ignored (R231). -/
theorem withFreq_of_ne {freq : Nat} (h : ∀ n : Fin 8, freq ≠ 2 ^ (7 - n.val)) (f : Fin 8 → Any.State k → Any.State k)
    (s : Any.State k) : withFreq freq f s = s := by
  obtain ⟨n, hn, -⟩ | ⟨-, hs⟩ := withFreq_cases freq f s
  · exact absurd hn (h n)
  · exact hs

/-! ## Filling and disabling, bit by bit -/

theorem perBit_getLsbD (n m : Fin 8) : (perBit n).getLsbD m.val = (m == n) := by
  revert n m
  decide

/-- Clearing the slots that `bits` names. -/
theorem and_not_getLsbD (x bits : Byte) (m : Fin 8) :
    (x &&& ~~~ bits).getLsbD m.val = (x.getLsbD m.val && !bits.getLsbD m.val) := by
  rw [BitVec.getLsbD_and, BitVec.getLsbD_not, decide_eq_true m.isLt, Bool.true_and]

theorem fillPeriodic_perEn_getLsbD (cb : BitVec k.cbWidth) (n m : Fin 8) (s : Any.State k) :
    (fillPeriodic cb n s).perEn.getLsbD m.val = (s.perEn.getLsbD m.val || m == n) := by
  rw [fillPeriodic_perEn, BitVec.getLsbD_or, perBit_getLsbD]

/-- An occupied slot keeps its pending flag, an empty one drops it (R123). -/
theorem fillPeriodic_perFlag_getLsbD (cb : BitVec k.cbWidth) (n m : Fin 8) (s : Any.State k) :
    (fillPeriodic cb n s).perFlag.getLsbD m.val =
      (s.perFlag.getLsbD m.val && !(m == n && !s.perEn.getLsbD n.val)) := by
  rw [fillPeriodic_perFlag]
  cases s.perEn.getLsbD n.val with
  | true => simp
  | false => rw [if_neg Bool.false_ne_true, and_not_getLsbD, perBit_getLsbD, Bool.not_false, Bool.and_true]

theorem fillPeriodic_perCb_getElem (cb : BitVec k.cbWidth) (n m : Fin 8) (s : Any.State k) :
    (fillPeriodic cb n s).perCb[m] = if m = n then cb else s.perCb[m] := by
  simp [Vector.getElem_set, Fin.ext_iff, eq_comm (a := n.val)]

theorem disablePeriodic_perEn_getLsbD (bits : Byte) (m : Fin 8) (s : Any.State k) :
    (disablePeriodic bits s).perEn.getLsbD m.val = (s.perEn.getLsbD m.val && !bits.getLsbD m.val) := by
  rw [disablePeriodic_perEn, and_not_getLsbD]

/-! ## The commands -/

/-- `PER_REGISTER` with the frequency of slot `n` (R123). -/
theorem exec_perRegister_of_eq {freq : Nat} {n : Fin 8} (h : freq = 2 ^ (7 - n.val)) (cb : Word) (s : State) :
    exec (.perRegister cb freq) s = .next (fillPeriodic cb n s) := by
  have htoken : tokenOf Config.taken.cbWidth cb = cb := tokenOf_taken cb
  rw [exec_perRegister, perRegister, withFreq_of_eq h, htoken]

/-- Settles O24. -/
theorem perRegisterResult : Obligations.PerRegisterResult := by
  unfold Obligations.PerRegisterResult
  refine fun cb freq s => ⟨rfl, fun n hn => ?fills, fun hbad => ?ignored⟩
  case fills =>
    exact ⟨fillPeriodic cb n s, exec_perRegister_of_eq hn cb s, rfl, fun m => fillPeriodic_perEn_getLsbD cb n m s,
      fun m => fillPeriodic_perFlag_getLsbD cb n m s, fun m => fillPeriodic_perCb_getElem cb n m s⟩
  case ignored => rw [exec_perRegister, perRegister, withFreq_of_ne hbad]

/-- Settles O25: the first two disables are `disablePeriodic`, of the bit of the slot and of the mask. -/
theorem periodicDisableResults : Obligations.PeriodicDisableResults := by
  unfold Obligations.PeriodicDisableResults
  refine ⟨fun freq s => ⟨rfl, fun n hn => ?slot, fun hbad => ?ignored⟩, fun bits s => ⟨?encoding, ?mask⟩, rfl,
    exec_perDisableAll⟩
  case slot =>
    refine ⟨disablePeriodic (perBit n) s, ?_, rfl, fun m => ?_⟩
    · rw [exec_perDisable, perDisable, withFreq_of_eq hn]
    · rw [disablePeriodic_perEn_getLsbD, perBit_getLsbD]
  case ignored => rw [exec_perDisable, perDisable, withFreq_of_ne hbad]
  case encoding => rw [BitVec.ofNat_toNat]; rfl
  case mask =>
    exact ⟨disablePeriodic bits s, exec_perDisableMask bits s, rfl, fun m => disablePeriodic_perEn_getLsbD bits m s⟩

end Sys2Proof.Machine
end

