-- ==== Sys2Proof/Proofs/Arbiter.lean ====
section
/-! The arbiter `schedule_next` (spec/42_compare.md R142) in exact integers: distances and armed values, the winner, the
three outcomes, and what the armed value promises (R154, R227, R256). -/

namespace Sys2Proof.Machine

variable {k : Config}

/-! ## Distances and armed values -/

theorem distance_toNat (now d : Word) : (distance k now d).toNat = distNat k now d := by
  simp only [distance, distNat, umod32, Config.graceWord, BitVec.toNat_sub, BitVec.toNat_ofNat]
  omega

theorem sentinel_toNat (now : Word) : (sentinel k now).toNat = umod32 (now.toNat - k.grace - 1) := by
  simp only [sentinel, umod32, Config.graceWord, BitVec.toNat_sub, BitVec.toNat_ofNat, BitVec.reduceToNat]
  omega

/-- `C_now + GRACE`, which step 6 arms for a near deadline. -/
theorem bumped_toNat (now : Word) : (now + k.graceWord).toNat = umod32 (now.toNat + k.grace) := by
  simp only [umod32, Config.graceWord, BitVec.toNat_add, BitVec.toNat_ofNat]
  omega

/-- Step 6: a deadline nearer than `2·GRACE` is bumped, any other is armed as it is. -/
theorem armValue_cases (k : Config) (now d : Word) :
    (distNat k now d < 2 * k.grace ∧ armValue k now d = now + k.graceWord) ∨
      (2 * k.grace ≤ distNat k now d ∧ armValue k now d = d) := by
  unfold armValue
  rw [distance_toNat]
  split
  · next h => exact .inl ⟨h, rfl⟩
  · next h => exact .inr ⟨Nat.le_of_not_lt h, rfl⟩

theorem armValue_toNat (now d : Word) : (armValue k now d).toNat = armNat k now d := by
  unfold armNat
  obtain ⟨h, ha⟩ | ⟨h, ha⟩ := armValue_cases k now d <;> rw [ha]
  · rw [if_pos h, bumped_toNat]
  · rw [if_neg (Nat.not_lt.mpr h)]

/-- The bump lies exactly `2·GRACE` from `C_lax`. -/
theorem distNat_bumped (hk : k.Allowed) (now : Word) : distNat k now (now + k.graceWord) = 2 * k.grace := by
  have hgrace := hk.graceHigh
  simp only [distNat, bumped_toNat, umod32]
  omega

/-- Arming raises a distance below `2·GRACE` to that and keeps any other. -/
theorem distNat_armValue (hk : k.Allowed) (now d : Word) :
    distNat k now (armValue k now d) = max (distNat k now d) (2 * k.grace) := by
  obtain ⟨h, ha⟩ | ⟨h, ha⟩ := armValue_cases k now d <;> rw [ha]
  · rw [distNat_bumped hk, max_eq_right h.le]
  · rw [max_eq_left h]

/-- Fewer than `2·GRACE` ticks past the armed value its deadline is still within the `4·GRACE` window (R153). -/
theorem umod32_armValue_add_lt (hk : k.Allowed) (now d : Word) {L : Nat} (hL : L < 2 * k.grace) :
    umod32 ((armValue k now d).toNat + L - d.toNat) < 4 * k.grace := by
  have hgrace := hk.graceHigh
  obtain ⟨h, ha⟩ | ⟨-, ha⟩ := armValue_cases k now d <;> rw [ha]
  · rw [bumped_toNat]
    simp only [distNat, umod32] at h ⊢
    omega
  · simp only [umod32]
    omega

/-! ## The winner -/

theorem sooner_eq_ite {w n : Nat} (now : Word) (slots : Vector (Slot w) n) (i j : Fin n) :
    sooner k now slots i j =
      if distNat k now slots[j].deadline < distNat k now slots[i].deadline then j else i := by
  simp only [sooner, BitVec.lt_def, distance_toNat]

theorem enabledSlots_pairwise_lt {w n : Nat} (slots : Vector (Slot w) n) : (enabledSlots slots).Pairwise (· < ·) :=
  (List.pairwise_lt_finRange n).filter _

/-- No slot of `l` is nearer than slot `m`, and those before `m` are farther (R142 step 4). -/
def IsFirstNearest (k : Config) {w n : Nat} (now : Word) (slots : Vector (Slot w) n) (l : List (Fin n)) (m : Fin n) :
    Prop :=
  ∀ j ∈ l, distNat k now slots[m].deadline ≤ distNat k now slots[j].deadline ∧
    (j < m → distNat k now slots[m].deadline < distNat k now slots[j].deadline)

/-- Along slots in rising order the fold keeps the first of minimal distance. -/
theorem isFirstNearest_foldl_sooner {w n : Nat} (now : Word) (slots : Vector (Slot w) n) (i : Fin n) (l : List (Fin n))
    (hl : (i :: l).Pairwise (· < ·)) : IsFirstNearest k now slots (i :: l) (l.foldl (sooner k now slots) i) := by
  induction l generalizing i with
  | nil => simp [IsFirstNearest]
  | cons j l ih =>
    rw [List.pairwise_cons, List.forall_mem_cons] at hl
    obtain ⟨⟨hij, hi⟩, hjl⟩ := hl
    rw [List.foldl_cons, sooner_eq_ite]
    split
    · next hnear =>
      have hmin := ih j hjl
      have hj := (hmin j List.mem_cons_self).1
      exact List.forall_mem_cons.mpr ⟨⟨by omega, fun _ => by omega⟩, hmin⟩
    · next hfar =>
      obtain ⟨hmi, hrest⟩ := List.forall_mem_cons.mp (ih i (List.pairwise_cons.mpr ⟨hi, hjl.of_cons⟩))
      have hnearer := Nat.le_of_not_lt hfar
      exact List.forall_mem_cons.mpr ⟨hmi, List.forall_mem_cons.mpr
        ⟨⟨hmi.1.trans hnearer, fun hjm => (hmi.2 (hij.trans hjm)).trans_le hnearer⟩, hrest⟩⟩

theorem isWinner_of_winner {s : Any.State k} {w : Fin k.nComp} (h : winner k s.c s.slots = some w) : s.isWinner w := by
  have hen : s.slots[w].enabled = true := winner_enabled h
  have hsorted := enabledSlots_pairwise_lt s.slots
  unfold winner at h
  cases hl : enabledSlots s.slots with
  | nil => rw [hl] at h; cases h
  | cons i l =>
    rw [hl] at h hsorted
    cases h
    have hmin := isFirstNearest_foldl_sooner (k := k) s.c s.slots i l hsorted
    have hmem {j : Fin k.nComp} (hj : s.slots[j].enabled = true) : j ∈ i :: l := hl ▸ mem_enabledSlots.mpr hj
    exact ⟨hen, fun j hj => (hmin j (hmem hj)).1, fun j hlt hj => (hmin j (hmem hj)).2 hlt⟩

theorem isWinner_unique {s : Any.State k} {v w : Fin k.nComp} (hv : s.isWinner v) (hw : s.isWinner w) : v = w := by
  obtain ⟨hven, hvmin, hvfirst⟩ := hv
  obtain ⟨hwen, hwmin, hwfirst⟩ := hw
  obtain h | h | h := lt_trichotomy v w
  · exact absurd (hwfirst v h hven) (Nat.not_lt.mpr (hvmin w hwen))
  · exact h
  · exact absurd (hvfirst w h hwen) (Nat.not_lt.mpr (hwmin v hven))

theorem exists_isWinner {s : Any.State k} {i : Fin k.nComp} (hi : s.slots[i].enabled = true) : ∃ w, s.isWinner w := by
  cases h : winner k s.c s.slots with
  | some w => exact ⟨w, isWinner_of_winner h⟩
  | none => exact absurd hi (Bool.eq_false_iff.mp (winner_eq_none.mp h i))

/-! ## The three outcomes -/

/-- With a winner the schedule stands, or the channel is armed for its deadline (R142 steps 5 to 7). -/
theorem scheduleNext_cases_of_isWinner {s : Any.State k} {w : Fin k.nComp} (hw : s.isWinner w) :
    (s.standsAt s.slots[w].deadline ∧ scheduleNext s = s) ∨
      (¬ s.standsAt s.slots[w].deadline ∧ scheduleNext s = arm s.slots[w].deadline s) := by
  obtain ⟨hnone, -⟩ | ⟨v, hv, h⟩ := scheduleNext_cases s
  · exact absurd hw.1 (Bool.eq_false_iff.mp (winner_eq_none.mp hnone w))
  · cases isWinner_unique (isWinner_of_winner hv) hw
    obtain ⟨hie, hd, h⟩ | h := h
    · exact .inl ⟨⟨hie, hd⟩, h⟩
    · exact .inr h

theorem scheduleNext_of_disabled {s : Any.State k} (h : ∀ i : Fin k.nComp, s.slots[i].enabled = false) :
    scheduleNext s = disarm s := by
  rw [scheduleNext, winner_eq_none.mpr h]

theorem scheduledFrom_scheduleNext (s : Any.State k) : scheduledFrom s (scheduleNext s) := by
  refine ⟨scheduleNext_frame s, fun hoff => ?disarmed, fun w hw hstands => ?stands, fun w hw hstands => ?armed⟩
  case disarmed =>
    rw [scheduleNext_of_disabled hoff]
    exact ⟨rfl, rfl, rfl, sentinel_toNat s.c⟩
  case stands =>
    obtain ⟨-, h⟩ | ⟨h, -⟩ := scheduleNext_cases_of_isWinner hw
    · exact h
    · exact absurd hstands h
  case armed =>
    obtain ⟨h, -⟩ | ⟨-, h⟩ := scheduleNext_cases_of_isWinner hw
    · exact absurd h hstands
    · rw [h]
      exact ⟨rfl, rfl, rfl, armValue_toNat s.c _⟩

/-- Settles O26. -/
theorem scheduleNextResult : Obligations.ScheduleNextResult := by
  unfold Obligations.ScheduleNextResult
  exact ⟨rfl, fun s => ⟨scheduleNext s, exec_compScheduleNext s, scheduledFrom_scheduleNext s⟩,
    fun k s => ⟨scheduledFrom_scheduleNext s, fun ⟨_, hi⟩ => exists_isWinner hi⟩⟩

/-! ## What the schedule promises -/

/-- Settles O32: a standing schedule is the winner's deadline, an armed one that deadline or the bump. -/
theorem armedNoLaterThanDeadlines : Obligations.ArmedNoLaterThanDeadlines := by
  unfold Obligations.ArmedNoLaterThanDeadlines
  intro k hk s i hi
  obtain ⟨w, hw⟩ := exists_isWinner hi
  have hmin : distNat k s.c s.slots[w].deadline ≤ distNat k s.c s.slots[i].deadline := hw.2.1 i hi
  obtain ⟨⟨-, hstands⟩, h⟩ | ⟨-, h⟩ := scheduleNext_cases_of_isWinner hw <;> rw [h]
  · rw [← hstands]
    exact ⟨le_max_of_le_left hmin, fun hne => absurd rfl hne⟩
  · rw [arm_sched, arm_comp, distNat_armValue hk]
    exact ⟨max_le_max_right _ hmin, fun _ => le_max_right _ _⟩

/-- Settles O34. -/
theorem armedDeadlineDueWithinLatency : Obligations.ArmedDeadlineDueWithinLatency := by
  unfold Obligations.ArmedDeadlineDueWithinLatency
  intro k hk s w hw L
  have hgrace := hk.graceHigh
  have hunbumped (hL : L < 4 * k.grace) :
      umod32 (s.slots[w].deadline.toNat + L - s.slots[w].deadline.toNat) < 4 * k.grace := by
    simp only [umod32]
    omega
  refine ⟨fun hL => ?_, fun heq hL => by rw [heq]; exact hunbumped hL⟩
  obtain ⟨⟨-, hstands⟩, h⟩ | ⟨-, h⟩ := scheduleNext_cases_of_isWinner hw <;> rw [h]
  · rw [← hstands]
    exact hunbumped (by omega)
  · exact umod32_armValue_add_lt hk s.c _ hL

end Sys2Proof.Machine
end

