-- ==== Sys2Proof/Proofs/CompareCommands.lean ====
section
/-! The commands of the compare multiplexer (spec/42_compare.md R145 to R148, R150), slot by slot. -/

namespace Sys2Proof.Machine

variable {k : Config}

/-! ## Filling and clearing, slot by slot -/

theorem withSlot_of_eq {idx : Nat} {i : Fin k.nComp} (h : i.val = idx) (f : Fin k.nComp → Any.State k → Any.State k)
    (s : Any.State k) : withSlot idx f s = f i s := by
  subst h
  exact withSlot_of_lt i.isLt f s

theorem slots_set_getElem {w n : Nat} (slots : Vector (Slot w) n) (i j : Fin n) (x : Slot w) :
    (slots.set i x)[j] = if j = i then x else slots[j] := by
  simp [Vector.getElem_set, Fin.ext_iff, eq_comm (a := i.val)]

theorem fillSlot_getElem (i j : Fin k.nComp) (cb : BitVec k.cbWidth) (d : Word) (s : Any.State k) :
    (fillSlot i cb d s).slots[j] = if j = i then ⟨d, cb, true⟩ else s.slots[j] :=
  slots_set_getElem s.slots i j _

theorem clearSlot_getElem (i j : Fin k.nComp) (s : Any.State k) :
    (clearSlot i s).slots[j] = if j = i then { s.slots[i] with enabled := false } else s.slots[j] :=
  slots_set_getElem s.slots i j _

theorem slotEnabled_of_lt {idx : Nat} (h : idx < k.nComp) (s : Any.State k) :
    slotEnabled idx s = s.slots[idx].enabled := dif_pos h

theorem slotEnabled_of_le {idx : Nat} (h : k.nComp ≤ idx) (s : Any.State k) : slotEnabled idx s = false :=
  dif_neg (Nat.not_lt.mpr h)

theorem bitWord_toNat (b : Bool) : (bitWord b).toNat = b.toNat := by cases b <;> rfl

/-! ## The commands -/

/-- An index that fits its byte is the low byte of `imm` and leaves the high one zero (R83). -/
theorem immIndex_eq {idx : Nat} (h : idx < 256) : (BitVec.ofNat 8 idx).setWidth 16 = BitVec.ofNat 16 idx := by
  apply BitVec.eq_of_toNat_eq
  simp only [BitVec.toNat_setWidth, BitVec.toNat_ofNat]
  omega

/-- Settles O27. -/
theorem compRegisterResult : Obligations.CompRegisterResult := by
  unfold Obligations.CompRegisterResult
  refine fun idx cb d s => ⟨fun h => ?encoding, fun i hi => ?fills, fun hbad => ?ignored⟩
  case encoding => rw [← immIndex_eq h]; rfl
  case fills =>
    have hexec : exec (.compRegister idx cb d) s = .next (scheduleNext (fillSlot i cb d s)) := by
      have htoken : tokenOf Config.taken.cbWidth cb = cb := tokenOf_taken cb
      rw [exec_compRegister, compRegister, withSlot_of_eq hi, htoken]
    exact ⟨fillSlot i cb d s, _, rfl, by rw [fillSlot_getElem, if_pos rfl],
      fun j hj => by rw [fillSlot_getElem, if_neg hj], hexec, scheduledFrom_scheduleNext _⟩
  case ignored => rw [exec_compRegister, compRegister, withSlot_of_le hbad]

/-- Settles O28. -/
theorem compRegisterNsResult : Obligations.CompRegisterNsResult := by
  unfold Obligations.CompRegisterNsResult
  refine fun idx cb d s => ⟨fun h => ?encoding, fun i hi => ?fills, fun hbad => ?ignored⟩
  case encoding => rw [← immIndex_eq h]; rfl
  case fills =>
    have hexec : exec (.compRegisterNs idx cb d) s = .next (fillSlot i cb d s) := by
      have htoken : tokenOf Config.taken.cbWidth cb = cb := tokenOf_taken cb
      rw [exec_compRegisterNs, compRegisterNs, withSlot_of_eq hi, htoken]
    exact ⟨fillSlot i cb d s, hexec, rfl, by rw [fillSlot_getElem, if_pos rfl],
      fun j hj => by rw [fillSlot_getElem, if_neg hj]⟩
  case ignored => rw [exec_compRegisterNs, compRegisterNs, withSlot_of_le hbad]

/-- Settles O29. -/
theorem compDisableResult : Obligations.CompDisableResult := by
  unfold Obligations.CompDisableResult
  refine fun idx s => ⟨fun h => ?encoding, fun i hi => ?clears, fun hbad => ?ignored⟩
  case encoding => rw [← immIndex_eq h]; rfl
  case clears =>
    have hexec : exec (.compDisable idx) s = .next (scheduleNext (clearSlot i s)) := by
      rw [exec_compDisable, compDisable, withSlot_of_eq hi]
    exact ⟨clearSlot i s, _, rfl, by rw [clearSlot_getElem, if_pos rfl],
      fun j hj => by rw [clearSlot_getElem, if_neg hj], hexec, scheduledFrom_scheduleNext _⟩
  case ignored => rw [exec_compDisable, compDisable, withSlot_of_le hbad]

/-- Settles O30. -/
theorem compDisableNsResult : Obligations.CompDisableNsResult := by
  unfold Obligations.CompDisableNsResult
  refine fun idx s => ⟨fun h => ?encoding, fun i hi => ?clears, fun hbad => ?ignored⟩
  case encoding => rw [← immIndex_eq h]; rfl
  case clears =>
    have hexec : exec (.compDisableNs idx) s = .next (clearSlot i s) := by
      rw [exec_compDisableNs, compDisableNs, withSlot_of_eq hi]
    exact ⟨clearSlot i s, hexec, rfl, by rw [clearSlot_getElem, if_pos rfl],
      fun j hj => by rw [clearSlot_getElem, if_neg hj]⟩
  case ignored => rw [exec_compDisableNs, compDisableNs, withSlot_of_le hbad]

/-- Settles O31. -/
theorem compIsEnabledResult : Obligations.CompIsEnabledResult := by
  unfold Obligations.CompIsEnabledResult
  refine fun idx s => ⟨fun h => by rw [← immIndex_eq h]; rfl, bitWord (slotEnabled idx s),
    exec_compIsEnabled idx s, fun i hi => ?_, fun hbad => ?_⟩
  · subst hi
    rw [bitWord_toNat, slotEnabled_of_lt i.isLt]
    rfl
  · rw [slotEnabled_of_le hbad]
    rfl

end Sys2Proof.Machine
end

