-- ==== Sys2Proof/Proofs/BulkRegistration.lean ====
section
/-! A bulk update of the compare slots against the same registrations one by one (spec/42_compare.md R154 (b)). From a
schedule not armed within grace the arbiter's `S` is a function of the counter and the slots, and every run of the
arbiter leads to such a schedule again. -/

namespace Sys2Proof.Machine

variable {k : Config}

/-! ## `S` as a function of the counter and the slots -/

/-- The channel is not armed, or armed where step 6 of R142 would arm it: at least `2·GRACE` from `C_lax`. -/
def Any.State.clearOfGrace (s : Any.State k) : Prop := s.cmpIe = false ∨ 2 * k.grace ≤ distNat k s.c s.sched

/-- The value of `S` the arbiter computes for a slot table at counter `now`, by steps 3 and 6 of R142. -/
def schedFor (k : Config) (now : Word) (slots : Vector (Slot k.cbWidth) k.nComp) : Word :=
  match winner k now slots with
  | none => sentinel k now
  | some w => armValue k now slots[w].deadline

/-- A standing schedule that is clear of grace is one step 6 would arm again. -/
theorem scheduleNext_sched {s : Any.State k} (hs : s.clearOfGrace) :
    (scheduleNext s).sched = schedFor k s.c s.slots := by
  unfold schedFor
  obtain ⟨hw, h⟩ | ⟨w, hw, ⟨hie, hd, h⟩ | ⟨-, h⟩⟩ := scheduleNext_cases s <;> rw [hw, h]
  · rfl
  · have hfar : 2 * k.grace ≤ distNat k s.c s.slots[w].deadline := by
      rw [hd]
      exact hs.resolve_left (by simp [hie])
    obtain ⟨hnear, -⟩ | ⟨-, ha⟩ := armValue_cases k s.c s.slots[w].deadline
    · exact absurd hnear (Nat.not_lt.mpr hfar)
    · exact hd.symm.trans ha.symm
  · rfl

@[simp] theorem scheduleNext_c (s : Any.State k) : (scheduleNext s).c = s.c := congrArg (·.c) (scheduleNext_frame s)

theorem Any.State.clearOfGrace.scheduleNext (hk : k.Allowed) {s : Any.State k} (hs : s.clearOfGrace) :
    (scheduleNext s).clearOfGrace := by
  obtain ⟨-, h⟩ | ⟨w, -, ⟨-, -, h⟩ | ⟨-, h⟩⟩ := scheduleNext_cases s <;> rw [h]
  · exact .inl rfl
  · exact hs
  · exact .inr (by rw [arm_c, arm_sched, distNat_armValue hk]; exact le_max_right _ _)

/-! ## The `_NS` forms -/

theorem compRegisterNs_frame (idx : Nat) (cb d : Word) (s : Any.State k) :
    compRegisterNs idx cb d s = { s with slots := (compRegisterNs idx cb d s).slots } := by
  unfold compRegisterNs
  exact withSlot_elim (p := fun t => t = { s with slots := t.slots }) idx (fun _ => rfl) rfl

/-- The new slot table depends on the old one alone. -/
theorem compRegisterNs_slots_congr (idx : Nat) (cb d : Word) {s t : Any.State k} (h : s.slots = t.slots) :
    (compRegisterNs idx cb d s).slots = (compRegisterNs idx cb d t).slots := by
  unfold compRegisterNs withSlot
  split
  · simp only [fillSlot_slots, h]
  · exact h

theorem registerAllNs_frame (l : List (Nat × Word × Word)) (s : Any.State k) :
    registerAllNs l s = { s with slots := (registerAllNs l s).slots } := by
  induction l generalizing s with
  | nil => rfl
  | cons e l ih =>
    obtain ⟨idx, cb, d⟩ := e
    rw [registerAllNs, ih, compRegisterNs_frame]

theorem registerAllNs_slots_congr (l : List (Nat × Word × Word)) {s t : Any.State k} (h : s.slots = t.slots) :
    (registerAllNs l s).slots = (registerAllNs l t).slots := by
  induction l generalizing s t with
  | nil => exact h
  | cons e l ih => exact ih (compRegisterNs_slots_congr _ _ _ h)

theorem Any.State.clearOfGrace.registerAllNs {s : Any.State k} (hs : s.clearOfGrace) (l : List (Nat × Word × Word)) :
    (registerAllNs l s).clearOfGrace := by
  rw [registerAllNs_frame]
  exact hs

/-- `COMP_REGISTER` of an existing slot is its `_NS` form and the arbiter (R145, R146). -/
theorem compRegister_of_lt {idx : Nat} (h : idx < k.nComp) (cb d : Word) (s : Any.State k) :
    compRegister idx cb d s = scheduleNext (compRegisterNs idx cb d s) := by
  rw [compRegister, compRegisterNs, withSlot_of_lt h, withSlot_of_lt h]

/-- Settles O33, by induction on the list: the last registration's arbiter sees the slots of the bulk update, and what
the arbiter did before it changes neither those nor the counter. -/
theorem bulkRegistrationMatchesSingle : Obligations.BulkRegistrationMatchesSingle := by
  unfold Obligations.BulkRegistrationMatchesSingle
  intro k hk s l hne hidx hs
  change s.clearOfGrace at hs
  induction l generalizing s with
  | nil => exact absurd rfl hne
  | cons e l ih =>
    obtain ⟨idx, cb, d⟩ := e
    have hfirst := compRegister_of_lt (hidx (idx, cb, d) List.mem_cons_self) cb d s
    have hu : (compRegisterNs idx cb d s).clearOfGrace := hs.registerAllNs [(idx, cb, d)]
    rw [registerAll, registerAllNs, hfirst]
    generalize compRegisterNs idx cb d s = u at hu
    cases l with
    | nil => rfl
    | cons e l =>
      have hu' := hu.scheduleNext hk
      have hc : (registerAllNs (e :: l) (scheduleNext u)).c = (registerAllNs (e :: l) u).c := by
        rw [registerAllNs_frame, registerAllNs_frame (s := u)]
        exact scheduleNext_c u
      have hslots := registerAllNs_slots_congr (e :: l) (scheduleNext_slots u)
      calc (registerAll (e :: l) (scheduleNext u)).sched
        _ = (scheduleNext (registerAllNs (e :: l) (scheduleNext u))).sched :=
          ih _ (by simp) (fun x hx => hidx x (List.mem_cons_of_mem _ hx)) hu'
        _ = (scheduleNext (registerAllNs (e :: l) u)).sched := by
          rw [scheduleNext_sched (hu'.registerAllNs _), scheduleNext_sched (hu.registerAllNs _), hc, hslots]

end Sys2Proof.Machine
end

