-- ==== Sys2Proof/Proofs/CompareScan.lean ====
section
/-! The scan step of a compare pass (spec/60_exceptions.md R222, spec/42_compare.md R153), as a step of the machine and
as a turn whose callback returns at once. -/

namespace Sys2Proof.Machine

variable {k : Config}

/-! ## A turn of the sequencer -/

theorem step_of_service_scripted {s : State} {ts : List Turn} {first : Service}
    (hturns : s.turns = .service first :: ts) : step s = .next (serviceStep first { s with turns := ts }) := by
  have hturn : s.nextTurn = .service first := by simp [Any.State.nextTurn, hturns]
  have hpass : s.passTurn = { s with turns := ts } := by simp [Any.State.passTurn, hturns]
  rw [step, hturn, hpass, runTurn]

theorem serviceStep_of_idle {s : Any.State k} (hmode : s.seq.mode = .idle) (first : Service) :
    serviceStep first s = serviceEntry first s := by
  rw [serviceStep, hmode]

theorem serviceStep_of_cmp {s : Any.State k} (hmode : s.seq.mode = .cmp) (hcb : s.seq.inCb = false) (first : Service) :
    serviceStep first s = compareStep s := by
  rw [serviceStep, hmode, hcb]

/-! ## The scan step -/

/-- Whether a slot is due, in exact integers (R153). -/
theorem due_eq_dueAt (s : Any.State k) (c : Word) (i : Fin k.nComp) : s.slots[i].due k c = s.dueAt c i := by
  have hage : (c - s.slots[i].deadline).toNat = umod32 (c.toNat - s.slots[i].deadline.toNat) := by
    simp only [umod32, BitVec.toNat_sub]
    omega
  rw [Slot.due, Any.State.dueAt, hage]

theorem compareStep_of_cursor {s : Any.State k} {i : Fin k.nComp} (hcur : s.seq.cursor = i.val) :
    compareStep s = compareScan i s := by
  have hlt : s.seq.cursor < k.nComp := hcur ▸ i.isLt
  have hi : (⟨s.seq.cursor, hlt⟩ : Fin k.nComp) = i := Fin.ext hcur
  rw [compareStep, dif_pos hlt, hi]

theorem compareScan_of_due {s : Any.State k} {i : Fin k.nComp} (h : s.dueAt s.seq.clatch i = true) :
    compareScan i s = fireSlot i (passSlot i s) := by
  rw [compareScan, due_eq_dueAt, if_pos h]

theorem compareScan_of_not_due {s : Any.State k} {i : Fin k.nComp} (h : s.dueAt s.seq.clatch i = false) :
    compareScan i s = passSlot i s := by
  rw [compareScan, due_eq_dueAt, if_neg (Bool.eq_false_iff.mp h)]

section ScanTurn

variable {s : Any.State k} {i : Fin k.nComp} (hmode : s.seq.mode = .cmp) (hcb : s.seq.inCb = false)
  (hcur : s.seq.cursor = i.val)
include hmode hcb hcur

theorem serviceStep_of_due (hdue : s.dueAt s.seq.clatch i = true) (first : Service) :
    serviceStep first s = fireSlot i (passSlot i s) := by
  rw [serviceStep_of_cmp hmode hcb, compareStep_of_cursor hcur, compareScan_of_due hdue]

theorem serviceStep_of_not_due (hdue : s.dueAt s.seq.clatch i = false) (first : Service) :
    serviceStep first s = passSlot i s := by
  rw [serviceStep_of_cmp hmode hcb, compareStep_of_cursor hcur, compareScan_of_not_due hdue]

end ScanTurn

/-- Settles O39. -/
theorem compareScanResult : Obligations.CompareScanResult := by
  unfold Obligations.CompareScanResult
  intro s ts first i hturns hmode hcb hcur
  rw [step_of_service_scripted hturns]
  refine ⟨fun hdue => ?fires, fun hdue => ?passes⟩
  case fires =>
    exact ⟨_, congrArg _ (serviceStep_of_due (s := { s with turns := ts }) hmode hcb hcur hdue first), rfl,
      (clearSlot_getElem i i _).trans (if_pos rfl), fun j hj => (clearSlot_getElem i j _).trans (if_neg hj)⟩
  case passes =>
    exact congrArg _ (serviceStep_of_not_due (s := { s with turns := ts }) hmode hcb hcur hdue first)

/-! ## Turns whose callback returns at once -/

theorem cbRet_of_inCb_eq_false {s : Any.State k} (h : s.seq.inCb = false) : cbRet s = s := by simp [cbRet, h]

/-- The compare entry opens no window for `CB_RET` to close; the turn prefers it to a periodic one (log 3). -/
theorem quietRound_of_cmpFlag {s : Any.State k} (hmode : s.seq.mode = .idle) (hflag : s.cmpFlag = true) :
    quietRound .compare s = compareEntry s := by
  have hentry : serviceEntry .compare s = compareEntry s := by
    obtain ⟨-, hper, -⟩ | ⟨-, -, h⟩ | ⟨-, hnone, -⟩ := serviceEntry_cases .compare s
    · exact absurd hper (by simp [Any.State.cmpRequest, hflag])
    · exact h
    · exact absurd (hflag.symm.trans hnone) nofun
  rw [quietRound, serviceStep_of_idle hmode, hentry]
  exact cbRet_of_inCb_eq_false rfl

/-- A slot that fires has its window closed again. -/
theorem quietRound_of_due {s : Any.State k} {i : Fin k.nComp} (hmode : s.seq.mode = .cmp) (hcb : s.seq.inCb = false)
    (hcur : s.seq.cursor = i.val) (hdue : s.dueAt s.seq.clatch i = true) (first : Service) :
    quietRound first s = emit (.cmpCb i.val s.slots[i].callback) (clearSlot i (passSlot i s)) := by
  have hclosed : ({ (passSlot i s).seq with inCb := false } : Seq) = (passSlot i s).seq := by
    show ({ s.seq with cursor := i.val + 1, inCb := false } : Seq) = { s.seq with cursor := i.val + 1 }
    rw [← hcb]
  rw [quietRound, serviceStep_of_due hmode hcb hcur hdue]
  calc cbRet (fireSlot i (passSlot i s))
    _ = closeWindow (fireSlot i (passSlot i s)) := if_pos rfl
    _ = { fireSlot i (passSlot i s) with seq := { (passSlot i s).seq with inCb := false } } := rfl
    _ = { fireSlot i (passSlot i s) with seq := (passSlot i s).seq } := by rw [hclosed]
    _ = emit (.cmpCb i.val s.slots[i].callback) (clearSlot i (passSlot i s)) := rfl

theorem quietRound_of_not_due {s : Any.State k} {i : Fin k.nComp} (hmode : s.seq.mode = .cmp)
    (hcb : s.seq.inCb = false) (hcur : s.seq.cursor = i.val) (hdue : s.dueAt s.seq.clatch i = false) (first : Service) :
    quietRound first s = passSlot i s := by
  rw [quietRound, serviceStep_of_not_due hmode hcb hcur hdue]
  exact cbRet_of_inCb_eq_false hcb

theorem quietRound_of_finish {s : Any.State k} (hmode : s.seq.mode = .cmp) (hcb : s.seq.inCb = false)
    (hcur : s.seq.cursor = k.nComp) (first : Service) : quietRound first s = compareFinish s := by
  have hfinish : compareStep s = compareFinish s := by rw [compareStep, dif_neg (by omega), if_pos hcur]
  have hclosed : (compareFinish s).seq.inCb = false := (congrArg (·.seq.inCb) (scheduleNext_frame s)).trans hcb
  rw [quietRound, serviceStep_of_cmp hmode hcb, hfinish, cbRet_of_inCb_eq_false hclosed]

end Sys2Proof.Machine
end

