-- ==== Sys2Proof/Proofs/ArmedDeadline.lean ====
section
/-! An armed deadline is fired by its match (spec/60_exceptions.md R227): the ticks raise the flag (R144), the entry
latches a counter at which the deadline is due (R221, R153), and the pass fires the slot when its cursor is there (R222)
and ends (R223). -/

namespace Sys2Proof.Machine

variable {k : Config}

/-! ## Runs of ticks -/

theorem tickN_frame (n : Nat) (s : Any.State k) :
    tickN n s = { s with c := s.c + BitVec.ofNat 32 n, t0 := (tickN n s).t0, perFlag := (tickN n s).perFlag,
                         cmpFlag := (tickN n s).cmpFlag, trace := (tickN n s).trace } := by
  induction n generalizing s with
  | zero => simp [tickN]
  | succ n ih =>
    rw [tickN, ih, tick_c, add_assoc, Nat.add_comm, BitVec.ofNat_add, tick_frame]
    rfl

/-- The flag is up after a run of ticks that meets the armed value, and stays up (R144). -/
theorem tickN_cmpFlag_iff (n : Nat) (s : Any.State k) :
    (tickN n s).cmpFlag = true ↔
      s.cmpFlag = true ∨ (s.cmpIe = true ∧ ∃ j < n, s.c + BitVec.ofNat 32 (j + 1) = s.comp) := by
  induction n generalizing s with
  | zero => simp [tickN]
  | succ n ih =>
    have hie : (tick s).cmpIe = s.cmpIe := congrArg (·.cmpIe) (tick_frame s)
    have hcomp : (tick s).comp = s.comp := congrArg (·.comp) (tick_frame s)
    have hlater (j : Nat) : s.c + 1 + BitVec.ofNat 32 (j + 1) = s.c + BitVec.ofNat 32 (j + 1 + 1) := by
      rw [BitVec.ofNat_add (j + 1), add_assoc, add_comm 1]
      rfl
    rw [tickN, ih, tick_cmpFlag_iff, hie, hcomp, tick_c, Nat.exists_lt_succ_left]
    simp only [hlater, or_assoc, ← and_or_left]
    rfl

/-- Ticks announce nothing but wraps. -/
theorem tickN_trace (n : Nat) (s : Any.State k) : ∃ m, (tickN n s).trace = s.trace ++ List.replicate m .ovf := by
  induction n generalizing s with
  | zero => exact ⟨0, by simp [tickN]⟩
  | succ n ih =>
    obtain ⟨m, hm⟩ := ih (tick s)
    obtain ⟨-, -, h⟩ | ⟨-, -, h⟩ := tick_overflow_cases s
    · exact ⟨m + 1, by rw [tickN, hm, h, List.append_assoc, List.replicate_succ]; rfl⟩
    · exact ⟨m, by rw [tickN, hm, h]⟩

/-! ## How often a slot fires -/

/-- From `s` to `t` the trace grows, by `n` events of slot `w`, whose token stays. -/
def Any.State.FiresTimes (s t : Any.State k) (w : Fin k.nComp) (n : Nat) : Prop :=
  t.slots[w].callback = s.slots[w].callback ∧
    ∃ l, t.trace = s.trace ++ l ∧ l.count (.cmpCb w.val s.slots[w].callback) = n

namespace Any.State.FiresTimes

variable {s t u : Any.State k} {w : Fin k.nComp}

theorem trans {m n : Nat} (h : s.FiresTimes t w m) (h' : t.FiresTimes u w n) : s.FiresTimes u w (m + n) := by
  obtain ⟨htoken, l, hl, hm⟩ := h
  obtain ⟨htoken', l', hl', hn⟩ := h'
  rw [htoken] at htoken' hn
  exact ⟨htoken', l ++ l', by rw [hl', hl, List.append_assoc], by rw [List.count_append, hm, hn]⟩

theorem of_trace_eq (hslots : t.slots[w].callback = s.slots[w].callback) (htrace : t.trace = s.trace) :
    s.FiresTimes t w 0 := ⟨hslots, [], by simp [htrace], rfl⟩

theorem tickN (n : Nat) (s : Any.State k) (w : Fin k.nComp) : s.FiresTimes (tickN n s) w 0 := by
  obtain ⟨m, hm⟩ := tickN_trace n s
  exact ⟨congrArg (·.slots[w].callback) (tickN_frame n s), _, hm, by simp [List.count_replicate]⟩

end Any.State.FiresTimes

/-! ## A compare pass and one slot -/

/-- The open compare pass has slot `w` still ahead of its cursor, and as the slot stands it is due. -/
def Any.State.willFire (s : Any.State k) (w : Fin k.nComp) : Bool :=
  decide (s.seq.cursor ≤ w.val) && s.dueAt s.seq.clatch w

theorem willFire_iff {s : Any.State k} {w : Fin k.nComp} :
    s.willFire w = true ↔ s.seq.cursor ≤ w.val ∧ s.dueAt s.seq.clatch w = true := by
  rw [Any.State.willFire, Bool.and_eq_true, decide_eq_true_iff]

/-- The entry has every slot ahead and latches the counter (R221). -/
theorem compareEntry_willFire {s : Any.State k} {w : Fin k.nComp} (hen : s.slots[w].enabled = true)
    (hlate : umod32 (s.c.toNat - s.slots[w].deadline.toNat) < 4 * k.grace) : (compareEntry s).willFire w = true := by
  have hdue : (compareEntry s).dueAt s.c w = true := by
    rw [Any.State.dueAt, compareEntry_slots, hen, decide_eq_true hlate]
    rfl
  exact willFire_iff.mpr ⟨Nat.zero_le _, hdue⟩

theorem willFire_of_passed {s : Any.State k} {w : Fin k.nComp} (h : w.val < s.seq.cursor) : s.willFire w = false := by
  rw [Any.State.willFire, decide_eq_false (Nat.not_le.mpr h), Bool.false_and]

/-- A cursor that moves past slot `i` changes nothing for slot `w` when that is another one, or not due. -/
theorem willFire_of_cursor_moved {s t : Any.State k} {i w : Fin k.nComp} (hcur : s.seq.cursor = i.val)
    (hseq : t.seq = { s.seq with cursor := i.val + 1 }) (hslot : t.slots[w] = s.slots[w])
    (hw : w = i → s.dueAt s.seq.clatch i = false) : t.willFire w = s.willFire w := by
  have hdue : t.dueAt t.seq.clatch w = s.dueAt s.seq.clatch w := by
    unfold Any.State.dueAt
    rw [hslot, hseq]
  have hahead : t.seq.cursor ≤ w.val ↔ s.seq.cursor ≤ w.val ∧ w ≠ i := by
    rw [hseq, hcur, ne_eq, Fin.ext_iff]
    show i.val + 1 ≤ w.val ↔ _
    omega
  unfold Any.State.willFire
  rw [hdue]
  by_cases hwi : w = i
  · rw [hwi, hw hwi, Bool.and_false, Bool.and_false]
  · rw [decide_eq_decide.mpr (hahead.trans (and_iff_left hwi))]

/-- Slot `w` is enabled, and the open compare pass will leave it so. -/
def Any.State.survives (s : Any.State k) (w : Fin k.nComp) : Bool := s.slots[w].enabled && !s.willFire w

theorem survives_of_disabled {s : Any.State k} {w : Fin k.nComp} (h : s.slots[w].enabled = false) :
    s.survives w = false := by
  rw [Any.State.survives, h, Bool.false_and]

theorem survives_of_willFire {s : Any.State k} {w : Fin k.nComp} (h : s.willFire w = true) : s.survives w = false := by
  rw [Any.State.survives, h, Bool.not_true, Bool.and_false]

/-- With no slot to fire the survivors are the enabled slots. -/
theorem survives_of_not_willFire {s : Any.State k} {w : Fin k.nComp} (h : s.willFire w = false) :
    s.survives w = s.slots[w].enabled := by
  rw [Any.State.survives, h, Bool.not_false, Bool.and_true]

/-- From `s` to `t` slot `w` fires as often as it was to fire in `s` and is not in `t`, and only that disables it. -/
structure Any.State.KeepsAccount (s t : Any.State k) (w : Fin k.nComp) : Prop where
  fires : ∃ n, s.FiresTimes t w n ∧ n + (t.willFire w).toNat = (s.willFire w).toNat
  survives : t.survives w = s.survives w

namespace Any.State.KeepsAccount

variable {s t u : Any.State k} {i w : Fin k.nComp}

theorem trans (h : s.KeepsAccount t w) (h' : t.KeepsAccount u w) : s.KeepsAccount u w := by
  obtain ⟨⟨m, hm, hmt⟩, hen⟩ := h
  obtain ⟨⟨n, hn, hnu⟩, hen'⟩ := h'
  exact ⟨⟨m + n, hm.trans hn, by omega⟩, hen'.trans hen⟩

/-- What fires no slot and moves no prospect. -/
theorem of_unfired (hfires : s.FiresTimes t w 0) (hwill : t.willFire w = s.willFire w)
    (hslot : t.slots[w] = s.slots[w]) : s.KeepsAccount t w :=
  ⟨⟨0, hfires, by rw [hwill, Nat.zero_add]⟩, by rw [Any.State.survives, Any.State.survives, hwill, hslot]⟩

theorem tickN (n : Nat) (s : Any.State k) (w : Fin k.nComp) : s.KeepsAccount (tickN n s) w := by
  have hseq : (Machine.tickN n s).seq = s.seq := congrArg (·.seq) (tickN_frame n s)
  have hslots : (Machine.tickN n s).slots = s.slots := congrArg (·.slots) (tickN_frame n s)
  refine of_unfired (.tickN n s w) ?_ (by rw [hslots])
  rw [willFire, willFire, dueAt, dueAt, hseq, hslots]

/-- The scan of the slot that fires (R222). -/
theorem fired (hcur : s.seq.cursor = w.val) (hdue : s.dueAt s.seq.clatch w = true) :
    s.KeepsAccount (emit (.cmpCb w.val s.slots[w].callback) (clearSlot w (passSlot w s))) w := by
  have hslot := (clearSlot_getElem w w (passSlot w s)).trans (if_pos rfl)
  have hwas : s.willFire w = true := willFire_iff.mpr ⟨hcur.le, hdue⟩
  generalize ht : emit (.cmpCb w.val s.slots[w].callback) (clearSlot w (passSlot w s)) = t
  have hnow : t.willFire w = false := willFire_of_passed (by rw [← ht]; exact Nat.lt_succ_self w.val)
  have hoff : t.survives w = false := survives_of_disabled (by rw [← ht]; exact congrArg (·.enabled) hslot)
  subst ht
  exact ⟨⟨1, ⟨congrArg (·.callback) hslot, _, rfl, List.count_singleton_self⟩, by rw [hnow, hwas]; rfl⟩,
    hoff.trans (survives_of_willFire hwas).symm⟩

/-- The scan of another slot that fires. -/
theorem other_fired (hcur : s.seq.cursor = i.val) (hwi : w ≠ i) :
    s.KeepsAccount (emit (.cmpCb i.val s.slots[i].callback) (clearSlot i (passSlot i s))) w := by
  have hslot := (clearSlot_getElem i w (passSlot i s)).trans (if_neg hwi)
  have hother : (.cmpCb i.val s.slots[i].callback : Event k.cbWidth) ≠ .cmpCb w.val s.slots[w].callback := by
    intro h
    injection h with hval
    exact hwi (Fin.ext hval.symm)
  refine of_unfired ⟨congrArg (·.callback) hslot, _, rfl, ?_⟩
    (willFire_of_cursor_moved hcur rfl hslot fun h => absurd h hwi) hslot
  rw [List.count_singleton, beq_false_of_ne hother]
  rfl

end Any.State.KeepsAccount

/-- A scan round moves the cursor past its slot and keeps every slot's account (R222). -/
theorem quietRound_scan {s : Any.State k} {i : Fin k.nComp} (hmode : s.seq.mode = .cmp) (hcb : s.seq.inCb = false)
    (hcur : s.seq.cursor = i.val) (first : Service) (w : Fin k.nComp) :
    (quietRound first s).seq = { s.seq with cursor := i.val + 1 } ∧ s.KeepsAccount (quietRound first s) w := by
  cases hdue : s.dueAt s.seq.clatch i with
  | false =>
    rw [quietRound_of_not_due hmode hcb hcur hdue]
    exact ⟨rfl, .of_unfired (.of_trace_eq rfl rfl) (willFire_of_cursor_moved hcur rfl rfl fun _ => hdue) rfl⟩
  | true =>
    rw [quietRound_of_due hmode hcb hcur hdue]
    refine ⟨rfl, ?_⟩
    by_cases hwi : w = i
    · subst hwi
      exact .fired hcur hdue
    · exact .other_fired hcur hwi

/-- The finish round ends the pass, where no slot is ahead any more (R223). -/
theorem quietRound_finish {s : Any.State k} (hmode : s.seq.mode = .cmp) (hcb : s.seq.inCb = false)
    (hcur : s.seq.cursor = k.nComp) (first : Service) (w : Fin k.nComp) :
    (quietRound first s).seq = { s.seq with mode := .idle } ∧ s.KeepsAccount (quietRound first s) w := by
  have hslots : (compareFinish s).slots = s.slots := scheduleNext_slots s
  have htrace : (compareFinish s).trace = s.trace := congrArg (·.trace) (scheduleNext_frame s)
  have hseq : (compareFinish s).seq = { s.seq with mode := .idle } := by
    show ({ (scheduleNext s).seq with mode := .idle } : Seq) = _
    rw [scheduleNext_frame]
  rw [quietRound_of_finish hmode hcb hcur]
  refine ⟨hseq, .of_unfired (.of_trace_eq (by rw [hslots]) htrace) ?_ (by rw [hslots])⟩
  have hpassed : w.val < s.seq.cursor := w.isLt.trans_eq hcur.symm
  rw [willFire_of_passed hpassed, willFire_of_passed (by rw [hseq]; exact hpassed)]

/-- The rest of a compare pass whose callbacks issue no command, whatever ticks fall between its steps (R220), ends and
keeps every slot's account, with no slot left to fire. -/
theorem quietRoundsAfterTicks_pass (first : Service) (w : Fin k.nComp) (ticks : List Nat) {s t : Any.State k}
    (ht : quietRoundsAfterTicks first ticks s = t) (hmode : s.seq.mode = .cmp) (hcb : s.seq.inCb = false)
    (hcur : s.seq.cursor ≤ k.nComp) (hlen : s.seq.cursor + ticks.length = k.nComp + 1) :
    t.seq.mode = .idle ∧ t.willFire w = false ∧ s.KeepsAccount t w := by
  induction ticks generalizing s with
  | nil => exact absurd hlen (Nat.ne_of_lt (Nat.lt_succ_of_le hcur))
  | cons n ticks ih =>
    have hticks := Any.State.KeepsAccount.tickN n s w
    have hseq : (tickN n s).seq = s.seq := congrArg (·.seq) (tickN_frame n s)
    rw [quietRoundsAfterTicks] at ht
    rw [← hseq] at hmode hcb hcur hlen
    generalize tickN n s = u at ht hmode hcb hcur hlen hticks
    rw [List.length_cons] at hlen
    obtain hlt | hfinish := Nat.lt_or_eq_of_le hcur
    · obtain ⟨hnext, hround⟩ := quietRound_scan (i := ⟨u.seq.cursor, hlt⟩) hmode hcb rfl first w
      have hcursor : (quietRound first u).seq.cursor = u.seq.cursor + 1 := congrArg (·.cursor) hnext
      obtain ⟨hidle, hdone, hrest⟩ := ih ht ((congrArg (·.mode) hnext).trans hmode)
        ((congrArg (·.inCb) hnext).trans hcb) (by omega) (by omega)
      exact ⟨hidle, hdone, (hticks.trans hround).trans hrest⟩
    · obtain ⟨hnext, hround⟩ := quietRound_finish hmode hcb hfinish first w
      obtain rfl : ticks = [] := List.length_eq_zero_iff.mp (by omega)
      rw [quietRoundsAfterTicks] at ht
      subst ht
      refine ⟨congrArg (·.mode) hnext, willFire_of_passed ?_, hticks.trans hround⟩
      rw [hnext]
      exact w.isLt.trans_eq hfinish.symm

/-! ## From the arbiter to the pass -/

theorem distNat_self (hk : k.Allowed) (now : Word) : distNat k now now = k.grace := by
  have hgrace := hk.graceHigh
  simp only [distNat, umod32]
  omega

/-- The arbiter leaves the channel armed for a value still ahead, when a schedule that stands is so. -/
theorem scheduleNext_armed_ahead (hk : k.Allowed) {s : Any.State k} {w : Fin k.nComp} (hw : s.isWinner w)
    (hstands : s.standsAt s.slots[w].deadline → s.comp = s.sched ∧ s.comp ≠ s.c) :
    (scheduleNext s).cmpIe = true ∧ (scheduleNext s).comp = (scheduleNext s).sched ∧ (scheduleNext s).comp ≠ s.c := by
  obtain ⟨hs, h⟩ | ⟨-, h⟩ := scheduleNext_cases_of_isWinner hw <;> rw [h]
  · exact ⟨hs.1, hstands hs⟩
  · refine ⟨rfl, rfl, fun heq => ?_⟩
    have hgrace := hk.graceLow
    have hdist := distNat_armValue hk s.c s.slots[w].deadline
    rw [arm_comp] at heq
    rw [heq, distNat_self hk] at hdist
    omega

/-- Ticks up to the armed value and more raise the flag, and lead as far past it. -/
theorem tickN_past_comp {s : Any.State k} (hie : s.cmpIe = true) (hahead : s.comp ≠ s.c) (L : Nat) :
    (tickN ((s.comp - s.c).toNat + L) s).cmpFlag = true ∧
      (tickN ((s.comp - s.c).toNat + L) s).c = s.comp + BitVec.ofNat 32 L := by
  have hreach : s.c + BitVec.ofNat 32 (s.comp - s.c).toNat = s.comp := by
    rw [BitVec.ofNat_toNat, BitVec.setWidth_eq]
    ring
  have hpos : (s.comp - s.c).toNat ≠ 0 := fun h0 => hahead (by rw [← hreach, h0]; exact BitVec.add_zero _)
  constructor
  · refine (tickN_cmpFlag_iff _ s).mpr (.inr ⟨hie, (s.comp - s.c).toNat - 1, by omega, ?_⟩)
    rw [Nat.sub_add_cancel (Nat.pos_of_ne_zero hpos), hreach]
  · rw [tickN_frame]
    show s.c + BitVec.ofNat 32 ((s.comp - s.c).toNat + L) = _
    rw [BitVec.ofNat_add, ← add_assoc, hreach]

/-- Settles O35: the ticks end with the flag up, the entry finds the winner due by `armedDeadlineDueWithinLatency`, and
the pass fires it by `quietRoundsAfterTicks_pass`. -/
theorem armedDeadlineFires : Obligations.ArmedDeadlineFires := by
  unfold Obligations.ArmedDeadlineFires
  intro k hk s w L ticks hw hstands _ hidle hL hlen a b t
  obtain ⟨hie, hcomp, hahead⟩ := scheduleNext_armed_ahead hk hw hstands
  have hac : a.c = s.c := scheduleNext_c s
  obtain ⟨hflag, hbc⟩ : b.cmpFlag = true ∧ b.c = a.comp + BitVec.ofNat 32 L :=
    tickN_past_comp hie (by rw [hac]; exact hahead) L
  have hslots : b.slots = s.slots := (congrArg (·.slots) (tickN_frame _ a)).trans (scheduleNext_slots s)
  have hmode : b.seq.mode = .idle :=
    (congrArg (·.seq.mode) (tickN_frame _ a)).trans ((congrArg (·.seq.mode) (scheduleNext_frame s)).trans hidle)
  have hfires : (compareEntry b).willFire w = true := by
    have hdue := (armedDeadlineDueWithinLatency k hk s w hw L).1 hL
    refine compareEntry_willFire (by rw [hslots]; exact hw.1) ?_
    rw [hslots, hbc, hcomp]
    simp only [umod32, BitVec.toNat_add, BitVec.toNat_ofNat] at hdue ⊢
    omega
  have hpass : quietRoundsAfterTicks .compare ticks (compareEntry b) = t := by
    rw [← quietRound_of_cmpFlag hmode hflag]
  obtain ⟨hend, hdone, ⟨n, ⟨-, l, hl, hcount⟩, hn⟩, hsurvives⟩ :=
    quietRoundsAfterTicks_pass .compare w ticks hpass rfl rfl (Nat.zero_le _) ((Nat.zero_add _).trans hlen)
  rw [hdone, hfires] at hn
  rw [compareEntry_slots, hslots] at hcount
  rw [survives_of_not_willFire hdone, survives_of_willFire hfires] at hsurvives
  exact ⟨hflag, l, hl, hcount.trans hn, hsurvives, hend⟩

end Sys2Proof.Machine
end

