-- ==== Sys2Proof/Proofs/Dithering.lean ====
section
/-! Dithering (spec/43_freqcorr.md R180, R181, R193): each correction takes `raw` and hands on what the written value
leaves of the sum, so over a run the values and the last residual account for every `raw`. -/

namespace Sys2Proof.Machine

variable {k : Config}

theorem ditherRemainder_eq (sum : Int) : ditherRemainder sum = sum - 31 * ditherLsb sum := by
  rw [ditherRemainder, Config.ditherD, mul_comm]

/-- Settles O47. -/
theorem ditherQuantisesToNearest : Obligations.DitherQuantisesToNearest := by
  unfold Obligations.DitherQuantisesToNearest
  intro sum
  rw [← ditherRemainder_eq]
  exact ditherRemainder_bounds sum

/-- The remainder fits the residual register, so the register holds it whole (R181). -/
theorem ofInt_ditherRemainder_toInt (sum : Int) :
    (BitVec.ofInt 16 (ditherRemainder sum)).toInt = ditherRemainder sum := by
  obtain ⟨hlow, hhigh⟩ := ditherRemainder_bounds sum
  rw [BitVec.toInt_ofInt, Int.bmod_eq_of_le] <;> omega

theorem applyRaw_resid (raw : Int) (s : Any.State k) :
    (applyRaw raw s).resid.toInt = ditherRemainder (raw + s.resid.toInt) := by
  obtain ⟨-, h⟩ | ⟨-, h⟩ := applyRaw_cases raw s <;> rw [h] <;> exact ofInt_ditherRemainder_toInt _

/-- A run of corrections accounts for every `raw`: in the values, 31 units each, or in the residual. -/
theorem applyRawN_account (raw : Int) (n : Nat) (s : Any.State k) :
    n * raw + s.resid.toInt = 31 * (lsbsOf raw n s).sum + (applyRawN raw n s).resid.toInt := by
  induction n generalizing s with
  | zero => simp [lsbsOf, applyRawN]
  | succ n ih =>
    have hrest := ih (applyRaw raw s)
    rw [applyRaw_resid, ditherRemainder_eq] at hrest
    rw [lsbsOf, applyRawN, List.sum_cons]
    push_cast
    linarith

/-- From a residual of at most half a step a run of corrections ends with one (R181). -/
theorem applyRawN_resid_bounds (raw : Int) (n : Nat) {s : Any.State k} (hlow : -15 ≤ s.resid.toInt)
    (hhigh : s.resid.toInt ≤ 15) :
    -15 ≤ (applyRawN raw n s).resid.toInt ∧ (applyRawN raw n s).resid.toInt ≤ 15 := by
  induction n generalizing s with
  | zero => exact ⟨hlow, hhigh⟩
  | succ n ih =>
    obtain ⟨hlow, hhigh⟩ := ditherRemainder_bounds (raw + s.resid.toInt)
    rw [← applyRaw_resid] at hlow hhigh
    exact ih hlow hhigh

/-- Settles O48: by the account the two residuals are equal modulo 31, and both are at most half a step. -/
theorem ditherReturnsAfterThirtyOne : Obligations.DitherReturnsAfterThirtyOne := by
  unfold Obligations.DitherReturnsAfterThirtyOne
  intro k raw s hlow hhigh
  have haccount := applyRawN_account raw 31 s
  obtain ⟨hlow', hhigh'⟩ := applyRawN_resid_bounds raw 31 hlow hhigh
  push_cast at haccount
  refine ⟨BitVec.eq_of_toInt_eq ?_, ?_⟩ <;> omega

end Sys2Proof.Machine
end

