-- ==== Sys2Proof/Proofs/TuneWriter.lean ====
section
/-! The tuning value and its writer (spec/43_freqcorr.md R182 to R184), for whatever `fc_raw` the configuration has. -/

namespace Sys2Proof.Machine

variable {k : Config}

/-! ## Sign and magnitude -/

theorem clampLsb_bounds (lsb : Int) : -127 ≤ clampLsb lsb ∧ clampLsb lsb ≤ 127 := by
  unfold clampLsb clampInt
  omega

/-- The sign is the top bit, the magnitude the seven below (R183). -/
theorem tuneCode_toNat {c : Int} (hlow : -127 ≤ c) (hhigh : c ≤ 127) :
    (tuneCode c).toNat = (if c < 0 then 128 else 0) + c.natAbs := by
  have hmag : c.natAbs % 2 ^ 7 = c.natAbs := Nat.mod_eq_of_lt (by omega)
  rw [tuneCode, BitVec.toNat_append, ← Nat.shiftLeft_add_eq_or_of_lt (BitVec.isLt _), BitVec.toNat_ofNat, hmag,
    BitVec.toNat_ofBool]
  by_cases hneg : c < 0 <;> simp [hneg]

theorem ditherCode_toNat (sum : Int) :
    (ditherCode sum).toNat =
      (if clampLsb (ditherLsb sum) < 0 then 128 else 0) + (clampLsb (ditherLsb sum)).natAbs := by
  obtain ⟨hlow, hhigh⟩ := clampLsb_bounds (ditherLsb sum)
  exact tuneCode_toNat hlow hhigh

/-- A sign bit comes with a magnitude that is not 0 (R183). -/
theorem ditherCode_ne_negativeZero (sum : Int) : ditherCode sum ≠ 0x80 := by
  intro h
  obtain ⟨-, hhigh⟩ := clampLsb_bounds (ditherLsb sum)
  have hcode := ditherCode_toNat sum
  rw [h, show (0x80 : Byte).toNat = 128 from rfl] at hcode
  split at hcode <;> omega

/-! ## One correction -/

/-- The test for `MISSING` by the pattern's number (R171). -/
theorem effectiveTemp_eq (cfg : FcCfg) (temp : Half) :
    effectiveTemp cfg temp = if temp.toNat = 0x8000 then cfg.tcenter.toInt else temp.toInt := by
  have hmissing : temp = missingTemp ↔ temp.toNat = 0x8000 := BitVec.toNat_inj.symm
  simp only [effectiveTemp, hmissing]

/-- Settles O60: the writer's two outcomes, and `FC_APPLY` by its steps. -/
theorem correctionOfAnyRaw : Obligations.CorrectionOfAnyRaw := by
  unfold Obligations.CorrectionOfAnyRaw
  refine ⟨?corrects, fun k rst temp mv s => ?applies, exec_fcApply⟩
  case corrects =>
    intro k raw s sum q lsb c
    have hresid : (applyRaw raw s).resid.toInt = sum - 31 * lsb := (applyRaw_resid raw s).trans (ditherRemainder_eq sum)
    refine ⟨applyRaw raw s, ditherCode sum, rfl, hresid, ditherCode_toNat sum, ?_⟩
    obtain ⟨hcached, h⟩ | ⟨hnew, h⟩ := applyRaw_cases raw s <;> rw [h]
    · exact ⟨fun _ => rfl, fun hnew => absurd hcached hnew⟩
    · exact ⟨fun hcached => absurd hcached hnew, fun _ => rfl⟩
  case applies => rw [fcApply, rawNow, effectiveTemp_eq, resetResidual]

/-! ## Who writes the tuning register -/

/-- No command but `FC_APPLY` writes the tuning register, the residual and the cache (R39, R185). -/
theorem exec_tune_resid_lastW {i : Instr} {s t : State} (h : exec i s = .next t) :
    (t.tune = s.tune ∧ t.resid = s.resid ∧ t.lastW = s.lastW) ∨ ∃ rst temp mv, i = .fcApply rst temp mv := by
  have hk := commandWritesOnlyItsColumns i s t h
  cases i with
  | fcApply rst temp mv => exact .inr ⟨rst, temp, mv, rfl⟩
  | _ => exact .inl ⟨congrArg (·.tune) hk, congrArg (·.resid) hk, congrArg (·.lastW) hk⟩

/-- Settles O58, agent by agent. -/
theorem tuneWrittenOnlyByFcApply : Obligations.TuneWrittenOnlyByFcApply := by
  unfold Obligations.TuneWrittenOnlyByFcApply
  intro s t h hcold hother
  obtain ⟨-, rfl⟩ | ⟨-, -, rfl⟩ | ⟨hturn, -, h⟩ | ⟨first, -, rfl⟩ | ⟨hturn, -⟩ := step_cases h
  · rw [tick_frame, passTurn_frame]
    exact ⟨rfl, rfl, rfl⟩
  · rw [passTurn_frame]
    exact ⟨rfl, rfl, rfl⟩
  · obtain ⟨port, turns, draws, hu⟩ := passTurn_takeCommand_frame s
    obtain ⟨i, hdecode, hr⟩ | ⟨e, -, hr⟩ := runWord_cases s.passTurn.presented s.passTurn.takeCommand
    · obtain hkeeps | ⟨rst, temp, mv, rfl⟩ := exec_tune_resid_lastW (hr.symm.trans h)
      · rw [hu] at hkeeps
        exact hkeeps
      · exact absurd ⟨hturn, hdecode⟩ (hother rst temp mv)
    · cases hr.symm.trans h
      rw [hu]
      exact ⟨rfl, rfl, rfl⟩
  · obtain ⟨_, _, _, _, _, _, _, _, hs⟩ := serviceStep_frame first s.passTurn
    rw [hs, passTurn_frame]
    exact ⟨rfl, rfl, rfl⟩
  · exact absurd hturn hcold

/-! ## Negative zero -/

namespace Any.State.TuneInv

theorem of_eq {s t : Any.State k} (hi : s.TuneInv) (htune : t.tune = s.tune) (hlast : t.lastW = s.lastW) :
    t.TuneInv where
  tune := htune ▸ hi.tune
  cache := hlast ▸ hi.cache

theorem applyRaw {s : Any.State k} (hi : s.TuneInv) (raw : Int) : (applyRaw raw s).TuneInv := by
  obtain ⟨-, h⟩ | ⟨-, h⟩ := applyRaw_cases raw s <;> rw [h]
  · exact hi.of_eq rfl rfl
  · exact ⟨ditherCode_ne_negativeZero _, fun h => ditherCode_ne_negativeZero _ (Option.some.inj h)⟩

theorem fcApply {s : Any.State k} (hi : s.TuneInv) (rst : Bool) (temp mv : Half) : (fcApply rst temp mv s).TuneInv := by
  have hreset : (resetResidual rst s).TuneInv := by cases rst <;> exact hi.of_eq rfl rfl
  exact hreset.applyRaw _

end Any.State.TuneInv

/-- In a turn of the host whose command is `i`, the command waits or is executed (R215). -/
theorem step_of_commands {s t : State} {i : Instr} (hcmd : s.commands i) (h : step s = .next t) :
    t = s.passTurn ∨ exec i s.passTurn.takeCommand = .next t := by
  obtain ⟨hturn, hdecode⟩ := hcmd
  cases hacc : s.accepting with
  | true => exact .inr (by rw [← h, step_of_accepting hturn hacc, runWord_of_decode hdecode])
  | false =>
    rw [step, hturn, runTurn, hostTurn, passTurn_accepting, hacc] at h
    cases h
    exact .inl rfl

/-- Settles O15: reset makes both patterns anew, `FC_APPLY` writes no negative zero, and no other step writes them. -/
theorem stepKeepsTuneOffNegativeZero : Obligations.StepKeepsTuneOffNegativeZero := by
  unfold Obligations.StepKeepsTuneOffNegativeZero
  intro s t hi h
  by_cases hcold : s.nextTurn = .coldReset
  · rw [step, hcold] at h
    cases h
    exact (coldReset_tuneInv Config.taken).of_eq rfl rfl
  by_cases hother : ∀ rst temp mv, ¬ s.commands (.fcApply rst temp mv)
  · obtain ⟨htune, -, hlast⟩ := tuneWrittenOnlyByFcApply s t h hcold hother
    exact hi.of_eq htune hlast
  · push Not at hother
    obtain ⟨rst, temp, mv, hcmd⟩ := hother
    obtain rfl | hexec := step_of_commands hcmd h
    · rw [passTurn_frame]
      exact hi.of_eq rfl rfl
    · have hu : s.passTurn.takeCommand.TuneInv := by
        obtain ⟨port, turns, draws, hu⟩ := passTurn_takeCommand_frame s
        rw [hu]
        exact hi.of_eq rfl rfl
      cases hexec
      exact hu.fcApply rst temp mv

end Sys2Proof.Machine
end

