-- ==== Sys2Proof/Proofs/Evaluator.lean ====
section
/-! The default evaluator (spec/43_freqcorr.md R173 to R179): rounding a fraction of integers, and the integer form over
the common denominator; and `FC_APPLY` with it (R186). -/

namespace Sys2Proof.Machine

/-! ## Rounding half away from zero -/

theorem roundHaz_of_nonneg {q : ℚ} (h : 0 ≤ q) : roundHaz q = ⌊q + 1 / 2⌋ := if_pos h

/-- Rounding is symmetric about 0. -/
theorem roundHaz_neg (q : ℚ) : roundHaz (-q) = -roundHaz q := by
  obtain h | rfl | h := lt_trichotomy q 0
  · rw [roundHaz, roundHaz, if_pos (by linarith), if_neg (by linarith), neg_neg]
  · norm_num [roundHaz]
  · rw [roundHaz, roundHaz, if_neg (by linarith), if_pos h.le, neg_neg]

/-- What is not negative is rounded to within a half, a tie upwards. -/
theorem roundHaz_nearest_of_nonneg {q : ℚ} (h : 0 ≤ q) :
    |(roundHaz q : ℚ) - q| ≤ 1 / 2 ∧ (|(roundHaz q : ℚ) - q| = 1 / 2 → |q| < |(roundHaz q : ℚ)|) := by
  rw [roundHaz_of_nonneg h]
  have hle := Int.floor_le (q + 1 / 2)
  have hlt := Int.lt_floor_add_one (q + 1 / 2)
  refine ⟨abs_le.mpr ⟨by linarith, by linarith⟩, fun htie => ?_⟩
  obtain hup | hdown := eq_or_eq_neg_of_abs_eq htie
  · rw [abs_of_nonneg h]
    exact lt_abs.mpr (.inl (by linarith))
  · linarith

theorem roundHaz_nearest (q : ℚ) :
    |(roundHaz q : ℚ) - q| ≤ 1 / 2 ∧ (|(roundHaz q : ℚ) - q| = 1 / 2 → |q| < |(roundHaz q : ℚ)|) := by
  obtain h | h := le_total 0 q
  · exact roundHaz_nearest_of_nonneg h
  · have hneg := roundHaz_nearest_of_nonneg (neg_nonneg.mpr h)
    rwa [roundHaz_neg, Int.cast_neg, ← neg_sub', abs_neg, abs_neg, abs_neg] at hneg

theorem roundHazDiv_neg (n m : Int) : roundHazDiv (-n) m = -roundHazDiv n m := by
  rw [roundHazDiv, roundHazDiv, Int.sign_neg, Int.natAbs_neg, neg_mul]

/-- A fraction that is not negative, half of it added, over twice the denominator (R179). -/
theorem roundHazDiv_of_nonneg {n m : Int} (hn : 0 ≤ n) (hm : 0 < m) : roundHazDiv n m = (2 * n + m) / (2 * m) := by
  rw [roundHazDiv, Int.natAbs_of_nonneg hn]
  obtain rfl | hpos := hn.eq_or_lt
  · rw [Int.sign_zero, zero_mul, Int.ediv_eq_zero_of_lt] <;> omega
  · rw [Int.sign_eq_one_of_pos hpos, one_mul]

theorem roundHazDiv_eq_roundHaz_of_nonneg {n m : Int} (hn : 0 ≤ n) (hm : 0 < m) :
    roundHazDiv n m = roundHaz (n / m) := by
  have hfrac : (n / m + 1 / 2 : ℚ) = ((2 * n + m : Int) : ℚ) / ((2 * m).toNat : ℕ) := by
    have hm0 : (m : ℚ) ≠ 0 := by exact_mod_cast hm.ne'
    rw [← Int.cast_natCast, Int.toNat_of_nonneg (by omega)]
    push_cast
    field_simp
  rw [roundHazDiv_of_nonneg hn hm, roundHaz_of_nonneg (by positivity), hfrac, Rat.floor_intCast_div_natCast,
    Int.toNat_of_nonneg (by omega)]

/-- The rounded division of integers is rounding the fraction (R179). -/
theorem roundHazDiv_eq_roundHaz (n : Int) {m : Int} (hm : 0 < m) : roundHazDiv n m = roundHaz (n / m) := by
  obtain hn | hn := le_total 0 n
  · exact roundHazDiv_eq_roundHaz_of_nonneg hn hm
  · have h := roundHazDiv_eq_roundHaz_of_nonneg (neg_nonneg.mpr hn) hm
    rwa [roundHazDiv_neg, Int.cast_neg, neg_div, roundHaz_neg, neg_inj] at h

/-! ## The common denominator -/

/-- The five terms over the common denominator `10^13 × 31 536 000` (R179). -/
theorem totalPpm_eq (cfg : FcCfg) (tx : Int) (mv : Half) (wall : Word) :
    totalPpm cfg tx mv wall = ppmNumerator cfg tx mv wall / 315360000000000000000 := by
  simp only [totalPpm, ppmNumerator, dtDegrees, Config.secondsPerYear]
  push_cast
  ring

theorem fcRaw_eq_rawOfPpm (cfg : FcCfg) (tx : Int) (mv : Half) (wall : Word) :
    fcRaw cfg tx mv wall = rawOfPpm (totalPpm cfg tx mv wall) := by
  rw [fcRaw, roundHazDiv_eq_roundHaz _ (by decide), rawOfPpm, totalPpm_eq, ppmDenominator, Config.ditherD]
  congr 1
  push_cast
  ring

/-- Settles O46. -/
theorem evaluatorMatchesRationalFormula : Obligations.EvaluatorMatchesRationalFormula :=
  ⟨fcRaw_eq_rawOfPpm, roundHaz_nearest⟩

/-! ## `FC_APPLY` with the default evaluator -/

/-- The residual a correction starts from (R186 step 1). -/
theorem resetResidual_resid {k : Config} (rst : Bool) (s : Any.State k) :
    (resetResidual rst s).resid.toInt = if rst = true then 0 else s.resid.toInt := by
  cases rst <;> rfl

/-- Settles O49: O60 at the state step 1 leaves, with `raw` the rational formula's by O46. -/
theorem fcApplyResult : Obligations.FcApplyResult := by
  unfold Obligations.FcApplyResult
  intro rst temp mv s tx sum q lsb c
  obtain ⟨hcorrects, -, -⟩ := correctionOfAnyRaw
  have hsum : rawNow temp mv s + (resetResidual rst s).resid.toInt = sum := by
    rw [rawNow, effectiveTemp_eq, resetResidual_resid]
    show fcRaw s.cfg tx mv s.wall + _ = sum
    rw [fcRaw_eq_rawOfPpm]
  obtain ⟨t, v, ht, hresid, hv, hcached, hnew⟩ := hcorrects Config.taken (rawNow temp mv s) (resetResidual rst s)
  rw [hsum] at hresid hv
  refine ⟨by rw [BitVec.ofNat_toNat]; rfl, t, v, ?_, hresid, hv, ?_, ?_⟩
  · rw [exec_fcApply, fcApply, ht]
  · cases rst <;> exact hcached
  · cases rst <;> exact hnew

end Sys2Proof.Machine
end

