-- ==== Sys2Proof/Proofs/CorrectionCommands.lean ====
section
/-! The commands on the correction registers (spec/43_freqcorr.md R187 to R190). -/

namespace Sys2Proof.Machine

/-! ## Presets -/

/-- There are five presets (R187). -/
theorem preset_of_gt {p : Nat} (h : 4 < p) (cfg : FcCfg) : cfg.preset p = none := by
  match p, h with
  | _ + 5, _ => rfl

/-- Settles O50, row by row of the table. -/
theorem fcSetProfileResult : Obligations.FcSetProfileResult := by
  unfold Obligations.FcSetProfileResult
  refine fun p s => ⟨fun h => ?encoding, fun h => ?loads, fun h => ?ignored⟩
  case encoding => rw [← immIndex_eq h]; rfl
  case loads => interval_cases p <;> exact ⟨_, rfl, rfl, rfl, rfl, rfl, rfl, rfl, rfl⟩
  case ignored => rw [exec_fcSetProfile, fcSetProfile, preset_of_gt h, Option.getD_none]

/-! ## Single registers -/

/-- A field is encoded by its place in the record (R63, R89). -/
theorem toBits_eq_idxOf (field : CfgField) : field.toBits.setWidth 16 = BitVec.ofNat 16 (recordOrder.idxOf field) := by
  cases field <;> rfl

/-- A register narrower than the value keeps its low bits (R188). -/
theorem written_write (cfg : FcCfg) (field : CfgField) (value : Word) :
    cfg.written field value (cfg.write field value) := by
  cases field with
  | anchor => exact ⟨rfl, rfl⟩
  | profile | cadence | freq | tcenter | a2 | a3 | aging => exact ⟨rfl, BitVec.toNat_setWidth _ _⟩

/-- Extending by the register's type keeps its value (R189). -/
theorem answers_read (cfg : FcCfg) (field : CfgField) : cfg.answers field (cfg.read field) := by
  cases field with
  | anchor => rfl
  | cadence => exact BitVec.toNat_setWidth_of_le (by decide)
  | profile | freq | tcenter | a2 | a3 | aging => exact BitVec.toInt_signExtend_of_le (by decide)

/-- Settles O51. -/
theorem fcCfgWrResult : Obligations.FcCfgWrResult := by
  unfold Obligations.FcCfgWrResult
  intro field value s
  exact ⟨by rw [← toBits_eq_idxOf]; rfl, fcCfgWr field value s, exec_fcCfgWr field value s, rfl,
    written_write s.cfg field value⟩

/-- Settles O52. -/
theorem fcCfgRdResult : Obligations.FcCfgRdResult := by
  unfold Obligations.FcCfgRdResult
  intro field s
  exact ⟨by rw [← toBits_eq_idxOf]; rfl, s.cfg.read field, exec_fcCfgRd field s, answers_read s.cfg field⟩

/-! ## The advice -/

/-- When `FC_DUE` advises a run (R190). -/
theorem fcDueNow_iff (cfg : FcCfg) (wall : Word) :
    fcDueNow cfg wall = true ↔
      cfg.profile ≠ 0 ∧ cfg.cadence.toNat ∈ legalCadences ∧ cfg.cadence.toNat ∣ wall.toNat / 60 := by
  simp only [fcDueNow, Bool.and_eq_true, decide_eq_true_eq, Nat.dvd_iff_mod_eq_zero, and_assoc]

theorem mem_legalCadences (n : Nat) : n ∈ legalCadences ↔ n = 1 ∨ n = 5 ∨ n = 10 ∨ n = 20 ∨ n = 60 := by
  simp [legalCadences]

theorem bitWord_cases (b : Bool) : bitWord b = 0 ∨ bitWord b = 1 := by cases b <;> decide

theorem bitWord_eq_one_iff (b : Bool) : bitWord b = 1 ↔ b = true := by cases b <;> decide

/-- Settles O53. -/
theorem fcDueResult : Obligations.FcDueResult := by
  unfold Obligations.FcDueResult
  refine ⟨rfl, fun s => ⟨bitWord (fcDueNow s.cfg s.wall), exec_fcDue s, bitWord_cases _, ?_⟩⟩
  have hwall : s.wall.toNat = wallNat s.c s.t0 := wallTime_toNat s.c s.t0
  rw [bitWord_eq_one_iff, fcDueNow_iff, mem_legalCadences, hwall]

end Sys2Proof.Machine
end

