-- ==== Sys2Proof/Proofs/SequencerTurns.lean ====
section
/-! A turn of the sequencer as a step of the machine: the two entries (spec/60_exceptions.md R218, R221), the periodic scan
(R219) and the compare finish (R223), and `CB_RET` (R217). -/

namespace Sys2Proof.Machine

variable {k : Config}

/-! ## The slots of a snapshot -/

/-- The slots of a snapshot in the order a periodic pass invokes them (R219). -/
def snapshotSlots (m : Byte) : List (Fin 8) :=
  ([7, 6, 5, 4, 3, 2, 1, 0] : List (Fin 8)).filter (fun n => m.getLsbD n.val)

theorem highestSlot_eq_head? (m : Byte) : highestSlot m = (snapshotSlots m).head? := List.head?_filter.symm

theorem mem_snapshotSlots {m : Byte} {n : Fin 8} : n ∈ snapshotSlots m ↔ m.getLsbD n.val = true := by
  have hall : n ∈ ([7, 6, 5, 4, 3, 2, 1, 0] : List (Fin 8)) := by
    revert n
    decide
  rw [snapshotSlots, List.mem_filter, and_iff_right hall]

theorem snapshotSlots_descending (m : Byte) : (snapshotSlots m).Pairwise (· > ·) :=
  List.Pairwise.filter _ (by decide)

/-- The head of the list is the highest slot of the snapshot. -/
theorem highestSlot_eq_some_iff {m : Byte} {n : Fin 8} :
    highestSlot m = some n ↔ m.getLsbD n.val = true ∧ ∀ j : Fin 8, n < j → m.getLsbD j.val = false := by
  have hdesc := snapshotSlots_descending m
  simp only [highestSlot_eq_head?, ← Bool.not_eq_true, ← mem_snapshotSlots]
  generalize snapshotSlots m = l at hdesc
  cases l with
  | nil => simp
  | cons a rest =>
    have hbelow : ∀ j ∈ rest, j < a := (List.pairwise_cons.mp hdesc).1
    rw [List.head?_cons, Option.some_inj]
    constructor
    · rintro rfl
      refine ⟨List.mem_cons_self, fun j hj hmem => ?_⟩
      obtain rfl | hmem := List.mem_cons.mp hmem
      · exact lt_irrefl _ hj
      · exact lt_asymm hj (hbelow j hmem)
    · rintro ⟨hmem, habove⟩
      obtain rfl | hmem := List.mem_cons.mp hmem
      · rfl
      · exact absurd List.mem_cons_self (habove a (hbelow n hmem))

/-- Invoking the highest slot leaves the others, in their order (R219). -/
theorem snapshotSlots_tail {m : Byte} {n : Fin 8} {rest : List (Fin 8)} (h : snapshotSlots m = n :: rest) :
    snapshotSlots (m &&& ~~~ perBit n) = rest := by
  have hbelow : ∀ j ∈ rest, j < n := (List.pairwise_cons.mp (h ▸ snapshotSlots_descending m)).1
  have hothers : snapshotSlots (m &&& ~~~ perBit n) = (snapshotSlots m).filter (fun j => !(j == n)) := by
    simp only [snapshotSlots, and_not_getLsbD, perBit_getLsbD, List.filter_filter, Bool.and_comm]
  rw [hothers, h, List.filter_cons_of_neg (by simp)]
  exact List.filter_eq_self.mpr fun j hj => by simp [(hbelow j hj).ne]

/-! ## The enabled step -/

/-- A periodic request that is alone, or preferred, is entered (R218, R225). -/
theorem serviceEntry_of_perRequest {s : Any.State k} {first : Service} (hper : s.perFlag &&& s.perEn ≠ 0)
    (horder : s.cmpFlag = false ∨ first = .periodic) : serviceEntry first s = periodicEntry s := by
  have hreq : s.perRequest = true := bne_iff_ne.mpr hper
  obtain ⟨-, -, h⟩ | ⟨hcmp, hother, -⟩ | ⟨hnone, -⟩ := serviceEntry_cases first s
  · exact h
  · obtain hflag | rfl := horder
    · exact absurd (hcmp.symm.trans hflag) nofun
    · simp [hreq] at hother
  · exact absurd (hreq.symm.trans hnone) nofun

/-- A compare request that is alone, or preferred, is entered (R221, R225). -/
theorem serviceEntry_of_cmpRequest {s : Any.State k} {first : Service} (hcmp : s.cmpFlag = true)
    (horder : s.perFlag &&& s.perEn = 0 ∨ first = .compare) : serviceEntry first s = compareEntry s := by
  obtain ⟨hper, hother, -⟩ | ⟨-, -, h⟩ | ⟨-, hnone, -⟩ := serviceEntry_cases first s
  · obtain hnone | rfl := horder
    · exact absurd hnone (bne_iff_ne.mp hper)
    · simp [Any.State.cmpRequest, hcmp] at hother
  · exact h
  · exact absurd (hcmp.symm.trans hnone) nofun

/-- Without a request there is no entry (R218, R221). -/
theorem serviceEntry_of_no_request {s : Any.State k} (hper : s.perFlag &&& s.perEn = 0) (hcmp : s.cmpFlag = false)
    (first : Service) : serviceEntry first s = s := by
  obtain ⟨hreq, -⟩ | ⟨hreq, -⟩ | ⟨-, -, h⟩ := serviceEntry_cases first s
  · exact absurd hper (bne_iff_ne.mp hreq)
  · exact absurd (hreq.symm.trans hcmp) nofun
  · exact h

theorem serviceStep_of_per {s : Any.State k} (hmode : s.seq.mode = .per) (hcb : s.seq.inCb = false) (first : Service) :
    serviceStep first s = periodicScan s := by
  rw [serviceStep, hmode, hcb]

/-- In an open window the sequencer waits (R216). -/
theorem serviceStep_of_window {s : Any.State k} (hmode : s.seq.mode ≠ .idle) (hcb : s.seq.inCb = true)
    (first : Service) : serviceStep first s = s := by
  obtain ⟨hidle, -⟩ | ⟨-, hclosed, -⟩ | ⟨-, hclosed, -⟩ | ⟨-, -, h⟩ := serviceStep_cases first s
  · exact absurd hidle hmode
  · exact absurd (hcb.symm.trans hclosed) nofun
  · exact absurd (hcb.symm.trans hclosed) nofun
  · exact h

theorem periodicScan_of_some {s : Any.State k} {n : Fin 8} (h : highestSlot s.seq.psnap = some n) :
    periodicScan s = invokePeriodic n s := by
  rw [periodicScan, h]

theorem periodicScan_of_none {s : Any.State k} (h : highestSlot s.seq.psnap = none) : periodicScan s = closePass s := by
  rw [periodicScan, h]

theorem compareStep_of_finish {s : Any.State k} (hcur : s.seq.cursor = k.nComp) :
    compareStep s = compareFinish s := by
  rw [compareStep, dif_neg (by omega), if_pos hcur]

/-- The finish is the arbiter's work and the end of the pass (R223). -/
theorem compareFinish_eq (s : Any.State k) :
    compareFinish s = { scheduleNext s with seq := { s.seq with mode := .idle } } := by
  have hseq : (scheduleNext s).seq = s.seq := congrArg (·.seq) (scheduleNext_frame s)
  rw [← hseq]
  rfl

/-- Whether a window is open or not, none is after `CB_RET` (R217). -/
theorem cbRet_eq_closeWindow (s : Any.State k) : cbRet s = closeWindow s := by
  cases hcb : s.seq.inCb with
  | true => rw [cbRet, if_pos hcb]
  | false => rw [cbRet_of_inCb_eq_false hcb, closeWindow, ← hcb]

/-! ## The results -/

/-- Settles O36. -/
theorem periodicEntryResult : Obligations.PeriodicEntryResult := by
  unfold Obligations.PeriodicEntryResult
  intro s ts first hturns hmode hper horder
  rw [step_of_service_scripted hturns, serviceStep_of_idle (s := { s with turns := ts }) hmode,
    serviceEntry_of_perRequest (s := { s with turns := ts }) hper horder]
  rfl

/-- Settles O37. -/
theorem periodicScanResult : Obligations.PeriodicScanResult := by
  unfold Obligations.PeriodicScanResult
  intro s ts first hturns hmode hcb
  rw [step_of_service_scripted hturns, serviceStep_of_per (s := { s with turns := ts }) hmode hcb]
  refine ⟨fun hempty => ?ends, fun n hbit habove => ?invokes⟩
  case ends =>
    have hnone : highestSlot s.seq.psnap = none := by rw [hempty]; decide
    rw [periodicScan_of_none (s := { s with turns := ts }) hnone]
    rfl
  case invokes =>
    have hsome : highestSlot s.seq.psnap = some n := highestSlot_eq_some_iff.mpr ⟨hbit, habove⟩
    rw [periodicScan_of_some (s := { s with turns := ts }) hsome]
    exact ⟨s.seq.psnap &&& ~~~ perBit n, fun m => by rw [and_not_getLsbD, perBit_getLsbD], rfl⟩

/-- Settles O38. -/
theorem compareEntryResult : Obligations.CompareEntryResult := by
  unfold Obligations.CompareEntryResult
  intro s ts first hturns hmode hcmp horder
  rw [step_of_service_scripted hturns, serviceStep_of_idle (s := { s with turns := ts }) hmode,
    serviceEntry_of_cmpRequest (s := { s with turns := ts }) hcmp horder]
  rfl

/-- Settles O40. -/
theorem compareFinishResult : Obligations.CompareFinishResult := by
  unfold Obligations.CompareFinishResult
  intro s ts first hturns hmode hcb hcur
  refine ⟨scheduleNext { s with turns := ts }, scheduledFrom_scheduleNext _, ?_⟩
  rw [step_of_service_scripted hturns, serviceStep_of_cmp (s := { s with turns := ts }) hmode hcb,
    compareStep_of_finish (s := { s with turns := ts }) hcur, compareFinish_eq]

/-- Settles O41. -/
theorem cbRetResult : Obligations.CbRetResult := by
  unfold Obligations.CbRetResult
  refine ⟨rfl, fun s => ⟨fun _ => ?closes, fun hcb => ?ignored⟩⟩
  case closes => rw [exec_cbRet, cbRet_eq_closeWindow, closeWindow]
  case ignored => rw [exec_cbRet, cbRet_of_inCb_eq_false hcb]

end Sys2Proof.Machine
end

