-- ==== Sys2Proof/Proofs/CommandTurns.lean ====
section
/-! A turn of the host against the open pass (spec/60_exceptions.md R215, R217): who is accepted, who waits, and what each
step does to the sequencer. -/

namespace Sys2Proof.Machine

variable {k : Config}

/-! ## Accepting and waiting -/

/-- Commands are accepted in the foreground and in a window (R215). -/
theorem accepting_iff {s : Any.State k} : s.accepting = true ↔ s.seq.mode = .idle ∨ s.seq.inCb = true := by
  rw [Any.State.accepting, Bool.or_eq_true, beq_iff_eq]

theorem accepting_eq_false_iff {s : Any.State k} :
    s.accepting = false ↔ s.seq.mode ≠ .idle ∧ s.seq.inCb = false := by
  rw [← Bool.not_eq_true, accepting_iff, not_or, Bool.not_eq_true]

/-- In a turn of the host between scan steps the presented word waits on the port (R215). -/
theorem step_of_waiting {s : State} (hturn : s.nextTurn = .command) (hacc : s.accepting = false) :
    step s = .next s.passTurn := by
  rw [step, hturn, runTurn, hostTurn, passTurn_accepting, hacc, if_neg Bool.false_ne_true]

/-- Settles O7. -/
theorem commandsWaitBetweenScans : Obligations.CommandsWaitBetweenScans := by
  unfold Obligations.CommandsWaitBetweenScans
  refine ⟨fun s ts w ws i hturns hport hdecode => ⟨fun hopen => ?executes, fun hmode hcb => ?waits⟩,
    fun s hcb => ?ignored⟩
  case executes =>
    rw [step_of_accepting_scripted hturns hport (accepting_iff.mpr hopen), runWord_of_decode hdecode]
  case waits =>
    have hturn : s.nextTurn = .command := by simp [Any.State.nextTurn, hturns]
    have hpass : s.passTurn = { s with turns := ts } := by simp [Any.State.passTurn, hturns]
    rw [step_of_waiting hturn (accepting_eq_false_iff.mpr ⟨hmode, hcb⟩), hpass]
  case ignored => rw [exec_cbRet, cbRet_of_inCb_eq_false hcb]

/-! ## Every turn completes -/

theorem runWord_completes (w : CmdWord) (s : State) : ∃ t, runWord w s = .next t := by
  obtain ⟨i, -, h⟩ | ⟨e, -, h⟩ := runWord_cases w s <;> rw [h]
  · exact exec_completes i s
  · exact ⟨s, rfl⟩

/-- Settles O8, agent by agent: only the host's turn runs a command, and every command completes. -/
theorem everyStepAnswersNext : Obligations.EveryStepAnswersNext := by
  unfold Obligations.EveryStepAnswersNext
  intro s
  rw [step]
  cases s.nextTurn with
  | tick => exact ⟨_, rfl⟩
  | service first => exact ⟨_, rfl⟩
  | coldReset => exact ⟨_, rfl⟩
  | command =>
    rw [runTurn, hostTurn]
    split
    · exact runWord_completes _ _
    · exact ⟨_, rfl⟩

/-! ## Who writes the sequencer -/

@[simp] theorem passTurn_seq (s : Any.State k) : s.passTurn.seq = s.seq := congrArg (·.seq) (passTurn_frame s)

@[simp] theorem takeCommand_seq (s : Any.State k) : s.takeCommand.seq = s.seq := congrArg (·.seq) (takeCommand_frame s)

@[simp] theorem tick_seq (s : Any.State k) : (tick s).seq = s.seq := congrArg (·.seq) (tick_frame s)

/-- `CB_RET` is the one command that writes the sequencer (R39). -/
theorem exec_seq_of_ne_cbRet {i : Instr} {s t : State} (hi : i ≠ .cbRet) (h : exec i s = .next t) : t.seq = s.seq := by
  have hk := commandWritesOnlyItsColumns i s t h
  cases i with
  | cbRet => exact absurd rfl hi
  | _ => exact congrArg (·.seq) hk

/-- What a step does to the sequencer: nothing, or it closes the window for `CB_RET`, or it is the sequencer's own turn or
a cold reset. A `CB_RET` that waits finds no window to close, so the second case holds of it too. -/
theorem step_seq_cases {s t : State} (h : step s = .next t) :
    (¬ s.commands .cbRet ∧ t.seq = s.seq) ∨
      (s.commands .cbRet ∧ t.seq = { s.seq with inCb := false }) ∨
      (∃ first, s.nextTurn = .service first ∧ t = serviceStep first s.passTurn) ∨
      (s.nextTurn = .coldReset ∧ t = coldResetStep s.passTurn) := by
  obtain ⟨hturn, rfl⟩ | ⟨hturn, hacc, rfl⟩ | ⟨hturn, -, h⟩ | hservice | hcold := step_cases h
  · exact .inl ⟨fun hcmd => absurd (hturn.symm.trans hcmd.1) nofun, by rw [tick_seq, passTurn_seq]⟩
  · have hclosed : s.seq.inCb = false := by simpa using (accepting_eq_false_iff.mp hacc).2
    by_cases hcmd : s.commands .cbRet
    · exact .inr (.inl ⟨hcmd, by rw [passTurn_seq, ← hclosed]⟩)
    · exact .inl ⟨hcmd, passTurn_seq s⟩
  · have hseq : s.passTurn.takeCommand.seq = s.seq := by rw [takeCommand_seq, passTurn_seq]
    obtain ⟨i, hdecode, hr⟩ | ⟨e, herror, hr⟩ := runWord_cases s.passTurn.presented s.passTurn.takeCommand
    · by_cases hi : i = .cbRet
      · subst hi
        cases (exec_cbRet _).symm.trans (hr.symm.trans h)
        exact .inr (.inl ⟨⟨hturn, hdecode⟩, by rw [cbRet_eq_closeWindow, closeWindow, hseq]⟩)
      · refine .inl ⟨fun hcmd => ?_, (exec_seq_of_ne_cbRet hi (hr.symm.trans h)).trans hseq⟩
        exact hi (Except.ok.inj (hdecode.symm.trans hcmd.2))
    · cases hr.symm.trans h
      exact .inl ⟨fun hcmd => absurd (herror.symm.trans hcmd.2) nofun, hseq⟩
  · exact .inr (.inr (.inl hservice))
  · exact .inr (.inr (.inr hcold))

/-- Settles O9. -/
theorem windowClosesOnlyByReturn : Obligations.WindowClosesOnlyByReturn := by
  unfold Obligations.WindowClosesOnlyByReturn
  refine ⟨fun s t hcb hmode hcold h => ?window, fun s ts first hturns hrest => ?rests⟩
  case window =>
    obtain hother | hreturn | ⟨first, hturn, rfl⟩ | ⟨hturn, -⟩ := step_seq_cases h
    · exact .inr hother
    · exact .inl hreturn
    · have hwaits : serviceStep first s.passTurn = s.passTurn :=
        serviceStep_of_window (by rwa [passTurn_seq]) (by rwa [passTurn_seq]) first
      exact .inr ⟨fun hcmd => absurd (hturn.symm.trans hcmd.1) nofun, by rw [hwaits, passTurn_seq]⟩
    · exact absurd hturn hcold
  case rests =>
    rw [step_of_service_scripted hturns]
    obtain ⟨hcb, hmode⟩ | ⟨hmode, hper, hcmp⟩ := hrest
    · rw [serviceStep_of_window (s := { s with turns := ts }) hmode hcb]
    · rw [serviceStep_of_idle (s := { s with turns := ts }) hmode,
        serviceEntry_of_no_request (s := { s with turns := ts }) hper hcmp]

end Sys2Proof.Machine
end

