-- ==== Sys2Proof/Proofs/SequencerInvariants.lean ====
section
/-! Every step keeps the cursor and the snapshot in the range of the open pass (spec/60_exceptions.md R218 to R223). -/

namespace Sys2Proof.Machine

variable {k : Config}

namespace Any.State.SeqInv

variable {s t : Any.State k}

/-- The invariant reads nothing but the sequencer. -/
theorem of_seq_eq (hi : s.SeqInv) (h : t.seq = s.seq) : t.SeqInv where
  comparing := h ▸ hi.comparing
  windowPassed := h ▸ hi.windowPassed
  periodic := h ▸ hi.periodic
  noBitAbove := h ▸ hi.noBitAbove
  noBitAtWindow := h ▸ hi.noBitAtWindow

/-- Outside a pass nothing is asked of cursor and snapshot. -/
theorem of_idle (h : s.seq.mode = .idle) : s.SeqInv where
  comparing hm := absurd (h.symm.trans hm) nofun
  windowPassed hm := absurd (h.symm.trans hm) nofun
  periodic hm := absurd (h.symm.trans hm) nofun
  noBitAbove hm := absurd (h.symm.trans hm) nofun
  noBitAtWindow hm := absurd (h.symm.trans hm) nofun

/-- A closed window asks less. -/
theorem closeWindow (hi : s.SeqInv) : (closeWindow s).SeqInv where
  comparing := hi.comparing
  windowPassed _ := nofun
  periodic := hi.periodic
  noBitAbove := hi.noBitAbove
  noBitAtWindow _ := nofun

/-- A compare pass scans upwards within the table, and its cursor has passed a slot it scanned (R222). -/
theorem of_scanned (hmode : t.seq.mode = .cmp) {i : Fin k.nComp} (hcur : t.seq.cursor = i.val + 1) : t.SeqInv where
  comparing _ := hcur.trans_le i.isLt
  windowPassed _ _ := hcur ▸ i.val.succ_pos
  periodic hm := absurd (hmode.symm.trans hm) nofun
  noBitAbove hm := absurd (hmode.symm.trans hm) nofun
  noBitAtWindow hm := absurd (hmode.symm.trans hm) nofun

/-- The entry starts at the top slot, and a byte has no bit above it (R218). -/
theorem periodicEntry (s : Any.State k) : (periodicEntry s).SeqInv where
  comparing := nofun
  windowPassed := nofun
  periodic _ := le_rfl
  noBitAbove _ _ hn := BitVec.getLsbD_of_ge _ _ hn
  noBitAtWindow _ := nofun

theorem compareEntry (s : Any.State k) : (compareEntry s).SeqInv where
  comparing _ := Nat.zero_le _
  windowPassed _ := nofun
  periodic := nofun
  noBitAbove := nofun
  noBitAtWindow := nofun

/-- The slot invoked was the highest of the snapshot and leaves it (R219). -/
theorem invokePeriodic {n : Fin 8} (hmode : s.seq.mode = .per) (htop : highestSlot s.seq.psnap = some n) :
    (invokePeriodic n s).SeqInv where
  comparing hm := absurd (hmode.symm.trans hm) nofun
  windowPassed hm := absurd (hmode.symm.trans hm) nofun
  periodic _ := Nat.le_of_lt_succ n.isLt
  noBitAbove _ m hm := by
    obtain hlt | hge := Nat.lt_or_ge m 8
    · have hold : s.seq.psnap.getLsbD m = false := (highestSlot_eq_some_iff.mp htop).2 ⟨m, hlt⟩ hm
      exact (and_not_getLsbD _ _ ⟨m, hlt⟩).trans (by rw [hold, Bool.false_and])
    · exact BitVec.getLsbD_of_ge _ _ hge
  noBitAtWindow _ _ :=
    (and_not_getLsbD _ _ n).trans (by rw [perBit_getLsbD, beq_self_eq_true, Bool.not_true, Bool.and_false])

theorem serviceStep (hi : s.SeqInv) (first : Service) : (serviceStep first s).SeqInv := by
  obtain ⟨-, h⟩ | ⟨hmode, -, h⟩ | ⟨hmode, -, h⟩ | ⟨-, -, h⟩ := serviceStep_cases first s <;> rw [h]
  · obtain ⟨-, -, h⟩ | ⟨-, -, h⟩ | ⟨-, -, h⟩ := serviceEntry_cases first s <;> rw [h]
    · exact periodicEntry s
    · exact compareEntry s
    · exact hi
  · obtain ⟨-, h⟩ | ⟨n, htop, h⟩ := periodicScan_cases s <;> rw [h]
    · exact of_idle rfl
    · exact invokePeriodic hmode htop
  · obtain ⟨i, -, ⟨-, h⟩ | ⟨-, h⟩⟩ | ⟨-, h⟩ | ⟨-, h⟩ := compareStep_cases s <;> rw [h]
    · exact of_scanned (i := i) hmode rfl
    · exact of_scanned (i := i) hmode rfl
    · exact of_idle rfl
    · exact hi
  · exact hi

end Any.State.SeqInv

/-- Settles O14: of the other agents only `CB_RET`, which closes a window, and the cold reset write the sequencer. -/
theorem stepKeepsSequencerInvariants : Obligations.StepKeepsSequencerInvariants := by
  unfold Obligations.StepKeepsSequencerInvariants
  intro s t hi h
  obtain ⟨-, hseq⟩ | ⟨-, hseq⟩ | ⟨first, -, rfl⟩ | ⟨-, rfl⟩ := step_seq_cases h
  · exact hi.of_seq_eq hseq
  · exact hi.closeWindow.of_seq_eq hseq
  · exact (hi.of_seq_eq (passTurn_seq s)).serviceStep first
  · exact .of_idle rfl

end Sys2Proof.Machine
end

