-- ==== Sys2Proof/Proofs/StepEvents.lean ====
section
/-! The events of a step (spec/60_exceptions.md R211): at most one, each kind from its own agent, and what a fired compare
slot was (R222, R229). -/

namespace Sys2Proof.Machine

variable {k : Config}

@[simp] theorem passTurn_trace (s : Any.State k) : s.passTurn.trace = s.trace := congrArg (·.trace) (passTurn_frame s)

@[simp] theorem takeCommand_trace (s : Any.State k) : s.takeCommand.trace = s.trace :=
  congrArg (·.trace) (takeCommand_frame s)

@[simp] theorem passTurn_slots (s : Any.State k) : s.passTurn.slots = s.slots := congrArg (·.slots) (passTurn_frame s)

/-! ## The event of each agent -/

/-- A correction that is not elided announces its write (R184). -/
theorem fcApply_trace (rst : Bool) (temp mv : Half) (s : Any.State k) :
    (fcApply rst temp mv s).trace = s.trace ∨ ∃ v, (fcApply rst temp mv s).trace = s.trace ++ [.tuneWr v] := by
  have hreset : (resetResidual rst s).trace = s.trace := by cases rst <;> rfl
  unfold fcApply
  obtain ⟨-, h⟩ | ⟨-, h⟩ := applyRaw_cases (rawNow temp mv s) (resetResidual rst s) <;> rw [h]
  · exact .inl hreset
  · exact .inr ⟨_, congrArg (· ++ [_]) hreset⟩

/-- `FC_APPLY` is the one command that writes the trace (R39). -/
theorem exec_trace {i : Instr} {s t : State} (h : exec i s = .next t) :
    t.trace = s.trace ∨ ∃ v rst temp mv, i = .fcApply rst temp mv ∧ t.trace = s.trace ++ [.tuneWr v] := by
  have hk := commandWritesOnlyItsColumns i s t h
  cases i with
  | fcApply rst temp mv =>
    cases h
    obtain h | ⟨v, h⟩ := fcApply_trace rst temp mv s
    · exact .inl h
    · exact .inr ⟨v, rst, temp, mv, rfl, h⟩
  | _ => exact .inl (congrArg (·.trace) hk)

/-- The sequencer's turn emits nothing, invokes a periodic slot, or fires a compare slot that is due (R219, R222). -/
theorem serviceStep_events (first : Service) (s : Any.State k) :
    (serviceStep first s).trace = s.trace ∨
      (∃ n, serviceStep first s = invokePeriodic n s) ∨
      ∃ i : Fin k.nComp, s.slots[i].due k s.seq.clatch = true ∧ serviceStep first s = fireSlot i (passSlot i s) := by
  obtain ⟨-, h⟩ | ⟨-, -, h⟩ | ⟨-, -, h⟩ | ⟨-, -, h⟩ := serviceStep_cases first s <;> rw [h]
  · obtain ⟨-, -, h⟩ | ⟨-, -, h⟩ | ⟨-, -, h⟩ := serviceEntry_cases first s <;> rw [h] <;> exact .inl rfl
  · obtain ⟨-, h⟩ | ⟨n, -, h⟩ := periodicScan_cases s <;> rw [h]
    · exact .inl rfl
    · exact .inr (.inl ⟨n, rfl⟩)
  · obtain ⟨i, -, ⟨hdue, h⟩ | ⟨-, h⟩⟩ | ⟨-, h⟩ | ⟨-, h⟩ := compareStep_cases s <;> rw [h]
    · exact .inr (.inr ⟨i, hdue, rfl⟩)
    · exact .inl rfl
    · exact .inl (congrArg (·.trace) (scheduleNext_frame s))
    · exact .inl rfl
  · exact .inl rfl

/-! ## The step -/

/-- Settles O43, agent by agent. -/
theorem stepEmitsAtMostOneEvent : Obligations.StepEmitsAtMostOneEvent := by
  unfold Obligations.StepEmitsAtMostOneEvent
  intro s t h hcold
  obtain ⟨hturn, rfl⟩ | ⟨-, -, rfl⟩ | ⟨hturn, -, h⟩ | ⟨first, hturn, rfl⟩ | ⟨hturn, -⟩ := step_cases h
  · obtain ⟨-, -, htrace⟩ | ⟨-, -, htrace⟩ := tick_overflow_cases s.passTurn <;> rw [htrace, passTurn_trace]
    · exact .inr (.inl ⟨rfl, hturn⟩)
    · exact .inl rfl
  · exact .inl (passTurn_trace s)
  · have hword : s.passTurn.takeCommand.trace = s.trace := by rw [takeCommand_trace, passTurn_trace]
    obtain ⟨i, hdecode, hr⟩ | ⟨e, -, hr⟩ := runWord_cases s.passTurn.presented s.passTurn.takeCommand
    · obtain htrace | ⟨v, rst, temp, mv, rfl, htrace⟩ := exec_trace (hr.symm.trans h) <;> rw [hword] at htrace
      · exact .inl htrace
      · exact .inr (.inr (.inr (.inr ⟨v, rst, temp, mv, htrace, hturn, hdecode⟩)))
    · cases hr.symm.trans h
      exact .inl hword
  · obtain htrace | ⟨n, h⟩ | ⟨i, -, h⟩ := serviceStep_events first s.passTurn
    · exact .inl (htrace.trans (passTurn_trace s))
    · rw [h]
      exact .inr (.inr (.inl ⟨n, _, congrArg (· ++ [_]) (passTurn_trace s), ⟨first, hturn⟩, rfl⟩))
    · rw [h]
      exact .inr (.inr (.inr (.inl ⟨i, _, congrArg (· ++ [_]) (passTurn_trace s), ⟨first, hturn⟩, rfl⟩)))
  · exact absurd hturn hcold

/-- A step that emits a compare event is the sequencer's, and fires that slot, which is due (R222). -/
theorem step_of_cmpCb {s t : State} {n : Nat} {token : BitVec Config.taken.cbWidth} (h : step s = .next t)
    (htrace : t.trace = s.trace ++ [.cmpCb n token]) :
    ∃ i : Fin Config.taken.nComp, i.val = n ∧ s.slots[i].callback = token ∧
      s.slots[i].due Config.taken s.seq.clatch = true ∧ t = fireSlot i (passSlot i s.passTurn) := by
  have hcold : s.nextTurn ≠ .coldReset := by
    intro hturn
    rw [step, hturn, runTurn] at h
    cases h
    exact absurd htrace.symm (List.append_ne_nil_of_right_ne_nil _ (List.cons_ne_nil _ _))
  -- no other event is a compare event
  obtain ⟨⟨first, hturn⟩, -⟩ : (∃ first, s.nextTurn = .service first) ∧ t.seq.inCb = true := by
    simpa [htrace] using stepEmitsAtMostOneEvent s t h hcold
  rw [step, hturn, runTurn] at h
  cases h
  obtain h | ⟨m, h⟩ | ⟨i, hdue, h⟩ := serviceStep_events first s.passTurn
  · simp [htrace] at h
  · simp [h, invokePeriodic, invoke] at htrace
  · have hevent : s.trace ++ [.cmpCb i.val s.slots[i].callback] = s.trace ++ [.cmpCb n token] := by
      rw [← htrace, h, ← passTurn_slots, ← passTurn_trace]
      rfl
    rw [List.append_cancel_left_eq, List.singleton_inj, Event.cmpCb.injEq] at hevent
    rw [passTurn_slots, passTurn_seq] at hdue
    exact ⟨i, hevent.1, hevent.2, hdue, h⟩

/-- Settles O42. -/
theorem firedSlotWasEnabledAndDue : Obligations.FiredSlotWasEnabledAndDue := by
  unfold Obligations.FiredSlotWasEnabledAndDue
  intro s t n token h htrace
  obtain ⟨i, hi, htoken, hdue, rfl⟩ := step_of_cmpCb h htrace
  have hslot (j : Fin Config.taken.nComp) := clearSlot_getElem i j (passSlot i s.passTurn)
  refine ⟨i, hi, (due_eq_dueAt s _ i).symm.trans hdue, htoken.symm, ?disabled, fun j hj => ?others, rfl⟩
  case disabled => exact congrArg (·.enabled) ((hslot i).trans (if_pos rfl))
  case others => exact ((hslot j).trans (if_neg hj)).trans (by rw [passSlot_slots, passTurn_slots])

end Sys2Proof.Machine
end

