-- ==== Sys2Proof/Proofs/PeriodicPass.lean ====
section
/-! A whole periodic pass whose callbacks issue no command, with ticks between its steps (spec/60_exceptions.md R219,
R220). The pass goes along with the same ticks taken alone: the two states differ in the sequencer, which no tick reads,
and in the callbacks among the events. -/

namespace Sys2Proof.Machine

variable {k : Config}

/-! ## A state beside the same ticks taken alone -/

/-- `t` is `u` but for the sequencer and the trace: after `base` the trace of `u` has wraps only, and that of `t` has the
same wraps with the events `callbacks` among them. -/
def Any.State.GoesAlong (t u : Any.State k) (base callbacks : List (Event k.cbWidth)) : Prop :=
  t = { u with trace := t.trace, seq := t.seq } ∧
    ∃ l, t.trace = base ++ l ∧ l.filter (· ≠ .ovf) = callbacks ∧ u.trace = base ++ l.filter (· = .ovf)

/-- A tick neither reads nor writes the sequencer, and adds the same events to whatever trace. -/
theorem tick_besides (u : Any.State k) (trace : List (Event k.cbWidth)) (seq : Seq) :
    ∃ m, (tick u).trace = u.trace ++ List.replicate m .ovf ∧
      tick { u with trace := trace, seq := seq } =
        { tick u with trace := trace ++ List.replicate m .ovf, seq := seq } := by
  unfold tick
  by_cases h : (countUp u).c = 0
  · have hbeside : detectOverflow (countUp { u with trace := trace, seq := seq }) = _ := if_pos h
    rw [detectOverflow, if_pos h, hbeside]
    exact ⟨1, rfl, rfl⟩
  · have hbeside : detectOverflow (countUp { u with trace := trace, seq := seq }) = _ := if_neg h
    rw [detectOverflow, if_neg h, hbeside]
    exact ⟨0, (List.append_nil _).symm, by simp; rfl⟩

theorem tickN_add (m n : Nat) (s : Any.State k) : tickN (m + n) s = tickN n (tickN m s) := by
  induction m generalizing s with
  | zero => rw [Nat.zero_add, tickN]
  | succ m ih => rw [Nat.succ_add, tickN, tickN, ih]

namespace Any.State.GoesAlong

variable {t u : Any.State k} {base callbacks : List (Event k.cbWidth)}

theorem tick (h : t.GoesAlong u base callbacks) : (tick t).GoesAlong (tick u) base callbacks := by
  obtain ⟨hrest, l, htrace, hcallbacks, hwraps⟩ := h
  obtain ⟨m, hu, ht⟩ := tick_besides u t.trace t.seq
  rw [← hrest] at ht
  have httrace : (Machine.tick t).trace = t.trace ++ List.replicate m .ovf := congrArg (·.trace) ht
  refine ⟨by rw [httrace, tick_seq]; exact ht, l ++ List.replicate m .ovf, ?_, ?_, ?_⟩
  · rw [httrace, htrace, List.append_assoc]
  · simp [← hcallbacks, List.filter_append]
  · simp [hu, hwraps, List.filter_append]

theorem tickN (n : Nat) (h : t.GoesAlong u base callbacks) : (tickN n t).GoesAlong (tickN n u) base callbacks := by
  induction n generalizing t u with
  | zero => exact h
  | succ n ih => exact ih h.tick

theorem withSeq (h : t.GoesAlong u base callbacks) (seq : Seq) :
    ({ t with seq := seq } : Any.State k).GoesAlong u base callbacks := by
  obtain ⟨hrest, hevents⟩ := h
  exact ⟨by rw [hrest], hevents⟩

theorem emit (h : t.GoesAlong u base callbacks) {e : Event k.cbWidth} (he : e ≠ .ovf) :
    (emit e t).GoesAlong u base (callbacks ++ [e]) := by
  obtain ⟨hrest, l, htrace, hcallbacks, hwraps⟩ := h
  refine ⟨by rw [hrest]; rfl, l ++ [e], ?_, ?_, ?_⟩
  · rw [emit_trace, htrace, List.append_assoc]
  · simp [← hcallbacks, he]
  · simp [hwraps, he]

end Any.State.GoesAlong

/-! ## The rounds of a pass -/

/-- The periodic entry opens no window for `CB_RET` to close. -/
theorem quietRound_of_periodicEntry {s : Any.State k} {first : Service} (hmode : s.seq.mode = .idle)
    (hper : s.perFlag &&& s.perEn ≠ 0) (horder : s.cmpFlag = false ∨ first = .periodic) :
    quietRound first s = periodicEntry s := by
  rw [quietRound, serviceStep_of_idle hmode, serviceEntry_of_perRequest hper horder]
  exact cbRet_of_inCb_eq_false rfl

/-- A slot that is invoked has its window closed again (R216, R219). -/
theorem quietRound_of_invoked {s : Any.State k} {n : Fin 8} (hmode : s.seq.mode = .per) (hcb : s.seq.inCb = false)
    (htop : highestSlot s.seq.psnap = some n) (first : Service) :
    quietRound first s =
      emit (.perCb n.val s.perCb[n])
        { s with seq := { s.seq with psnap := s.seq.psnap &&& ~~~ perBit n, cursor := n.val, inCb := false } } := by
  rw [quietRound, serviceStep_of_per hmode hcb, periodicScan_of_some htop, cbRet_eq_closeWindow]
  rfl

/-- The step that ends a pass invokes nothing (R219). -/
theorem quietRound_of_empty_snapshot {s : Any.State k} (hmode : s.seq.mode = .per) (hcb : s.seq.inCb = false)
    (hempty : highestSlot s.seq.psnap = none) (first : Service) : quietRound first s = closePass s := by
  rw [quietRound, serviceStep_of_per hmode hcb, periodicScan_of_none hempty]
  exact cbRet_of_inCb_eq_false hcb

/-- The callbacks of a snapshot in the order of their invocation, with the tokens of `s` (R219). -/
def Any.State.snapshotCallbacks (s : Any.State k) : List (Event k.cbWidth) :=
  (snapshotSlots s.seq.psnap).map (fun n => .perCb n.val s.perCb[n])

/-- The rest of a periodic pass, whatever ticks fall between its steps (R220), invokes the slots of the snapshot and
ends. -/
theorem quietRoundsAfterTicks_periodic (first : Service) (ticks : List Nat) {s u : Any.State k}
    {base callbacks : List (Event k.cbWidth)} (h : s.GoesAlong u base callbacks) (hmode : s.seq.mode = .per)
    (hcb : s.seq.inCb = false) (hlen : ticks.length = (snapshotSlots s.seq.psnap).length + 1) :
    (quietRoundsAfterTicks first ticks s).GoesAlong (tickN ticks.sum u) base (callbacks ++ s.snapshotCallbacks) ∧
      (quietRoundsAfterTicks first ticks s).seq.mode = .idle ∧
      (quietRoundsAfterTicks first ticks s).seq.inCb = false := by
  induction ticks generalizing s u callbacks with
  | nil => exact absurd hlen (Nat.succ_ne_zero _).symm
  | cons n ticks ih =>
    have hticks := h.tickN n
    have hseq : (tickN n s).seq = s.seq := congrArg (·.seq) (tickN_frame n s)
    have hevents : (tickN n s).snapshotCallbacks = s.snapshotCallbacks := by rw [tickN_frame]; rfl
    rw [quietRoundsAfterTicks, List.sum_cons, tickN_add, ← hevents]
    rw [← hseq] at hmode hcb hlen
    generalize tickN n s = v at hmode hcb hlen hticks
    generalize tickN n u = u at hticks
    rw [List.length_cons, Nat.succ_inj] at hlen
    cases hslots : snapshotSlots v.seq.psnap with
    | nil =>
      obtain rfl : ticks = [] := List.length_eq_zero_iff.mp (by rw [hlen, hslots]; rfl)
      have hround := quietRound_of_empty_snapshot hmode hcb (by rw [highestSlot_eq_head?, hslots]; rfl) first
      rw [quietRoundsAfterTicks, hround, Any.State.snapshotCallbacks, hslots, List.map_nil, List.append_nil]
      exact ⟨hticks.withSeq _, rfl, hcb⟩
    | cons m rest =>
      have hround := quietRound_of_invoked hmode hcb (by rw [highestSlot_eq_head?, hslots]; rfl) first
      have hnext : (quietRound first v).GoesAlong u base (callbacks ++ [.perCb m.val v.perCb[m]]) := by
        rw [hround]
        exact (hticks.withSeq _).emit nofun
      have hrest : snapshotSlots (quietRound first v).seq.psnap = rest := by
        rw [hround]
        exact snapshotSlots_tail hslots
      have hsplit : v.snapshotCallbacks = .perCb m.val v.perCb[m] :: (quietRound first v).snapshotCallbacks := by
        rw [Any.State.snapshotCallbacks, Any.State.snapshotCallbacks, hrest, hslots, List.map_cons, hround]
        rfl
      rw [hsplit, List.append_cons]
      refine ih hnext ?_ ?_ ?_
      · rw [hround]; exact hmode
      · rw [hround]; rfl
      · rw [hrest, hlen, hslots, List.length_cons]

/-- Settles O44: the entry takes the snapshot, and the rest of the pass invokes it. -/
theorem periodicPassInvokesDescending : Obligations.PeriodicPassInvokesDescending := by
  unfold Obligations.PeriodicPassInvokesDescending
  intro k s first ticks hmode hper horder ns hlen t u
  have hentry : (periodicEntry s).GoesAlong { s with perFlag := 0 } s.trace [] :=
    ⟨rfl, [], (List.append_nil _).symm, rfl, (List.append_nil _).symm⟩
  have ht : t = quietRoundsAfterTicks first ticks (periodicEntry s) := by
    rw [← quietRound_of_periodicEntry hmode hper horder]
  obtain ⟨⟨hrest, hevents⟩, hidle, hclosed⟩ := quietRoundsAfterTicks_periodic first ticks hentry rfl rfl hlen
  rw [ht]
  exact ⟨hrest, hidle, hclosed, hevents⟩

end Sys2Proof.Machine
end

