-- ==== Sys2Proof/Proofs/ComparePass.lean ====
section
/-! A whole compare pass whose callbacks issue no command, without ticks (spec/60_exceptions.md R221 to R224): each scan
round is a scan of one slot, scans of different slots add up, and the finish runs the arbiter on what they leave. -/

namespace Sys2Proof.Machine

variable {k : Config}

/-! ## Scanning a list of slots -/

/-- `t` is `s`, but for the sequencer, after a scan of the slots `l` in their order at the latched counter `c`: those due
fired and are disabled (R222). -/
structure Any.State.Scanned (c : Word) (l : List (Fin k.nComp)) (s t : Any.State k) : Prop where
  rest : t = { s with
    slots := t.slots, seq := t.seq
    trace := s.trace ++ (l.filter (fun i => s.dueAt c i)).map (fun i => .cmpCb i.val s.slots[i].callback) }
  slots : ∀ i : Fin k.nComp,
    t.slots[i] = { s.slots[i] with enabled := s.slots[i].enabled && !(decide (i ∈ l) && s.dueAt c i) }

namespace Any.State.Scanned

variable {c : Word} {l l' : List (Fin k.nComp)} {s t u : Any.State k}

theorem nil (s : Any.State k) : s.Scanned c [] s where
  rest := by rw [List.filter_nil, List.map_nil, List.append_nil]
  slots i := by simp

/-- A slot outside the list is as it was. -/
theorem slot_eq (h : s.Scanned c l t) {i : Fin k.nComp} (hi : i ∉ l) : t.slots[i] = s.slots[i] := by
  rw [h.slots, decide_eq_false hi, Bool.false_and, Bool.not_false, Bool.and_true]

theorem callback_eq (h : s.Scanned c l t) (i : Fin k.nComp) : t.slots[i].callback = s.slots[i].callback := by
  rw [h.slots]

/-- Scans of different slots add up: the second finds its slots as the first found them. -/
theorem append (h : s.Scanned c l t) (h' : t.Scanned c l' u) (hdisjoint : l.Disjoint l') : s.Scanned c (l ++ l') u := by
  have hdue {i : Fin k.nComp} (hi : i ∉ l) : t.dueAt c i = s.dueAt c i := by
    rw [Any.State.dueAt, Any.State.dueAt, h.slot_eq hi]
  constructor
  case rest =>
    have hfired : l'.filter (fun i => t.dueAt c i) = l'.filter (fun i => s.dueAt c i) :=
      List.filter_congr fun i hi => hdue (hdisjoint.symm hi)
    have htrace := congrArg (·.trace) h.rest
    rw [h'.rest, hfired]
    simp only [h.callback_eq]
    rw [htrace, h.rest, List.filter_append, List.map_append, List.append_assoc]
  case slots =>
    intro i
    by_cases hi : i ∈ l
    · have hi' : i ∉ l' := fun hi' => hdisjoint hi hi'
      rw [h'.slot_eq hi', h.slots]
      simp [hi]
    · rw [h'.slots, h.slot_eq hi, hdue hi]
      simp [hi]

end Any.State.Scanned

/-! ## The rounds of a pass -/

/-- A scan round scans the slot at the cursor (R222). -/
theorem quietRound_scanned {s : Any.State k} {i : Fin k.nComp} (hmode : s.seq.mode = .cmp) (hcb : s.seq.inCb = false)
    (hcur : s.seq.cursor = i.val) (first : Service) : s.Scanned s.seq.clatch [i] (quietRound first s) := by
  cases hdue : s.dueAt s.seq.clatch i with
  | true =>
    rw [quietRound_of_due hmode hcb hcur hdue]
    constructor
    case rest => rw [List.filter_cons_of_pos hdue]; rfl
    case slots =>
      intro j
      refine (clearSlot_getElem i j (passSlot i s)).trans ?_
      by_cases hj : j = i
      · subst hj; simp [hdue]
      · simp [hj]
  | false =>
    rw [quietRound_of_not_due hmode hcb hcur hdue]
    constructor
    case rest => rw [List.filter_cons_of_neg (by simp [hdue]), List.filter_nil, List.map_nil, List.append_nil]; rfl
    case slots =>
      intro j
      by_cases hj : j = i
      · subst hj; simp [hdue]
      · simp [hj]

/-- The scan rounds of a pass scan the slots from the cursor on, and leave the cursor for the finish (R222, R223). -/
theorem quietRounds_scanned (first : Service) (m : Nat) {s : Any.State k} (hmode : s.seq.mode = .cmp)
    (hcb : s.seq.inCb = false) (hcur : s.seq.cursor + m = k.nComp) :
    s.Scanned s.seq.clatch ((List.finRange k.nComp).drop s.seq.cursor) (quietRounds first m s) ∧
      (quietRounds first m s).seq = { s.seq with cursor := k.nComp } := by
  induction m generalizing s with
  | zero =>
    have hend : (List.finRange k.nComp).drop s.seq.cursor = [] := List.drop_eq_nil_of_le (by simp; omega)
    have hseq : s.seq = { s.seq with cursor := k.nComp } := by rw [← hcur, Nat.add_zero]
    rw [quietRounds, hend]
    exact ⟨.nil s, hseq⟩
  | succ m ih =>
    have hlt : s.seq.cursor < k.nComp := by omega
    have hround := quietRound_scanned (i := ⟨s.seq.cursor, hlt⟩) hmode hcb rfl first
    have hseq := (quietRound_scan (i := ⟨s.seq.cursor, hlt⟩) hmode hcb rfl first ⟨s.seq.cursor, hlt⟩).1
    have hahead : (List.finRange k.nComp).drop s.seq.cursor =
        [⟨s.seq.cursor, hlt⟩] ++ (List.finRange k.nComp).drop (s.seq.cursor + 1) := by
      rw [List.drop_eq_getElem_cons (by simpa using hlt)]
      simp
    have hdistinct := (List.nodup_finRange k.nComp).sublist (List.drop_sublist s.seq.cursor _)
    rw [quietRounds]
    generalize quietRound first s = u at hround hseq
    have hnext := ih (s := u) (by rw [hseq]; exact hmode) (by rw [hseq]; exact hcb) (by rw [hseq]; simp; omega)
    rw [hseq] at hnext
    rw [hahead] at hdistinct ⊢
    exact ⟨hround.append hnext.1 (List.disjoint_of_nodup_append hdistinct), hnext.2⟩

/-- The compare entry opens no window for `CB_RET` to close. -/
theorem quietRound_of_compareEntry {s : Any.State k} {first : Service} (hmode : s.seq.mode = .idle)
    (hcmp : s.cmpFlag = true) (horder : s.perFlag &&& s.perEn = 0 ∨ first = .compare) :
    quietRound first s = compareEntry s := by
  rw [quietRound, serviceStep_of_idle hmode, serviceEntry_of_cmpRequest hcmp horder]
  exact cbRet_of_inCb_eq_false rfl

theorem quietRounds_succ_last (first : Service) (n : Nat) (s : Any.State k) :
    quietRounds first (n + 1) s = quietRound first (quietRounds first n s) := by
  induction n generalizing s with
  | zero => rfl
  | succ n ih => rw [quietRounds, ih, ← quietRounds]

/-- Settles O45: the entry, the scans, and the finish. -/
theorem comparePassFiresDueSlots : Obligations.ComparePassFiresDueSlots := by
  unfold Obligations.ComparePassFiresDueSlots
  intro k s first hmode hcmp horder fired t
  obtain ⟨hscan, hseq⟩ := quietRounds_scanned first k.nComp (s := compareEntry s) rfl rfl (Nat.zero_add _)
  have hscanned : (compareEntry s).Scanned s.c (List.finRange k.nComp) _ := hscan
  have ht : t = compareFinish (quietRounds first k.nComp (compareEntry s)) := by
    rw [← quietRound_of_finish (by rw [hseq]; rfl) (by rw [hseq]; rfl) (by rw [hseq]) first, ← quietRounds_succ_last,
      ← quietRound_of_compareEntry hmode hcmp horder]
    rfl
  rw [ht, compareFinish_eq]
  refine ⟨_, scheduleNext _, hscanned.rest, fun i => (hscanned.slots i).trans ?_, scheduledFrom_scheduleNext _, rfl, rfl,
    by rw [hseq]; rfl⟩
  rw [decide_eq_true (List.mem_finRange i), Bool.true_and]
  rfl

end Sys2Proof.Machine
end

/-! The cold reset step (spec/70_reset_and_hazards.md R250). -/

namespace Sys2Proof.Machine

variable {k : Config}

theorem step_of_coldReset_scripted {s : State} {ts : List Turn} (hturns : s.turns = .coldReset :: ts) :
    step s = .next (coldResetStep { s with turns := ts }) := by
  have hturn : s.nextTurn = .coldReset := by simp [Any.State.nextTurn, hturns]
  have hpass : s.passTurn = { s with turns := ts } := by simp [Any.State.passTurn, hturns]
  rw [step, hturn, hpass, runTurn]

/-- What the outside does next, which the reset step keeps (log 15), is no row of the reset table. -/
theorem coldResetStep_resetValues (s : Any.State k) : ResetValues (coldResetStep s) :=
  have hreset : ResetValues (Any.State.coldReset k) := coldResetStateValues k
  { hreset with }

/-- The reset values enable no sequencer step: the sequencer is idle and neither request is up (R218, R221). -/
theorem ResetValues.serviceStep_eq {s : Any.State k} (h : ResetValues s) (first : Service) : serviceStep first s = s := by
  have hper : s.perFlag &&& s.perEn = 0 := by simp [h.perFlag]
  rw [serviceStep_of_idle h.mode, serviceEntry_of_no_request hper h.cmpFlag]

/-- Settles O11. -/
theorem coldResetStepResets : Obligations.ColdResetStepResets := by
  unfold Obligations.ColdResetStepResets
  intro s ts hturns
  have hvalues := coldResetStep_resetValues { s with turns := ts }
  exact ⟨_, step_of_coldReset_scripted hturns, hvalues, rfl, rfl, hvalues.serviceStep_eq⟩

end Sys2Proof.Machine
